-- ==== Sys2Proof/Word.lean ====
section
/-! DEFINITION. The data words of the hardware: a byte (00_scope.md section 6) and a Pixel (10_state.md rule R10). -/

namespace Sys2Proof

/-- A byte: 8 bits, bit 7 the most significant (00_scope.md section 6). -/
abbrev Byte := BitVec 8

/-- R10: a Pixel is four independent 8-bit channels, in the order red, green, blue, alpha.
Equality is exact 4-tuple equality; no rule treats the four channels as one number (R77). -/
structure Pixel where
  r : Byte
  g : Byte
  b : Byte
  a : Byte
deriving DecidableEq, Repr

end Sys2Proof
end

