-- ==== Sys2Proof/Config.lean ====
section
/-! DEFINITION. The parameters of the hardware: the values the source fixes (00_scope.md rule R4), the record of those it
names without a value (rules R5 and R6), and the free values of the fields the spec leaves unspecified. -/

namespace Sys2Proof

/-- R5: the parameters the source names but gives no value for. D1 asks for a record, so that a claim can be made
for every choice of values that meets rule R6 (`Params.legal`). -/
structure Params where
  tagIndex : BitVec 2
  tagDiff  : BitVec 2
  tagLuma  : BitVec 2
  tagRun   : BitVec 2
  opRgb    : Byte
  opRgba   : Byte
  /-- The four magic bytes, the first the most significant. -/
  magic    : BitVec 32
  maxRun   : Nat
deriving DecidableEq, Repr

/-- R6: the first bytes that the encoder can emit under a 2-bit tag: every INDEX and LUMA byte, every DIFF byte but the
one whose three deltas are zero, and the RUN bytes of the payloads below `maxRun`. -/
def Params.emits (c : Params) (b : Byte) : Bool :=
  let tag := b.extractLsb' 6 2
  let payload := b.extractLsb' 0 6
  tag = c.tagIndex || tag = c.tagLuma || (tag = c.tagDiff && payload ≠ 0b101010#6)
    || (tag = c.tagRun && payload.toNat < c.maxRun)

/-- R6: what the parameters must satisfy: four different tags, two different sentinels, and no sentinel among the first
bytes that the encoder emits under a tag. DEDUCED (log entry 2): a RUN holds at least one pixel (R52), so `maxRun` is at
least 1. -/
def Params.legal (c : Params) : Bool :=
  c.tagIndex ≠ c.tagDiff && c.tagIndex ≠ c.tagLuma && c.tagIndex ≠ c.tagRun
    && c.tagDiff ≠ c.tagLuma && c.tagDiff ≠ c.tagRun && c.tagLuma ≠ c.tagRun
    && c.opRgb ≠ c.opRgba && !c.emits c.opRgb && !c.emits c.opRgba && 1 ≤ c.maxRun

/-- R5: the values this hardware has. The spec marks all but `maxRun` as its own general knowledge (D1, D2): log entry 1. -/
def Config.params : Params where
  tagIndex := 0b00
  tagDiff  := 0b01
  tagLuma  := 0b10
  tagRun   := 0b11
  opRgb    := 0xFE
  opRgba   := 0xFF
  magic    := 0x716F6966
  maxRun   := 62

/-- R4 `PREV_RESET`: opaque black, the value of `prev` at the start of a pass. -/
def Config.prevReset : Pixel := ⟨0, 0, 0, 255⟩

/-- R4 `CACHE_RESET`: what every cache slot holds at the start of a pass, and so what an unlisted slot reads as. -/
def Config.cacheReset : Pixel := ⟨0, 0, 0, 0⟩

/-- R4 `CACHE_SLOTS`. -/
def Config.cacheSlots : Nat := 64

/-- R4 `HEADER_LEN`, in bytes. -/
def Config.headerLen : Nat := 14

/-- R4 `END_MARKER`: seven zero bytes, then one byte 1; the first byte is the most significant here. -/
def Config.endMarker : BitVec 64 := 1

/-- R4: the length of `END_MARKER`, in bytes. -/
def Config.endMarkerLen : Nat := 8

/-- R4 `CHANNELS_LEGAL`. -/
def Config.channelsLegal (b : Byte) : Bool := b = 3 || b = 4

/-- R4 `COLORSPACE_LEGAL`. -/
def Config.colorspaceLegal (b : Byte) : Bool := b = 0 || b = 1

/-- R19, R23, U11: what an error register's offset holds after `Start`, while its kind is `None`: any value. Free value,
log entry 3. -/
opaque Config.freeOffset : Nat → Nat

/-- R21, R23, U11: what `FRR.width` holds from `Start` until the header is parsed: any value. Free value, log entry 3. -/
opaque Config.freeWidth : Nat → BitVec 32

/-- R21, R23, U11: the same for `FRR.height`. -/
opaque Config.freeHeight : Nat → BitVec 32

/-- R21, R23, U11: the same for `FRR.channels`. -/
opaque Config.freeChannels : Nat → Byte

/-- R21, R23, U11: the same for `FRR.colorspace`. -/
opaque Config.freeColorspace : Nat → Byte

end Sys2Proof
end

