-- ==== Sys2Proof/Syntax.lean ====
section
/-! DEFINITION. The instruction set: one constructor per row of spec/opcode_table.json. Six are the chunk kinds that `DEC`
executes and `ENC` emits (R1, R50); two are the framing records that `FRR` executes and `FRW` emits (R120). The fields are
the bit fields as they are stored: biases are taken off by the meanings, not here (30_encoding.md rule R58). -/

namespace Sys2Proof

inductive Instr where
  /-- R56: RGB literal, three raw channel bytes. -/
  | rgb (r g b : Byte)
  /-- R57: RGBA literal, four raw channel bytes. -/
  | rgba (r g b a : Byte)
  /-- R53: INDEX, a cache slot number. -/
  | index (slot : BitVec 6)
  /-- R54: DIFF, the red, green and blue deltas, each biased by 2. -/
  | diff (dr dg db : BitVec 2)
  /-- R55: LUMA, the green delta biased by 32, then red minus green and blue minus green, each biased by 8. -/
  | luma (dg : BitVec 6) (drdg dbdg : BitVec 4)
  /-- R52: RUN, the run length minus 1. -/
  | run (runM1 : BitVec 6)
  /-- R120: the 14-byte header. Its kind is known by its position alone, so the four magic bytes are an operand here
  (first byte most significant) and R123's check of them is part of the meaning. -/
  | header (magic width height : BitVec 32) (channels colorspace : Byte)
  /-- R120: the last 8 bytes of a persisted stream, first byte most significant. Known by position alone (R124), so the
  bytes are an operand and whether they are the marker is part of the meaning. -/
  | endMarker (mark : BitVec 64)
deriving DecidableEq, Repr

/-- Where a record stands in a persisted stream: the header at its start, the end marker at its end, a chunk between
(R120). The position, not the bytes, tells the three apart (R62, R124). -/
inductive Place where
  | header
  | chunk
  | marker
deriving DecidableEq, Repr

/-- The place at which an instruction is read. -/
def Instr.place : Instr → Place
  | .rgb _ _ _ => .chunk
  | .rgba _ _ _ _ => .chunk
  | .index _ => .chunk
  | .diff _ _ _ => .chunk
  | .luma _ _ _ => .chunk
  | .run _ => .chunk
  | .header _ _ _ _ _ => .header
  | .endMarker _ => .marker

/-- R51, R4: the encoded length in bytes. -/
def Instr.len : Instr → Nat
  | .rgb _ _ _ => 4
  | .rgba _ _ _ _ => 5
  | .index _ => 1
  | .diff _ _ _ => 1
  | .luma _ _ _ => 2
  | .run _ => 1
  | .header _ _ _ _ _ => 14
  | .endMarker _ => 8

end Sys2Proof
end

