-- ==== Sys2Proof/WellFormed.lean ====
section
/-! DEFINITION. Which instructions are well formed: those whose encoding, under given parameters, is that instruction's own.
An instruction that is not well formed has no bytes of its own; where a stream can still hold its operands (a header
with an illegal channel byte) its meaning says what happens. -/

namespace Sys2Proof

/-- R50: a first byte that is not one of the two sentinels, and so is read by its tag. -/
def Params.tagged (c : Params) (b : Byte) : Bool := b ≠ c.opRgb && b ≠ c.opRgba

/-- Well-formedness. A tagged chunk's first byte is no sentinel (R50); a RUN's length is at most `maxRun` (R52); a header
holds the magic and legal channel and colorspace bytes (R121); the marker is `END_MARKER` (R122). -/
def Instr.wf (c : Params) : Instr → Bool
  | .rgb _ _ _ => true
  | .rgba _ _ _ _ => true
  | .index slot => c.tagged (c.tagIndex ++ slot)
  | .diff dr dg db => c.tagged (c.tagDiff ++ dr ++ dg ++ db)
  | .luma dg _ _ => c.tagged (c.tagLuma ++ dg)
  | .run n => c.tagged (c.tagRun ++ n) && n.toNat < c.maxRun
  | .header m _ _ ch cs => m = c.magic && Config.channelsLegal ch && Config.colorspaceLegal cs
  | .endMarker k => k = Config.endMarker

end Sys2Proof
end

