-- ==== Sys2Proof/Decode.lean ====
section
/-! DEFINITION. The decoder, total on any bytes and rejecting by name (30_encoding.md, 43_framing.md), and after it the
encoder, written from the same tables. The encoder is what `ENC` and `FRW` emit with. -/

namespace Sys2Proof

/-- Why a decoder reads no instruction. -/
inductive Reject where
  /-- Not one byte is there to read. -/
  | empty
  /-- R102: the first byte asks for more bytes than are left. -/
  | truncated
  /-- R145: a first byte that selects no kind; with four different tags no byte is one (R60). -/
  | unrecognizedTag
deriving DecidableEq, Repr

/-- What a decoder answers: an instruction and the bytes after it, or a rejection. -/
inductive Decoded where
  | ok (i : Instr) (rest : List Byte)
  | bad (why : Reject)
deriving DecidableEq, Repr

/-! ## Fields of a byte (00_scope.md section 6, 20_memory.md rule R36) -/

/-- `b[7:6]`, the tag. -/
def tagOf (b : Byte) : BitVec 2 := b.extractLsb' 6 2

/-- `b[5:0]`, the payload. -/
def payloadOf (b : Byte) : BitVec 6 := b.extractLsb' 0 6

/-- `b[5:4]`, DIFF's red field. -/
def diffRed (b : Byte) : BitVec 2 := b.extractLsb' 4 2

/-- `b[3:2]`, DIFF's green field. -/
def diffGreen (b : Byte) : BitVec 2 := b.extractLsb' 2 2

/-- `b[1:0]`, DIFF's blue field. -/
def diffBlue (b : Byte) : BitVec 2 := b.extractLsb' 0 2

/-- `b[7:4]`. -/
def highNibble (b : Byte) : BitVec 4 := b.extractLsb' 4 4

/-- `b[3:0]`. -/
def lowNibble (b : Byte) : BitVec 4 := b.extractLsb' 0 4

/-- `be32`: the four bytes of a 32-bit value, most significant first (00_scope.md section 6). -/
def be32 (v : BitVec 32) : List Byte :=
  [v.extractLsb' 24 8, v.extractLsb' 16 8, v.extractLsb' 8 8, v.extractLsb' 0 8]

/-- `unbe32`: the 32-bit value of four bytes, most significant first. -/
def unbe32 (b0 b1 b2 b3 : Byte) : BitVec 32 := b0 ++ b1 ++ b2 ++ b3

/-! ## The decoder -/

/-- R51 `chunk_len`: the length of a chunk is a function of its first byte only. -/
def chunkLen (c : Params) (b0 : Byte) : Nat :=
  if b0 = c.opRgb then 4
  else if b0 = c.opRgba then 5
  else if tagOf b0 = c.tagLuma then 2
  else 1

/-- R50, R102: the chunk at the head of a byte sequence. The sentinels are tested before the tag (R171); the bytes after
the first are data and are not tested (R50). -/
def decodeChunk (c : Params) : List Byte → Decoded
  | [] => .bad .empty
  | b0 :: rest =>
    if b0 = c.opRgb then
      match rest with
      | r :: g :: b :: rest => .ok (.rgb r g b) rest
      | _ => .bad .truncated
    else if b0 = c.opRgba then
      match rest with
      | r :: g :: b :: a :: rest => .ok (.rgba r g b a) rest
      | _ => .bad .truncated
    else if tagOf b0 = c.tagIndex then .ok (.index (payloadOf b0)) rest
    else if tagOf b0 = c.tagDiff then .ok (.diff (diffRed b0) (diffGreen b0) (diffBlue b0)) rest
    else if tagOf b0 = c.tagLuma then
      match rest with
      | b1 :: rest => .ok (.luma (payloadOf b0) (highNibble b1) (lowNibble b1)) rest
      | [] => .bad .truncated
    else if tagOf b0 = c.tagRun then .ok (.run (payloadOf b0)) rest
    else .bad .unrecognizedTag

/-- R120: the header at the head of a byte sequence. -/
def decodeHeader : List Byte → Decoded
  | [] => .bad .empty
  | m0 :: m1 :: m2 :: m3 :: w0 :: w1 :: w2 :: w3 :: h0 :: h1 :: h2 :: h3 :: ch :: cs :: rest =>
    .ok (.header (unbe32 m0 m1 m2 m3) (unbe32 w0 w1 w2 w3) (unbe32 h0 h1 h2 h3) ch cs) rest
  | _ => .bad .truncated

/-- R120: the eight bytes at the place of the end marker. -/
def decodeMarker : List Byte → Decoded
  | [] => .bad .empty
  | b0 :: b1 :: b2 :: b3 :: b4 :: b5 :: b6 :: b7 :: rest =>
    .ok (.endMarker (unbe32 b0 b1 b2 b3 ++ unbe32 b4 b5 b6 b7)) rest
  | _ => .bad .truncated

/-- The decoder: what is read depends on the place the bytes stand at (R62, R124). -/
def decodeAt (c : Params) : Place → List Byte → Decoded
  | .header, bs => decodeHeader bs
  | .chunk, bs => decodeChunk c bs
  | .marker, bs => decodeMarker bs

/-! ## The encoder -/

/-- The bytes of an instruction, by the formats of 30_encoding.md rules R52 to R57 and 43_framing.md rule R120. -/
def encode (c : Params) : Instr → List Byte
  | .rgb r g b => [c.opRgb, r, g, b]
  | .rgba r g b a => [c.opRgba, r, g, b, a]
  | .index slot => [c.tagIndex ++ slot]
  | .diff dr dg db => [c.tagDiff ++ dr ++ dg ++ db]
  | .luma dg drdg dbdg => [c.tagLuma ++ dg, drdg ++ dbdg]
  | .run n => [c.tagRun ++ n]
  | .header m w h ch cs => be32 m ++ be32 w ++ be32 h ++ [ch, cs]
  | .endMarker k => be32 (k.extractLsb' 32 32) ++ be32 (k.extractLsb' 0 32)

/-! ## Words numbered as spec/opcode_table.json numbers them -/

/-- The first `n` bytes of a word: its least significant byte is the byte at the lowest offset. -/
def bytesOfWord : Nat → Nat → List Byte
  | 0, _ => []
  | n + 1, w => BitVec.ofNat 8 w :: bytesOfWord n (w / 256)

/-- The place that a table row's width tells: 14 bytes are HEADER's, 8 bytes END_MARKER's, all else a chunk. -/
def placeOfWidth (nbits : Nat) : Place :=
  if nbits = 112 then .header else if nbits = 64 then .marker else .chunk

/-- The longest instruction that stands at a place, in bytes. -/
def Place.longest : Place → Nat
  | .header => 14
  | .chunk => 5
  | .marker => 8

/-- A table word laid out as bytes: the bits above `nbits` are zero, up to the longest instruction of its place. -/
def tableBytes (nbits w : Nat) : List Byte :=
  bytesOfWord (placeOfWidth nbits).longest (w % 2 ^ nbits)

/-- The instruction the decoder reads from a table word. -/
def decodeTableWord (nbits w : Nat) : Option Instr :=
  match decodeAt Config.params (placeOfWidth nbits) (tableBytes nbits w) with
  | .ok i _ => some i
  | .bad _ => none

end Sys2Proof
end

