-- ==== Sys2Proof/Machine/State.lean ====
section
/-! DEFINITION. The state of the machine as plain data: the three units that hold state (10_state.md), the streams between
them and the environment, and the environment's queue of events. `FRW` is a pure function and holds none (R121). -/

namespace Sys2Proof.Machine

/-! ## The seen-cache -/

/-- R12, R16: a seen-cache. It lists (slot, Pixel) pairs, slots strictly rising, and leaves out every slot that holds the
reset value `Config.cacheReset`, so that equal caches are equal lists (`Cache.wf`); log entry 9. -/
abbrev Cache := List (Nat × Pixel)

/-- The canonical form from slot `lo` on: slots strictly rising, below 64, and no entry equal to what an unlisted slot
reads as. -/
def Cache.wfFrom : Nat → Cache → Bool
  | _, [] => true
  | lo, (k, p) :: rest =>
    lo ≤ k && k < Config.cacheSlots && p ≠ Config.cacheReset && Cache.wfFrom (k + 1) rest

/-- The canonical form of a cache, this hardware's only addressed memory (R30). -/
def Cache.wf (m : Cache) : Bool := Cache.wfFrom 0 m

/-! ## The encoder -/

/-- R14: the encoder's phase. -/
inductive EncPhase where
  | idle
  | active
deriving DecidableEq, Repr

/-- The encoder `ENC` (10_state.md section 2). -/
structure EncUnit where
  /-- R11: the previous-pixel register. -/
  prev  : Pixel
  /-- R12: the seen-cache. -/
  cache : Cache
  /-- R13: the run counter, 6 bits. -/
  run   : BitVec 6
  /-- R14. -/
  phase : EncPhase
deriving DecidableEq, Repr

/-! ## Errors -/

/-- R140: the error kinds. -/
inductive ErrKind where
  | none
  | invalidMagic
  | unsupportedChannelCount
  | unsupportedColorspace
  | truncatedChunk
  | unrecognizedTag
deriving DecidableEq, Repr

/-- R140: the numeric codes of the kinds. -/
def ErrKind.code : ErrKind → Nat
  | .none => 0
  | .invalidMagic => 1
  | .unsupportedChannelCount => 2
  | .unsupportedColorspace => 3
  | .truncatedChunk => 4
  | .unrecognizedTag => 5

/-- R19, R21: an error register. `offset` has a meaning only where `kind` is not `none`. -/
structure ErrReg where
  kind   : ErrKind
  offset : Nat
deriving DecidableEq, Repr

/-! ## The decoder -/

/-- R20: the decoder's phase. -/
inductive DecPhase where
  | idle
  | active
  | faulted
  | done
deriving DecidableEq, Repr

/-- The decoder `DEC` (10_state.md section 3). -/
structure DecUnit where
  /-- R15: the previous-pixel register. -/
  prev  : Pixel
  /-- R16: the seen-cache. -/
  cache : Cache
  /-- R17: the offset of the next chunk, the program counter; without bound (D18). -/
  pos   : Nat
  /-- R18: the bytes of a chunk that has not arrived whole. -/
  buf   : List Byte
  /-- R19: the status register. -/
  err   : ErrReg
  /-- R20. -/
  phase : DecPhase
deriving DecidableEq, Repr

/-- The form in which `DEC` is given its chunk stream `In` for a pass: whole, for the chunk-level form (R101), or one byte
an event (R111). Log entry 8. -/
inductive DecInput where
  | whole (bytes : List Byte)
  | serial
deriving DecidableEq, Repr

/-- What `decode(In)` answers: the whole pixel sequence, or one error (R100). -/
inductive DecodeResult where
  | pixels (q : List Pixel)
  | error (kind : ErrKind) (offset : Nat)
deriving DecidableEq, Repr

/-! ## The framing reader -/

/-- Where the framing reader stands in a read. The spec names `FRR`'s phase only in R148's `U.phase <- Faulted`; the other
values order the checks as R123 to R125 do. Log entry 10. -/
inductive FrrPhase where
  /-- No stream has been given. -/
  | idle
  /-- The header is the next to be read (R123). -/
  | header
  /-- The end marker is the next to be read (R124). -/
  | marker
  /-- The chunk stream is the next to be decoded (R125). -/
  | decode
  /-- `count_ok` has been computed (R175). -/
  | done
  /-- The decoder's error ended the read (R125). -/
  | failed
  /-- The header raised an error (R148). -/
  | faulted
deriving DecidableEq, Repr

/-- The framing reader `FRR` (10_state.md rule R21). -/
structure FrrUnit where
  width       : BitVec 32
  height      : BitVec 32
  channels    : Byte
  colorspace  : Byte
  err         : ErrReg
  endMarkerOk : Bool
  countOk     : Bool
  phase       : FrrPhase
deriving DecidableEq, Repr

/-- R125: what a framed read returns: width, height and pixels, or the decoder's error with the decoder's offset. -/
inductive ReadResult where
  | image (width height : BitVec 32) (q : List Pixel)
  | error (kind : ErrKind) (offset : Nat)
deriving DecidableEq, Repr

/-! ## Events and stops -/

/-- What the environment can give to a unit (R81, R101, R111, R151, R176; D5). -/
inductive Event where
  /-- `ENC`: `Start`. -/
  | encStart
  /-- `ENC`: `Pix(p)`. -/
  | encPix (p : Pixel)
  /-- `ENC`: `End`. -/
  | encEnd
  /-- `DEC`: `Start`, with the chunk stream of the pass. -/
  | decStart (input : DecInput)
  /-- `DEC`: `Chunk`. -/
  | decChunk
  /-- `DEC`: `Byte(b)`. -/
  | decByte (b : Byte)
  /-- `DEC`: `End`. -/
  | decEnd
  /-- `FRR`: `Start`, with the persisted stream `S` to read. -/
  | frrStart (bytes : List Byte)
  /-- `FRR`: read the header (R123). -/
  | frrHeader
  /-- `FRR`: read the end marker (R124). -/
  | frrMarker
  /-- `FRR`: decode the chunk stream and check the pixel count (R125). -/
  | frrDecode
  /-- `FRW`: write an image (R121, R122). -/
  | frwWrite (width height : BitVec 32) (channels colorspace : Byte) (pixels : List Pixel)
deriving DecidableEq, Repr

/-- Why the machine stops with a fault. There is no such reason: the five error kinds of this hardware are states it goes on
to (R148), and nothing in it is stuck (93_implementation_defined.md section 1). Safe: no step claims one. -/
inductive Fault
deriving DecidableEq, Repr

/-- Why the machine gives an event or an instruction no meaning. Each is an event that the spec says has no step; all are
safe, since the machine stops there. -/
inductive Refusal where
  /-- Raised by `exec` for an instruction without a meaning. Safe: the machine stops. No arm raises it now. -/
  | notModelled (mnemonic : String)
  /-- Raised by `step` when the queue holds no event: a step is the reaction to one input event (00_scope.md section 8).
  Safe. -/
  | noEvent
  /-- Raised by `Pix` and `End` of `ENC` in `Idle` (R81, R161, U16). Safe. -/
  | encIdle
  /-- Raised by `Chunk`, `Byte` and `End` of `DEC` outside `Active` (R101, R149, R161, U16). Safe. -/
  | decNotActive
  /-- Raised by `Chunk` in a byte-serial pass and `Byte` in a chunk-level pass (log entry 8). Safe. -/
  | decOtherForm
  /-- Raised by `Chunk` where `pos < |In|` does not hold (R101). Safe. -/
  | decExhausted
  /-- Raised by `End` of a chunk-level pass where `pos = |In|` does not hold (R101). Safe. -/
  | decNotExhausted
  /-- Raised by `FRR` given a persisted stream shorter than 22 bytes (R123, D12). Safe. -/
  | shortStream
  /-- Raised by `FRR` events that are not the next of the read (R123 to R125, U16). Safe. -/
  | frrNotNext
  /-- Raised by `FRW` where `channels` is not 3 or 4 (R121, U13). Safe. -/
  | writeChannels
  /-- Raised by `FRW` where `colorspace` is not 0 or 1 (R121, U13). Safe. -/
  | writeColorspace
  /-- Raised by `FRW` where the number of pixels is not `width × height` (R121, D14). Safe. -/
  | writeCount
deriving DecidableEq, Repr

/-! ## The state -/

/-- The state of the machine. -/
structure State where
  /-- The encoder. -/
  enc    : EncUnit
  /-- The decoder. -/
  dec    : DecUnit
  /-- The framing reader. -/
  frr    : FrrUnit
  /-- The bytes that `ENC` has emitted, oldest first; append only (R30, R81). -/
  encOut : List Byte
  /-- The chunk stream given to `DEC` for the pass (R22, R101). -/
  decIn  : DecInput
  /-- The pixels that `DEC` has output, oldest first; append only (R30). -/
  decOut : List Pixel
  /-- The persisted stream `S` that `FRR` reads (R123). -/
  frrIn  : List Byte
  /-- The results of the reads that ran to their decoding, oldest first (R125). -/
  frrOut : List ReadResult
  /-- The persisted streams that `FRW` has written, oldest first (R122). -/
  frwOut : List (List Byte)
  /-- The events the environment has given and no step has taken, oldest first (R81, R176). Log entry 6. -/
  events : List Event
  /-- How many sets of free values have been drawn. The model's own; log entry 3. -/
  draws  : Nat
deriving DecidableEq, Repr

/-- The three outcomes of a step of this machine. -/
abbrev Outcome := Host.Outcome State Fault Refusal

/-- R23: the encoder after `Start`. -/
def EncUnit.start : EncUnit where
  prev  := Config.prevReset
  cache := []
  run   := 0
  phase := .active

/-- R23: the decoder after `Start`; the offset, which R23 leaves unspecified, is an argument. -/
def DecUnit.start (offset : Nat) : DecUnit where
  prev  := Config.prevReset
  cache := []
  pos   := 0
  buf   := []
  err   := ⟨.none, offset⟩
  phase := .active

/-- R14, R161: the encoder before its first `Start` is `Idle`. R23 leaves its other registers unspecified then and no step reads
them; they hold the values of `Start` (DESIGN CHOICE, unsafe: log entry 5). -/
def EncUnit.beforeStart : EncUnit := { EncUnit.start with phase := .idle }

/-- R20, R161: the decoder before its first `Start` is `Idle`; its other registers as for the encoder (log entry 5). -/
def DecUnit.beforeStart : DecUnit := { DecUnit.start 0 with phase := .idle }

/-- R23, R161: the framing reader before its first `Start` is `Idle`; its error and flags as for the encoder (log entry 5), and
zeros where R23 gives no value after `Start` either (DESIGN CHOICE, unsafe: log entry 4). -/
def FrrUnit.beforeStart : FrrUnit where
  width       := 0
  height      := 0
  channels    := 0
  colorspace  := 0
  err         := ⟨.none, 0⟩
  endMarkerOk := false
  countOk     := false
  phase       := .idle

/-- The machine from which the environment begins: every unit waits for its first `Start`, which is its reset (R160), every stream is
empty and no event is waiting. The registers hold the values that R23 gives for reset (log entry 5). -/
def State.reset : State where
  enc    := EncUnit.beforeStart
  dec    := DecUnit.beforeStart
  frr    := FrrUnit.beforeStart
  encOut := []
  decIn  := .whole []
  decOut := []
  frrIn  := []
  frrOut := []
  frwOut := []
  events := []
  draws  := 0

end Sys2Proof.Machine
end

