-- ==== Sys2Proof/Machine/Ops.lean ====
section
/-! DEFINITION. The named operations: cache access, the write-back that ends every chunk, raising an error, and the `Start`
of each unit, which is the only way out of an error (R149). -/

namespace Sys2Proof.Machine

/-! ## Cache access (20_memory.md section 2) -/

/-- R31: a read moves one whole Pixel from one slot; a slot not written since `Start` reads as the reset value (R43). -/
def Cache.read : Cache → BitVec 6 → Pixel
  | [], _ => Config.cacheReset
  | (k, p) :: rest, slot => if k = slot.toNat then p else Cache.read rest slot

/-- The cache with a slot back at the reset value, that is, unlisted. -/
def Cache.clearSlot (m : Cache) (slot : BitVec 6) : Cache := m.filter fun e => e.1 ≠ slot.toNat

/-- The cache with an entry put in at its slot's place. -/
def Cache.insertSlot (slot : BitVec 6) (p : Pixel) : Cache → Cache
  | [] => [(slot.toNat, p)]
  | (k, q) :: rest =>
    if k < slot.toNat then (k, q) :: Cache.insertSlot slot p rest else (slot.toNat, p) :: (k, q) :: rest

/-- R34: a write replaces the slot's content whatever it held. Writing the reset value unlists the slot. -/
def Cache.write (m : Cache) (slot : BitVec 6) (p : Pixel) : Cache :=
  if p = Config.cacheReset then m.clearSlot slot else Cache.insertSlot slot p (m.clearSlot slot)

/-! ## The pixel hash -/

/-- R70: the slot of a pixel, by exact integers. -/
def pixelHash (p : Pixel) : BitVec 6 :=
  BitVec.ofNat 6 (3 * p.r.toNat + 5 * p.g.toNat + 7 * p.b.toNat + 11 * p.a.toNat)

/-! ## The end of a chunk -/

/-- R109: the write-back of a chunk of `len` bytes that produced the pixel `px`. -/
def DecUnit.writeBack (d : DecUnit) (px : Pixel) (len : Nat) : DecUnit :=
  { d with cache := d.cache.write (pixelHash px) px, prev := px, pos := d.pos + len }

/-- R102, R109: what every chunk does once its pixel `px`, its count `n` and its length are known: output `n` copies, then
write back. -/
def State.finishChunk (s : State) (px : Pixel) (n len : Nat) : State :=
  { s with dec := s.dec.writeBack px len, decOut := s.decOut ++ List.replicate n px }

/-- R18, R111: the bytes of a chunk that has not arrived whole are set. -/
def State.withBuf (s : State) (buf : List Byte) : State := { s with dec := { s.dec with buf := buf } }

/-! ## Error entry -/

/-- R148: `raise` in `DEC`: the error register and the phase, and no other change. -/
def State.decRaise (s : State) (kind : ErrKind) (offset : Nat) : State :=
  { s with dec := { s.dec with err := ⟨kind, offset⟩, phase := .faulted } }

/-- R148: `raise` in `FRR`. -/
def State.frrRaise (s : State) (kind : ErrKind) (offset : Nat) : State :=
  { s with frr := { s.frr with err := ⟨kind, offset⟩, phase := .faulted } }

/-! ## `Start`: reset of a unit, and the only way on from an error (R149, R160) -/

/-- R23, R81: `Start` of `ENC` resets the unit and emits nothing; a pending run is lost (D21). -/
def State.encStart (s : State) : State := { s with enc := EncUnit.start }

/-- R23, R101: `Start` of `DEC` resets the unit; the pass reads `input`. What `err.offset` holds while `kind = None` is a
free value (log entry 3). -/
def State.decStart (s : State) (input : DecInput) : State :=
  { s with dec := DecUnit.start (Config.freeOffset s.draws), decIn := input, draws := s.draws + 1 }

/-- R21, R23, R123: `Start` of `FRR` on the persisted stream `bytes`: no error, both flags 0; the latched fields and the
error's offset are unspecified until written, so they are free values (log entry 3). -/
def State.frrStart (s : State) (bytes : List Byte) : State :=
  { s with
    frr := { width := Config.freeWidth s.draws, height := Config.freeHeight s.draws,
             channels := Config.freeChannels s.draws, colorspace := Config.freeColorspace s.draws,
             err := ⟨.none, Config.freeOffset s.draws⟩, endMarkerOk := false, countOk := false, phase := .header },
    frrIn := bytes, draws := s.draws + 1 }

/-! ## Latching the header's fields (R123) -/

/-- R123: width and height are latched. -/
def State.latchSize (s : State) (width height : BitVec 32) : State :=
  { s with frr := { s.frr with width := width, height := height } }

/-- R123: the channel byte is latched. -/
def State.latchChannels (s : State) (channels : Byte) : State :=
  { s with frr := { s.frr with channels := channels } }

/-- R123: the colorspace byte is latched; the header is read, and the end marker is next. -/
def State.latchColorspace (s : State) (colorspace : Byte) : State :=
  { s with frr := { s.frr with colorspace := colorspace, phase := .marker } }

/-- R124: the flag of the end marker is set; the chunk stream is next. -/
def State.latchMarker (s : State) (ok : Bool) : State :=
  { s with frr := { s.frr with endMarkerOk := ok, phase := .decode } }

/-! ## Appending to the output streams (R30) -/

/-- R81: `emit`: append to the encoder's output byte stream. -/
def State.emit (s : State) (bytes : List Byte) : State := { s with encOut := s.encOut ++ bytes }

end Sys2Proof.Machine
end

