-- ==== Sys2Proof/Machine/Operands.lean ====
section
/-! DEFINITION. Operand forms: the quantities a chunk's fields stand for (30_encoding.md rule R58), the deltas between two
pixels and the quantizers that store them (40_helpers.md), and the pixel that each chunk kind produces (42_decoder.md). -/

namespace Sys2Proof.Machine

/-! ## Fields to quantities: the field without its sign extended, less its bias (R58) -/

/-- DIFF: `field − 2`. -/
def diffDelta (f : BitVec 2) : Int := (f.toNat : Int) - 2

/-- LUMA, green: `field − 32`. -/
def lumaGreen (f : BitVec 6) : Int := (f.toNat : Int) - 32

/-- LUMA, red or blue: `(field − 8) + dg`; the nibble is split off first and `dg` added afterwards (R58, R167). -/
def lumaOther (f : BitVec 4) (dg : Int) : Int := ((f.toNat : Int) - 8) + dg

/-- RUN: `field + 1`. -/
def runLength (f : BitVec 6) : Nat := f.toNat + 1

/-- R75: `q +8 d`, a channel plus an exact signed delta, modulo 256. -/
def addDelta (q : Byte) (d : Int) : Byte := q + BitVec.ofInt 8 d

/-! ## Deltas and quantizers -/

/-- R72: `s8(p −8 q)`, the wrap-around difference of two channels read as a signed value. -/
def delta (p q : Byte) : Int := (p - q).toInt

/-- R73: the range of a DIFF delta. -/
def diffRange (d : Int) : Bool := -2 ≤ d && d ≤ 1

/-- R73 `diff_ok`. -/
def diffOk (p q : Pixel) : Bool :=
  p.a = q.a && diffRange (delta p.r q.r) && diffRange (delta p.g q.g) && diffRange (delta p.b q.b)

/-- R74: the range of a LUMA red or blue term. -/
def lumaRange (d : Int) : Bool := -8 ≤ d && d ≤ 7

/-- R74 `luma_ok`, by exact integers. -/
def lumaOk (p q : Pixel) : Bool :=
  let dg := delta p.g q.g
  p.a = q.a && (-32 ≤ dg && dg ≤ 31) && lumaRange (delta p.r q.r - dg) && lumaRange (delta p.b q.b - dg)

/-- R73 `diff_byte`: the DIFF chunk that stores the deltas, each biased by 2. -/
def diffChunk (p q : Pixel) : Instr :=
  .diff (BitVec.ofInt 2 (delta p.r q.r + 2)) (BitVec.ofInt 2 (delta p.g q.g + 2))
    (BitVec.ofInt 2 (delta p.b q.b + 2))

/-- R74 `luma_bytes`: the LUMA chunk that stores the deltas, biased by 32 and 8. -/
def lumaChunk (p q : Pixel) : Instr :=
  let dg := delta p.g q.g
  .luma (BitVec.ofInt 6 (dg + 32)) (BitVec.ofInt 4 (delta p.r q.r - dg + 8))
    (BitVec.ofInt 4 (delta p.b q.b - dg + 8))

/-! ## The pixel a chunk produces, from the decoder's `prev` and `cache` -/

/-- R103: three raw channels, the previous pixel's alpha. -/
def pixelRgb (d : DecUnit) (r g b : Byte) : Pixel := ⟨r, g, b, d.prev.a⟩

/-- R104: four raw channels. -/
def pixelRgba (r g b a : Byte) : Pixel := ⟨r, g, b, a⟩

/-- R105: the pixel in the slot the payload names. -/
def pixelIndex (d : DecUnit) (slot : BitVec 6) : Pixel := d.cache.read slot

/-- R106: the previous pixel with three deltas added, alpha unchanged. -/
def pixelDiff (d : DecUnit) (dr dg db : BitVec 2) : Pixel :=
  ⟨addDelta d.prev.r (diffDelta dr), addDelta d.prev.g (diffDelta dg), addDelta d.prev.b (diffDelta db), d.prev.a⟩

/-- R107: the previous pixel with the green delta and the two deltas coupled to it added, alpha unchanged. -/
def pixelLuma (d : DecUnit) (dg : BitVec 6) (drdg dbdg : BitVec 4) : Pixel :=
  let g := lumaGreen dg
  ⟨addDelta d.prev.r (lumaOther drdg g), addDelta d.prev.g g, addDelta d.prev.b (lumaOther dbdg g), d.prev.a⟩

/-- R108: the previous pixel. -/
def pixelRun (d : DecUnit) : Pixel := d.prev

end Sys2Proof.Machine
end

