-- ==== Sys2Proof/Machine/Flags.lean ====
section
/-! DEFINITION. The status bits: the two compliance flags of `FRR`. No chunk sets a flag as a side effect (R22). -/

namespace Sys2Proof.Machine

/-- R124 `end_marker_ok`: whether the last 8 bytes are `END_MARKER`. -/
def endMarkerFlag (mark : BitVec 64) : Bool := mark = Config.endMarker

/-- R125 `count_ok`: whether the pixel count is `width × height`, the product an exact natural number. -/
def countFlag (width height : BitVec 32) (q : List Pixel) : Bool := q.length = width.toNat * height.toNat

end Sys2Proof.Machine
end

