-- ==== Sys2Proof/Machine/Framing.lean ====
section
/-! DEFINITION. The meanings of the two framing records, as `FRR` executes them (43_framing.md rules R123 and R124). -/

namespace Sys2Proof.Machine

/-- R123 HEADER: the fields are checked in offset order and latched as they pass; the first failure raises its error
(R140 to R143). What was latched before the failing check stays latched (R142; log entry 11). -/
def execHeader (magic width height : BitVec 32) (channels colorspace : Byte) (s : State) : Outcome :=
  if magic ≠ Config.params.magic then .next (s.frrRaise .invalidMagic 0)
  else if !Config.channelsLegal channels then
    .next ((s.latchSize width height).frrRaise .unsupportedChannelCount 12)
  else if !Config.colorspaceLegal colorspace then
    .next (((s.latchSize width height).latchChannels channels).frrRaise .unsupportedColorspace 13)
  else .next (((s.latchSize width height).latchChannels channels).latchColorspace colorspace)

/-- R124 END_MARKER: the flag reports whether the bytes are the marker; the read goes on in either case. -/
def execEndMarker (mark : BitVec 64) (s : State) : Outcome := .next (s.latchMarker (endMarkerFlag mark))

end Sys2Proof.Machine
end

