-- ==== Sys2Proof/Machine/Literal.lean ====
section
/-! DEFINITION. The meanings of the two literal chunks (42_decoder.md rules R103 and R104). A meaning is what the chunk does;
whether `DEC` has a step at all is asked before it is called (`Machine/Agents.lean`; log entry 18). -/

namespace Sys2Proof.Machine

/-- R103 RGB. -/
def execRgb (r g b : Byte) (s : State) : Outcome := .next (s.finishChunk (pixelRgb s.dec r g b) 1 4)

/-- R104 RGBA. -/
def execRgba (r g b a : Byte) (s : State) : Outcome := .next (s.finishChunk (pixelRgba r g b a) 1 5)

end Sys2Proof.Machine
end

