-- ==== Sys2Proof/Machine/Tagged.lean ====
section
/-! DEFINITION. The meanings of the four tagged chunks (42_decoder.md rules R105 to R108). -/

namespace Sys2Proof.Machine

/-- R105 INDEX. The cache is read before it is written (R33). -/
def execIndex (slot : BitVec 6) (s : State) : Outcome := .next (s.finishChunk (pixelIndex s.dec slot) 1 1)

/-- R106 DIFF. -/
def execDiff (dr dg db : BitVec 2) (s : State) : Outcome := .next (s.finishChunk (pixelDiff s.dec dr dg db) 1 1)

/-- R107 LUMA. -/
def execLuma (dg : BitVec 6) (drdg dbdg : BitVec 4) (s : State) : Outcome :=
  .next (s.finishChunk (pixelLuma s.dec dg drdg dbdg) 1 2)

/-- R108 RUN: all copies are output in this one step, and the cache is written once. -/
def execRun (runM1 : BitVec 6) (s : State) : Outcome := .next (s.finishChunk (pixelRun s.dec) (runLength runM1) 1)

end Sys2Proof.Machine
end

