-- ==== Sys2Proof/Machine/Decoder.lean ====
section
/-! DEFINITION. The decoder `DEC` (42_decoder.md): its events in the chunk-level and the byte-serial form, and the pure function
`decode(In)` made of the chunk-level ones. -/

namespace Sys2Proof.Machine

/-- R102: what was read is executed, or its error raised at the chunk's first byte. -/
def runDecoded (what : Decoded) (s : State) : Outcome :=
  match what with
  | .ok i _ => exec i s
  | .bad .truncated => .next (s.decRaise .truncatedChunk s.dec.pos)
  | .bad .unrecognizedTag => .next (s.decRaise .unrecognizedTag s.dec.pos)
  | .bad .empty => .refused .decExhausted

/-- R101, R102: `Chunk`, enabled when `phase = Active` and `pos < |In|`: fetch at `pos`, decode, execute. -/
def decChunk (c : Params) (s : State) : Outcome :=
  if s.dec.phase = .active then
    match s.decIn with
    | .whole bytes =>
      if s.dec.pos < bytes.length then runDecoded (decodeChunk c (bytes.drop s.dec.pos)) s else .refused .decExhausted
    | .serial => .refused .decOtherForm
  else .refused .decNotActive

/-- R111: whether the bytes that have arrived make a whole chunk. -/
def chunkComplete (c : Params) : List Byte → Bool
  | [] => false
  | b0 :: rest => rest.length + 1 = chunkLen c b0

/-- R111: `Byte(b)`: the byte joins the buffer; a chunk that is whole is executed and the buffer emptied. -/
def decByte (c : Params) (b : Byte) (s : State) : Outcome :=
  if s.dec.phase = .active then
    match s.decIn with
    | .serial =>
      let buf := s.dec.buf ++ [b]
      if chunkComplete c buf then runDecoded (decodeChunk c buf) (s.withBuf []) else .next (s.withBuf buf)
    | .whole _ => .refused .decOtherForm
  else .refused .decNotActive

/-- R20: the pass is over without an error. -/
def State.decDone (s : State) : State := { s with dec := { s.dec with phase := .done } }

/-- R101, R111: `End`. In the chunk-level form it is enabled when `pos = |In|`; in the byte-serial form a chunk that has not
arrived whole is truncated. -/
def decEnd (s : State) : Outcome :=
  if s.dec.phase = .active then
    match s.decIn with
    | .whole bytes => if s.dec.pos = bytes.length then .next s.decDone else .refused .decNotExhausted
    | .serial => if s.dec.buf = [] then .next s.decDone else .next (s.decRaise .truncatedChunk s.dec.pos)
  else .refused .decNotActive

/-- R101: `Chunk` while enabled, at most `n` times. -/
def decChunks (c : Params) : Nat → State → State
  | 0, s => s
  | n + 1, s =>
    match decChunk c s with
    | .next t => decChunks c n t
    | .fault _ => s
    | .refused _ => s

/-- R101: a whole chunk-level pass from `s`: `Start`, `Chunk` while enabled, `End`. The state it ends in, which is that of the
first error if one is raised (R148). Every chunk takes at least one byte, so `|In|` chunks are enough (R110). -/
def decodePass (c : Params) (input : List Byte) (s : State) : State :=
  let u := decChunks c input.length (s.decStart (.whole input))
  match decEnd u with
  | .next t => t
  | .fault _ => u
  | .refused _ => u

/-- R100: `decode(In)`: the pixels of a pass on a decoder of its own, or its error and no pixels (R148). -/
def decodeStream (c : Params) (input : List Byte) : DecodeResult :=
  let t := decodePass c input State.reset
  if t.dec.phase = .done then .pixels t.decOut else .error t.dec.err.kind t.dec.err.offset

end Sys2Proof.Machine
end

