-- ==== Sys2Proof/Machine/Encoder.lean ====
section
/-! DEFINITION. The encoder `ENC` (41_encoder.md): classifier, run counter, state update, and the pure function `encode(P)`
made of them. Every chunk it emits is an instruction put through `encode`, so that encoder and decoder agree on one table. -/

namespace Sys2Proof.Machine

/-- R82, classes 2 to 5, for a pixel that differs from `prev`: the first match wins, and the tests read `prev` and `cache`
as they were before the step (R33). -/
def EncUnit.classify (u : EncUnit) (p : Pixel) : Instr :=
  if u.cache.read (pixelHash p) = p then .index (pixelHash p)
  else if diffOk p u.prev then diffChunk p u.prev
  else if lumaOk p u.prev then lumaChunk p u.prev
  else if p.a = u.prev.a then .rgb p.r p.g p.b
  else .rgba p.r p.g p.b p.a

/-- R84: a pending run is written out as one RUN chunk and the counter goes back to 0; the bytes emitted. -/
def EncUnit.flush (c : Params) (u : EncUnit) : EncUnit × List Byte :=
  if u.run = 0 then (u, []) else ({ u with run := 0 }, encode c (.run (u.run - 1)))

/-- R90: the pixel is stored at its slot and becomes the previous pixel. -/
def EncUnit.update (u : EncUnit) (p : Pixel) : EncUnit :=
  { u with cache := u.cache.write (pixelHash p) p, prev := p }

/-- R83: a pixel equal to `prev` is absorbed into the run; at the cap the run is written out. -/
def EncUnit.absorb (c : Params) (u : EncUnit) (p : Pixel) : EncUnit × List Byte :=
  let v := { u.update p with run := u.run + 1 }
  if v.run.toNat = c.maxRun then v.flush c else (v, [])

/-- R82: `Pix(p)`: the unit after the step, and the bytes emitted. -/
def EncUnit.pix (c : Params) (u : EncUnit) (p : Pixel) : EncUnit × List Byte :=
  if p = u.prev then u.absorb c p
  else
    let (v, bytes) := u.flush c
    (v.update p, bytes ++ encode c (u.classify p))

/-- R91: `End`: the pending run is written out and the unit becomes idle. -/
def EncUnit.stop (c : Params) (u : EncUnit) : EncUnit × List Byte :=
  let (v, bytes) := u.flush c
  ({ v with phase := .idle }, bytes)

/-- `Pix` for each pixel of a sequence, in order: the unit after them, and all the bytes emitted. -/
def EncUnit.feed (c : Params) : EncUnit → List Pixel → EncUnit × List Byte
  | u, [] => (u, [])
  | u, p :: ps =>
    let (v, bytes) := u.pix c p
    let (w, more) := EncUnit.feed c v ps
    (w, bytes ++ more)

/-- R80: `encode(P)`: the bytes of `Start`, one `Pix` a pixel, `End`. -/
def encodePixels (c : Params) (ps : List Pixel) : List Byte :=
  let (u, bytes) := EncUnit.start.feed c ps
  bytes ++ (u.stop c).2

end Sys2Proof.Machine
end

