-- ==== Sys2Proof/Machine/Agents.lean ====
section
/-! DEFINITION. What each agent does with an event (R81, R101, R111, R121 to R125): one atomic step of one unit. -/

namespace Sys2Proof.Machine

/-! ## ENC -/

/-- The encoder is set to what a step of it answers, and the bytes appended to its output stream (R81). -/
def State.withEnc (s : State) (r : EncUnit × List Byte) : State := { s with enc := r.1 }.emit r.2

/-- R81, R82: `Pix(p)`. -/
def encPix (c : Params) (p : Pixel) (s : State) : Outcome :=
  if s.enc.phase = .active then .next (s.withEnc (s.enc.pix c p)) else .refused .encIdle

/-- R81, R91: `End`. -/
def encEnd (c : Params) (s : State) : Outcome :=
  if s.enc.phase = .active then .next (s.withEnc (s.enc.stop c)) else .refused .encIdle

/-! ## FRR -/

/-- R123: the shortest stream that can hold a header and an end marker, 22 bytes. -/
def shortestStream : Nat := Config.headerLen + Config.endMarkerLen

/-- R124: the last 8 bytes of a persisted stream, by position. -/
def markerBytes (bytes : List Byte) : List Byte := bytes.drop (bytes.length - Config.endMarkerLen)

/-- R124: the chunk stream of a persisted stream: all but the first 14 and the last 8 bytes. -/
def chunkBytes (bytes : List Byte) : List Byte :=
  (bytes.drop Config.headerLen).take (bytes.length - shortestStream)

/-- R123, D12: `FRR` is given a persisted stream; one too short is refused. -/
def frrStart (bytes : List Byte) (s : State) : Outcome :=
  if bytes.length < shortestStream then .refused .shortStream else .next (s.frrStart bytes)

/-- A framing record that was read is executed. -/
def runFraming (what : Decoded) (s : State) : Outcome :=
  match what with
  | .ok i _ => exec i s
  | .bad _ => .refused .shortStream

/-- R123: the header, at offset 0. -/
def frrHeader (s : State) : Outcome :=
  if s.frr.phase = .header then runFraming (decodeHeader s.frrIn) s else .refused .frrNotNext

/-- R124: the end marker, at the last 8 bytes. -/
def frrMarker (s : State) : Outcome :=
  if s.frr.phase = .marker then runFraming (decodeMarker (markerBytes s.frrIn)) s else .refused .frrNotNext

/-- R125: the read's result once the chunk stream is decoded. -/
def State.frrFinish (s : State) (r : DecodeResult) : State :=
  match r with
  | .pixels q =>
    { s with frr := { s.frr with countOk := countFlag s.frr.width s.frr.height q, phase := .done },
             frrOut := s.frrOut ++ [.image s.frr.width s.frr.height q] }
  | .error kind offset =>
    { s with frr := { s.frr with phase := .failed }, frrOut := s.frrOut ++ [.error kind offset] }

/-- R125: `FRR` runs `decode(In)` on a decoder of its own (R152; log entry 12). -/
def frrDecode (c : Params) (s : State) : Outcome :=
  if s.frr.phase = .decode then .next (s.frrFinish (decodeStream c (chunkBytes s.frrIn))) else .refused .frrNotNext

/-! ## FRW -/

/-- R121, R122: the persisted stream of an image: header, `encode(P)`, end marker. -/
def persisted (c : Params) (width height : BitVec 32) (channels colorspace : Byte) (ps : List Pixel) : List Byte :=
  encode c (.header c.magic width height channels colorspace) ++ encodePixels c ps
    ++ encode c (.endMarker Config.endMarker)

/-- R121, R122: `FRW` writes an image; it has no step if a precondition fails (R155). -/
def frwWrite (c : Params) (width height : BitVec 32) (channels colorspace : Byte) (ps : List Pixel) (s : State) :
    Outcome :=
  if !Config.channelsLegal channels then .refused .writeChannels
  else if !Config.colorspaceLegal colorspace then .refused .writeColorspace
  else if !countFlag width height ps then .refused .writeCount
  else .next { s with frwOut := s.frwOut ++ [persisted c width height channels colorspace ps] }

/-! ## One event -/

/-- The step of the unit that an event is given to. -/
def react (c : Params) (e : Event) (s : State) : Outcome :=
  match e with
  | .encStart => .next s.encStart
  | .encPix p => encPix c p s
  | .encEnd => encEnd c s
  | .decStart input => .next (s.decStart input)
  | .decChunk => decChunk c s
  | .decByte b => decByte c b s
  | .decEnd => decEnd s
  | .frrStart bytes => frrStart bytes s
  | .frrHeader => frrHeader s
  | .frrMarker => frrMarker s
  | .frrDecode => frrDecode c s
  | .frwWrite width height channels colorspace ps => frwWrite c width height channels colorspace ps s

/-- The machine takes the oldest waiting event; without one it has no step (00_scope.md section 8, R40). -/
def takeEvent (c : Params) (s : State) : Outcome :=
  match s.events with
  | [] => .refused .noEvent
  | e :: rest => react c e { s with events := rest }

/-! ## Placing an instruction where the next step fetches it -/

/-- A byte sequence filled up with zero bytes to a least length. -/
def padTo (n : Nat) (bytes : List Byte) : List Byte := bytes ++ List.replicate (n - bytes.length) 0

/-- `new` written over `old` from offset `pos` on; a gap before `pos` is filled with zero bytes. -/
def overwrite (old : List Byte) (pos : Nat) (new : List Byte) : List Byte :=
  (padTo pos old).take pos ++ new ++ old.drop (pos + new.length)

/-- `DEC`'s chunk stream as bytes. -/
def DecInput.bytes : DecInput → List Byte
  | .whole bytes => bytes
  | .serial => []

/-- The bytes of an instruction stored where `step` fetches its next instruction, with the event and the phase that make it
the next: a chunk at `DEC.pos` of `In`, a header at offset 0 of `S`, an end marker at the last 8 bytes of `S`. Log
entry 16. -/
def placeInstr (s : State) (place : Place) (bytes : List Byte) : State :=
  match place with
  | .chunk =>
    { s with dec := { s.dec with phase := .active }, decIn := .whole (overwrite s.decIn.bytes s.dec.pos bytes),
             events := .decChunk :: s.events }
  | .header =>
    { s with frr := { s.frr with phase := .header },
             frrIn := overwrite (padTo shortestStream s.frrIn) 0 bytes,
             events := .frrHeader :: s.events }
  | .marker =>
    { s with frr := { s.frr with phase := .marker },
             frrIn := overwrite s.frrIn (max s.frrIn.length shortestStream - Config.endMarkerLen) bytes,
             events := .frrMarker :: s.events }

end Sys2Proof.Machine
end

