-- ==== Sys2Proof/Machine/Step.lean ====
section
/-! DEFINITION. One step of the machine, and where the host places an instruction for it. -/

namespace Sys2Proof.Machine

/-- One step: the unit that the oldest waiting event is given to takes its step, under the parameters of rule R5. -/
def step (s : State) : Host.Outcome State Fault Refusal := takeEvent Config.params s

/-- `s` with a table word's instruction stored where `step` fetches its next instruction (log entry 16). -/
def State.withFetchWord (s : State) (nbits w : Nat) : State :=
  placeInstr s (placeOfWidth nbits) (tableBytes nbits w)

end Sys2Proof.Machine
end

