-- ==== Sys2Proof/Safety.lean ====
section
/-! DEFINITION. What claims about this machine are made of: the invariant that every step keeps, what a completed chunk has
done and left alone, and the source's forward-scan wording of the encoder. -/

namespace Sys2Proof.Machine

/-! ## The invariant -/

/-- R24: a slot holds the reset value or a pixel that hashes to it. -/
def CacheHashed (m : Cache) : Prop :=
  ∀ slot : BitVec 6, m.read slot = Config.cacheReset ∨ pixelHash (m.read slot) = slot

/-- What holds of the encoder between steps. -/
structure EncInv (u : EncUnit) : Prop where
  cacheWf    : u.cache.wf = true
  hashed     : CacheHashed u.cache
  /-- R13: `0 ≤ run ≤ MAX_RUN − 1`. -/
  runBelow   : u.run.toNat < Config.params.maxRun
  /-- R25: `prev` is in the cache, but before the first pixel of a pass. -/
  prevCached : u.cache.read (pixelHash u.prev) = u.prev ∨ (u.prev = Config.prevReset ∧ u.cache = [] ∧ u.run = 0)
  /-- R175: no run is pending once the pass is over. -/
  idleFlushed : u.phase = .idle → u.run = 0

/-- What holds of the decoder, whose pass reads `input`, between steps. -/
structure DecInv (d : DecUnit) (input : DecInput) : Prop where
  cacheWf    : d.cache.wf = true
  hashed     : CacheHashed d.cache
  /-- R25: `prev` is in the cache, but before the first chunk of a pass. -/
  prevCached : d.cache.read (pixelHash d.prev) = d.prev ∨ (d.prev = Config.prevReset ∧ d.cache = [] ∧ d.pos = 0)
  /-- R18: the buffer is shorter than the chunk it begins. -/
  bufPartial : ∀ b rest, d.buf = b :: rest → d.buf.length < chunkLen Config.params b
  /-- R110: `pos` never exceeds `|In|`; R18: the chunk-level form has no buffer. -/
  posInside  : ∀ bytes, input = .whole bytes → d.pos ≤ bytes.length ∧ d.buf = []
  /-- R19, R145: the kinds `DEC` raises. -/
  errKind    : d.err.kind = .none ∨ d.err.kind = .truncatedChunk
  /-- R148: an error and the `Faulted` phase come together. -/
  faultedIff : d.phase = .faulted ↔ d.err.kind ≠ .none
  /-- R175: a pass that is over has read all of `In`. -/
  doneRead   : d.phase = .done → d.buf = [] ∧ ∀ bytes, input = .whole bytes → d.pos = bytes.length

/-- What holds of the framing reader, which reads `bytes`, between steps. -/
structure FrrInv (f : FrrUnit) (bytes : List Byte) : Prop where
  /-- R21: the kinds `FRR` raises. -/
  errKind     : f.err.kind = .none ∨ f.err.kind = .invalidMagic ∨ f.err.kind = .unsupportedChannelCount
                  ∨ f.err.kind = .unsupportedColorspace
  /-- R148: an error and the `Faulted` phase come together. -/
  faultedIff  : f.phase = .faulted ↔ f.err.kind ≠ .none
  /-- R123: the stream that is read is long enough for a header and an end marker. -/
  streamLong  : f.phase = .header ∨ f.phase = .marker ∨ f.phase = .decode → shortestStream ≤ bytes.length
  /-- R21: latched channel and colorspace bytes are legal. -/
  latched     : f.phase = .marker ∨ f.phase = .decode ∨ f.phase = .done ∨ f.phase = .failed →
                  Config.channelsLegal f.channels = true ∧ Config.colorspaceLegal f.colorspace = true

/-- The invariant of the machine. -/
structure Inv (s : State) : Prop where
  enc : EncInv s.enc
  dec : DecInv s.dec s.decIn
  frr : FrrInv s.frr s.frrIn

/-! ## What a chunk has done -/

/-- From `s` to `t` one chunk of `len` bytes was executed that produced `n` copies of `px`: the write-back of R109, the output
of R102, and nothing else. The slot written is `pixelHash px`; every other slot reads as before. -/
structure ChunkDone (s t : State) (px : Pixel) (n len : Nat) : Prop where
  prev      : t.dec.prev = px
  pos       : t.dec.pos = s.dec.pos + len
  out       : t.decOut = s.decOut ++ List.replicate n px
  stored    : t.dec.cache.read (pixelHash px) = px
  otherSlot : ∀ slot, slot ≠ pixelHash px → t.dec.cache.read slot = s.dec.cache.read slot
  buf       : t.dec.buf = s.dec.buf
  err       : t.dec.err = s.dec.err
  phase     : t.dec.phase = s.dec.phase
  enc       : t.enc = s.enc
  frr       : t.frr = s.frr
  encOut    : t.encOut = s.encOut
  decIn     : t.decIn = s.decIn
  frrIn     : t.frrIn = s.frrIn
  frrOut    : t.frrOut = s.frrOut
  frwOut    : t.frwOut = s.frwOut
  events    : t.events = s.events
  draws     : t.draws = s.draws

/-- The next event is `Chunk`, `DEC` is active in the chunk-level form, and what is left of `In` from `pos` on is `bytes`. -/
def AtChunk (s : State) (rest : List Event) (bytes : List Byte) : Prop :=
  s.events = .decChunk :: rest ∧ s.dec.phase = .active ∧
    ∃ input, s.decIn = .whole input ∧ input.drop s.dec.pos = bytes

/-- The same state with the events `rest` left. -/
def State.withEvents (s : State) (rest : List Event) : State := { s with events := rest }

/-- 00_scope.md section 6: `a +8 d`, that is `(a + d) mod 256`, for an exact integer `d`. -/
def wrapAdd (a : Byte) (d : Int) : Byte := BitVec.ofNat 8 ((a.toNat + d) % 256).toNat

/-! ## Agents -/

/-- R152: the agents. -/
inductive Agent where
  | enc
  | dec
  | frr
  | frw
deriving DecidableEq, Repr

/-- The agent an event is given to. -/
def Event.agent : Event → Agent
  | .encStart => .enc
  | .encPix _ => .enc
  | .encEnd => .enc
  | .decStart _ => .dec
  | .decChunk => .dec
  | .decByte _ => .dec
  | .decEnd => .dec
  | .frrStart _ => .frr
  | .frrHeader => .frr
  | .frrMarker => .frr
  | .frrDecode => .frr
  | .frwWrite _ _ _ _ _ => .frw

/-- The state with the two header fields that R126 says no rule reads put at zero. -/
def State.withoutHeaderBytes (s : State) : State := { s with frr := { s.frr with channels := 0, colorspace := 0 } }

/-! ## The source's wording of the encoder -/

/-- R92: one position of the forward scan. A pixel equal to `prev` begins a run, taken as far as the next pixels also equal it
but at most to `maxRun`; any other pixel is one chunk. `fuel` bounds the number of chunks. -/
def scanFrom (c : Params) : Nat → EncUnit → List Pixel → List Byte
  | 0, _, _ => []
  | _ + 1, _, [] => []
  | fuel + 1, u, p :: ps =>
    if p = u.prev then
      let more := (ps.takeWhile (· = u.prev)).take (c.maxRun - 1)
      encode c (.run (BitVec.ofNat 6 more.length)) ++ scanFrom c fuel (u.update p) (ps.drop more.length)
    else encode c (u.classify p) ++ scanFrom c fuel (u.update p) ps

/-- R92: `encode(P)` as the source words it, without a run counter. -/
def scanEncode (c : Params) (ps : List Pixel) : List Byte := scanFrom c ps.length EncUnit.start ps

end Sys2Proof.Machine
end

