-- ==== Sys2Proof/Certificates/Slice0/Obligations.lean ====
section
/-! DEFINITION. The statements for the provers. Each docstring names the rules of spec/ it formalises. A statement about `step` reads
the environment's queue of events, which is the model's own (log entry 6); the values of tags, sentinels and magic are those of
00_scope.md rule R5, which the spec marks as its general knowledge (log entry 1), and stand here by their names. -/

open Sys2Proof Sys2Proof.Machine

/-! ## Encodings -/

/-- Words written out bit by bit from 30_encoding.md section 2 and 43_framing.md section 1 decode to their instructions (the
bytes are those of R5, general knowledge: log entry 1). -/
def Obligations.SpecWordsDecodeToTheirInstructions : Prop :=
  decodeChunk Config.params [0b11111110, 0b00001010, 0b00010100, 0b00011110] = .ok (.rgb 10 20 30) []
  ∧ decodeChunk Config.params [0b11111111, 0b00000001, 0b00000010, 0b00000011, 0b00000100] = .ok (.rgba 1 2 3 4) []
  ∧ decodeChunk Config.params [0b00001001] = .ok (.index 9) []
  ∧ decodeChunk Config.params [0b01110111] = .ok (.diff 3 1 3) []
  ∧ decodeChunk Config.params [0b10100000, 0b10111000] = .ok (.luma 32 11 8) []
  ∧ decodeChunk Config.params [0b11111101] = .ok (.run 61) []
  ∧ decodeMarker [0, 0, 0, 0, 0, 0, 0, 1] = .ok (.endMarker 1) []
  ∧ decodeHeader [0x71, 0x6F, 0x69, 0x66, 0, 0, 0, 2, 0, 0, 1, 0x2C, 4, 0] = .ok (.header 0x716F6966 2 300 4 0) []

/-- For every legal choice of the parameters, decoding the encoding of a well-formed instruction gives it back, with the bytes
that follow left over (30_encoding.md sections 1 to 3, 43_framing.md section 1). -/
def Obligations.DecodeOfEncodeIsTheInstruction : Prop :=
  ∀ c : Params, c.legal = true → ∀ i : Instr, i.wf c = true → ∀ rest : List Byte,
    decodeAt c i.place (encode c i ++ rest) = .ok i rest

/-- Under any parameters, an instruction that was decoded has the place it was read at, and its encoding is the bytes that were
read (30_encoding.md sections 1 to 3, 43_framing.md section 1). -/
def Obligations.EncodeOfDecodedIsTheBytesRead : Prop :=
  ∀ (c : Params) (place : Place) (bs : List Byte) (i : Instr) (rest : List Byte),
    decodeAt c place bs = .ok i rest → i.place = place ∧ encode c i ++ rest = bs

/-- The map of the first byte (30_encoding.md section 4, with the values of R5: log entry 1), by the byte's number: every one of
the 256 values selects one kind, with the fields at the places section 2 gives them. -/
def Obligations.FirstByteSelectsOneKind : Prop :=
  ∀ (b0 d1 d2 d3 d4 : Byte) (rest : List Byte),
    decodeChunk Config.params (b0 :: d1 :: d2 :: d3 :: d4 :: rest) =
      if b0.toNat < 0x40 then .ok (.index (BitVec.ofNat 6 b0.toNat)) (d1 :: d2 :: d3 :: d4 :: rest)
      else if b0.toNat < 0x80 then
        .ok (.diff (BitVec.ofNat 2 (b0.toNat / 16 % 4)) (BitVec.ofNat 2 (b0.toNat / 4 % 4))
          (BitVec.ofNat 2 (b0.toNat % 4))) (d1 :: d2 :: d3 :: d4 :: rest)
      else if b0.toNat < 0xC0 then
        .ok (.luma (BitVec.ofNat 6 (b0.toNat - 0x80)) (BitVec.ofNat 4 (d1.toNat / 16)) (BitVec.ofNat 4 (d1.toNat % 16)))
          (d2 :: d3 :: d4 :: rest)
      else if b0.toNat < 0xFE then .ok (.run (BitVec.ofNat 6 (b0.toNat - 0xC0))) (d1 :: d2 :: d3 :: d4 :: rest)
      else if b0.toNat = 0xFE then .ok (.rgb d1 d2 d3) (d4 :: rest)
      else .ok (.rgba d1 d2 d3 d4) rest

/-- R51: the length of a chunk is a function of its first byte only, and the decoder takes exactly that many bytes, or rejects
the chunk as truncated if they are not there. -/
def Obligations.ChunkLengthByFirstByteOnly : Prop :=
  ∀ c : Params, c.legal = true → ∀ (b0 : Byte) (rest : List Byte),
    (chunkLen c b0 = if b0 = c.opRgb then 4 else if b0 = c.opRgba then 5
      else if b0.toNat / 64 = c.tagLuma.toNat then 2 else 1)
    ∧ (rest.length + 1 < chunkLen c b0 → decodeChunk c (b0 :: rest) = .bad .truncated)
    ∧ (chunkLen c b0 ≤ rest.length + 1 →
        ∃ i, decodeChunk c (b0 :: rest) = .ok i (rest.drop (chunkLen c b0 - 1)) ∧ i.len = chunkLen c b0)

/-- With four different tags no first byte selects no kind, so no step raises `UnrecognizedTag` (30_encoding.md section 5,
60_exceptions.md section 1). -/
def Obligations.UnrecognizedTagIsNeverRaised : Prop :=
  (∀ c : Params, c.legal = true → ∀ bs : List Byte, decodeChunk c bs ≠ .bad .unrecognizedTag)
  ∧ ∀ s t : State, step s = .next t → s.dec.err.kind ≠ .unrecognizedTag → t.dec.err.kind ≠ .unrecognizedTag

/-- Where the sentinels can stand: with a cap of 62, legal parameters have each sentinel at the RUN payload 62 or 63 or at
the DIFF byte with three zero deltas (00_scope.md section 5, from the encoder's rules). -/
def Obligations.SentinelsHaveThreeFreePlaces : Prop :=
  ∀ c : Params, c.legal = true → c.maxRun = 62 → ∀ b : Byte, b = c.opRgb ∨ b = c.opRgba →
    b = c.tagRun ++ 62#6 ∨ b = c.tagRun ++ 63#6 ∨ b = c.tagDiff ++ 0b101010#6

/-- Everything the encoder emits is well formed under every legal choice of the parameters: the chunk of a pixel that differs
from `prev`, and the RUN of a pending run (00_scope.md section 5). -/
def Obligations.EncoderEmitsWellFormedChunks : Prop :=
  ∀ c : Params, c.legal = true → ∀ u : EncUnit,
    (∀ p : Pixel, p ≠ u.prev → (u.classify p).wf c = true)
    ∧ (u.run ≠ 0 → u.run.toNat ≤ c.maxRun → (Instr.run (u.run - 1)).wf c = true)

/-- `be32` is most significant byte first (00_scope.md section 6, 20_memory.md section 4), and `unbe32` undoes it. -/
def Obligations.BigEndianWords : Prop :=
  ∀ v : BitVec 32,
    (be32 v).map BitVec.toNat = [v.toNat / 2 ^ 24, v.toNat / 2 ^ 16 % 256, v.toNat / 2 ^ 8 % 256, v.toNat % 256]
    ∧ ∀ b0 b1 b2 b3 : Byte, be32 v = [b0, b1, b2, b3] ↔ unbe32 b0 b1 b2 b3 = v

/-! ## Hash, deltas, quantizers -/

/-- R70: the hash, its bound, and the values R70 lists. -/
def Obligations.HashIsTheWeightedSumModulo64 : Prop :=
  (∀ p : Pixel,
    (pixelHash p).toNat = (3 * p.r.toNat + 5 * p.g.toNat + 7 * p.b.toNat + 11 * p.a.toNat) % 64
    ∧ 3 * p.r.toNat + 5 * p.g.toNat + 7 * p.b.toNat + 11 * p.a.toNat ≤ 6630)
  ∧ pixelHash ⟨0, 0, 0, 0⟩ = 0 ∧ pixelHash ⟨0, 0, 0, 255⟩ = 53 ∧ pixelHash ⟨255, 255, 255, 255⟩ = 38
  ∧ pixelHash ⟨10, 20, 30, 255⟩ = 9 ∧ pixelHash ⟨10, 20, 30, 254⟩ = 62

/-- The hash may be computed in any width of at least 6 bits, 8-bit wrapping arithmetic included, and with green, blue and alpha
fixed every slot is reached from a red below 64 (40_helpers.md section 1). -/
def Obligations.HashAgreesInEveryWidth : Prop :=
  (∀ (p : Pixel) (k : Nat), 6 ≤ k →
    (pixelHash p).toNat = (3 * p.r.toNat + 5 * p.g.toNat + 7 * p.b.toNat + 11 * p.a.toNat) % 2 ^ k % 64)
  ∧ (∀ p : Pixel, pixelHash p = (3 * p.r + 5 * p.g + 7 * p.b + 11 * p.a).setWidth 6)
  ∧ ∀ (g b a : Byte) (slot : BitVec 6), ∃ r : Byte, r.toNat < 64 ∧ pixelHash ⟨r, g, b, a⟩ = slot

/-- R72: the delta of a channel is the wrap-around difference read as a signed byte: the one number in −128..127 that differs
from the exact difference by a multiple of 256. DIFF and LUMA need equal alpha. -/
def Obligations.DeltaIsTheSignedWrappedDifference : Prop :=
  (∀ p q : Byte, -128 ≤ delta p q ∧ delta p q ≤ 127 ∧ (delta p q - ((p.toNat : Int) - q.toNat)) % 256 = 0)
  ∧ delta 0 255 = 1 ∧ delta 255 0 = -1
  ∧ ∀ p q : Pixel, diffOk p q = true ∨ lumaOk p q = true → p.a = q.a

/-- R73: `diff_ok` by the signed range and by the equivalent 8-bit test, and the number of `diff_byte`. -/
def Obligations.DiffQuantizer : Prop :=
  ∀ p q : Pixel,
    (diffOk p q = true ↔ p.a = q.a ∧ (-2 ≤ delta p.r q.r ∧ delta p.r q.r ≤ 1)
      ∧ (-2 ≤ delta p.g q.g ∧ delta p.g q.g ≤ 1) ∧ (-2 ≤ delta p.b q.b ∧ delta p.b q.b ≤ 1))
    ∧ (diffOk p q = true ↔ p.a = q.a ∧ (p.r - q.r + 2).toNat < 4 ∧ (p.g - q.g + 2).toNat < 4
      ∧ (p.b - q.b + 2).toNat < 4)
    ∧ (diffOk p q = true → ∀ c : Params, ∃ b0 : Byte, encode c (diffChunk p q) = [b0]
      ∧ (b0.toNat : Int) = c.tagDiff.toNat * 64 + (delta p.r q.r + 2) * 16 + (delta p.g q.g + 2) * 4
          + (delta p.b q.b + 2))

/-- `luma_ok` by exact integers, and the numbers of `luma_bytes` (40_helpers.md section 4). That 8-bit wrap-around read as signed
accepts the same pixels is an inference the spec marks as its own there. -/
def Obligations.LumaQuantizer : Prop :=
  ∀ p q : Pixel,
    (lumaOk p q = true ↔ p.a = q.a ∧ (-32 ≤ delta p.g q.g ∧ delta p.g q.g ≤ 31)
      ∧ (-8 ≤ delta p.r q.r - delta p.g q.g ∧ delta p.r q.r - delta p.g q.g ≤ 7)
      ∧ (-8 ≤ delta p.b q.b - delta p.g q.g ∧ delta p.b q.b - delta p.g q.g ≤ 7))
    ∧ (lumaOk p q = true ↔ p.a = q.a ∧ (-32 ≤ delta p.g q.g ∧ delta p.g q.g ≤ 31)
      ∧ (-8 ≤ delta (p.r - q.r) (p.g - q.g) ∧ delta (p.r - q.r) (p.g - q.g) ≤ 7)
      ∧ (-8 ≤ delta (p.b - q.b) (p.g - q.g) ∧ delta (p.b - q.b) (p.g - q.g) ≤ 7))
    ∧ (lumaOk p q = true → ∀ c : Params, ∃ b0 b1 : Byte, encode c (lumaChunk p q) = [b0, b1]
      ∧ (b0.toNat : Int) = c.tagLuma.toNat * 64 + (delta p.g q.g + 32)
      ∧ (b1.toNat : Int) = (delta p.r q.r - delta p.g q.g + 8) * 16 + (delta p.b q.b - delta p.g q.g + 8))

/-- R75: reconstruction adds modulo 256; it undoes the delta of a channel, and so the DIFF and LUMA chunks of a pixel give the
pixel back; a LUMA red or blue delta is formed in −40..38. -/
def Obligations.ReconstructionUndoesTheDeltas : Prop :=
  (∀ (q : Byte) (d : Int), addDelta q d = wrapAdd q d)
  ∧ (∀ p q : Byte, wrapAdd q (delta p q) = p)
  ∧ (∀ (f : BitVec 4) (g : BitVec 6), -40 ≤ lumaOther f (lumaGreen g) ∧ lumaOther f (lumaGreen g) ≤ 38)
  ∧ (∀ (p : Pixel) (d : DecUnit), diffOk p d.prev = true →
      ∃ dr dg db, diffChunk p d.prev = .diff dr dg db ∧ pixelDiff d dr dg db = p)
  ∧ (∀ (p : Pixel) (d : DecUnit), lumaOk p d.prev = true →
      ∃ dg drdg dbdg, lumaChunk p d.prev = .luma dg drdg dbdg ∧ pixelLuma d dg drdg dbdg = p)

/-! ## The chunks, decode side -/

/-- R103 RGB: the meaning completes on every state with three raw channels and the previous alpha; a step on the chunk's bytes
does that; with fewer than 4 bytes left it raises `TruncatedChunk(pos)` and does nothing else. -/
def Obligations.RgbChunk : Prop :=
  (∀ (r g b : Byte) (s : State), ∃ t, exec (.rgb r g b) s = .next t ∧ ChunkDone s t ⟨r, g, b, s.dec.prev.a⟩ 1 4)
  ∧ (∀ (s : State) (rest : List Event) (r g b : Byte) (tl : List Byte),
      AtChunk s rest (Config.params.opRgb :: r :: g :: b :: tl) →
      ∃ t, step s = .next t ∧ ChunkDone (s.withEvents rest) t ⟨r, g, b, s.dec.prev.a⟩ 1 4)
  ∧ (∀ (s : State) (rest : List Event) (tl : List Byte),
      AtChunk s rest (Config.params.opRgb :: tl) → tl.length < 3 →
      step s = .next { s with events := rest,
                              dec := { s.dec with err := ⟨.truncatedChunk, s.dec.pos⟩, phase := .faulted } })

/-- R104 RGBA: four raw channels; nothing of `prev` or `cache` is read; truncated with fewer than 5 bytes left. Only it and INDEX
can change alpha. -/
def Obligations.RgbaChunk : Prop :=
  (∀ (r g b a : Byte) (s : State), ∃ t, exec (.rgba r g b a) s = .next t ∧ ChunkDone s t ⟨r, g, b, a⟩ 1 5)
  ∧ (∀ (s : State) (rest : List Event) (r g b a : Byte) (tl : List Byte),
      AtChunk s rest (Config.params.opRgba :: r :: g :: b :: a :: tl) →
      ∃ t, step s = .next t ∧ ChunkDone (s.withEvents rest) t ⟨r, g, b, a⟩ 1 5)
  ∧ (∀ (s : State) (rest : List Event) (tl : List Byte),
      AtChunk s rest (Config.params.opRgba :: tl) → tl.length < 4 →
      step s = .next { s with events := rest,
                              dec := { s.dec with err := ⟨.truncatedChunk, s.dec.pos⟩, phase := .faulted } })
  ∧ (∀ (i : Instr) (s t : State), i.place = .chunk → exec i s = .next t → t.dec.prev.a ≠ s.dec.prev.a →
      (∃ r g b a, i = .rgba r g b a) ∨ ∃ slot, i = .index slot)

/-- R105 INDEX: the pixel of the slot that the payload names, as the previous chunk left it. A slot that reads as the reset
value gives the pixel (0, 0, 0, 0), and the write goes to slot 0; a slot whose pixel hashes to it leaves every slot as it was. -/
def Obligations.IndexChunk : Prop :=
  (∀ (slot : BitVec 6) (s : State),
      ∃ t, exec (.index slot) s = .next t ∧ ChunkDone s t (s.dec.cache.read slot) 1 1)
  ∧ (∀ (s : State) (rest : List Event) (b0 : Byte) (tl : List Byte),
      AtChunk s rest (b0 :: tl) → b0.toNat / 64 = Config.params.tagIndex.toNat →
      ∃ t, step s = .next t
        ∧ ChunkDone (s.withEvents rest) t (s.dec.cache.read (BitVec.ofNat 6 (b0.toNat % 64))) 1 1)
  ∧ (∀ (slot : BitVec 6) (s : State), s.dec.cache.read slot = ⟨0, 0, 0, 0⟩ →
      ∃ t, exec (.index slot) s = .next t ∧ t.dec.prev = ⟨0, 0, 0, 0⟩ ∧ t.dec.cache.read 0 = ⟨0, 0, 0, 0⟩
        ∧ ∀ slot', slot' ≠ 0 → t.dec.cache.read slot' = s.dec.cache.read slot')
  ∧ (∀ (slot : BitVec 6) (s : State), pixelHash (s.dec.cache.read slot) = slot →
      ∃ t, exec (.index slot) s = .next t ∧ ∀ slot', t.dec.cache.read slot' = s.dec.cache.read slot')

/-- R106 DIFF: each 2-bit field less 2 is added, modulo 256, to its channel of the previous pixel; alpha is unchanged. -/
def Obligations.DiffChunk : Prop :=
  (∀ (dr dg db : BitVec 2) (s : State), ∃ t, exec (.diff dr dg db) s = .next t
      ∧ ChunkDone s t ⟨wrapAdd s.dec.prev.r (dr.toNat - 2), wrapAdd s.dec.prev.g (dg.toNat - 2),
          wrapAdd s.dec.prev.b (db.toNat - 2), s.dec.prev.a⟩ 1 1)
  ∧ (∀ (s : State) (rest : List Event) (b0 : Byte) (tl : List Byte),
      AtChunk s rest (b0 :: tl) → b0.toNat / 64 = Config.params.tagDiff.toNat →
      ∃ t, step s = .next t
        ∧ ChunkDone (s.withEvents rest) t
            ⟨wrapAdd s.dec.prev.r ((b0.toNat / 16 % 4 : Nat) - 2), wrapAdd s.dec.prev.g ((b0.toNat / 4 % 4 : Nat) - 2),
              wrapAdd s.dec.prev.b ((b0.toNat % 4 : Nat) - 2), s.dec.prev.a⟩ 1 1)

/-- R107 LUMA: `dg = field − 32`; the red and blue terms are a nibble of the second byte less 8, plus `dg`; all are added modulo
256 and alpha is unchanged. Truncated when the second byte is not there. -/
def Obligations.LumaChunk : Prop :=
  (∀ (dg : BitVec 6) (drdg dbdg : BitVec 4) (s : State), ∃ t, exec (.luma dg drdg dbdg) s = .next t
      ∧ ChunkDone s t
          ⟨wrapAdd s.dec.prev.r ((drdg.toNat - 8) + (dg.toNat - 32)), wrapAdd s.dec.prev.g (dg.toNat - 32),
            wrapAdd s.dec.prev.b ((dbdg.toNat - 8) + (dg.toNat - 32)), s.dec.prev.a⟩ 1 2)
  ∧ (∀ (s : State) (rest : List Event) (b0 b1 : Byte) (tl : List Byte),
      AtChunk s rest (b0 :: b1 :: tl) → b0.toNat / 64 = Config.params.tagLuma.toNat →
      ∃ t, step s = .next t
        ∧ ChunkDone (s.withEvents rest) t
            ⟨wrapAdd s.dec.prev.r (((b1.toNat / 16 : Nat) - 8) + ((b0.toNat % 64 : Nat) - 32)),
              wrapAdd s.dec.prev.g ((b0.toNat % 64 : Nat) - 32),
              wrapAdd s.dec.prev.b (((b1.toNat % 16 : Nat) - 8) + ((b0.toNat % 64 : Nat) - 32)), s.dec.prev.a⟩ 1 2)
  ∧ (∀ (s : State) (rest : List Event) (b0 : Byte),
      AtChunk s rest [b0] → b0.toNat / 64 = Config.params.tagLuma.toNat →
      step s = .next { s with events := rest,
                              dec := { s.dec with err := ⟨.truncatedChunk, s.dec.pos⟩, phase := .faulted } })

/-- R108 RUN: payload + 1 copies of the previous pixel, all in one step; `prev` is unchanged and the cache is written once. -/
def Obligations.RunChunk : Prop :=
  (∀ (n : BitVec 6) (s : State),
      ∃ t, exec (.run n) s = .next t ∧ ChunkDone s t s.dec.prev (n.toNat + 1) 1)
  ∧ (∀ (s : State) (rest : List Event) (b0 : Byte) (tl : List Byte),
      AtChunk s rest (b0 :: tl) → b0.toNat / 64 = Config.params.tagRun.toNat → b0.toNat % 64 < Config.params.maxRun →
      ∃ t, step s = .next t ∧ ChunkDone (s.withEvents rest) t s.dec.prev (b0.toNat % 64 + 1) 1)

/-- R109: every chunk of every kind completes, writes back the pixel it produced at that pixel's slot, and advances by its own
length; RUN outputs payload + 1 copies, every other kind one. -/
def Obligations.EveryChunkWritesBack : Prop :=
  ∀ (i : Instr) (s : State), i.place = .chunk →
    ∃ t px n, exec i s = .next t ∧ ChunkDone s t px n i.len
      ∧ ((∃ m, i = .run m ∧ n = m.toNat + 1) ∨ ((∀ m, i ≠ .run m) ∧ n = 1))

/-- A step runs the instruction that the decoder reads: a chunk at `pos` of `In`; a chunk whose last byte arrives (with the
buffer emptied); the header at offset 0 of `S`; the end marker at its last 8 bytes. Around `exec` a step takes the event from the
queue (the queue is the model's own: log entry 6). -/
def Obligations.StepRunsTheDecodedInstruction : Prop :=
  (∀ (s : State) (rest : List Event) (bytes : List Byte) (i : Instr) (tl : List Byte),
      AtChunk s rest bytes → decodeChunk Config.params bytes = .ok i tl → step s = exec i (s.withEvents rest))
  ∧ (∀ (s : State) (rest : List Event) (b b0 : Byte) (more : List Byte) (i : Instr) (tl : List Byte),
      s.events = .decByte b :: rest → s.dec.phase = .active → s.decIn = .serial → s.dec.buf ++ [b] = b0 :: more →
      more.length + 1 = chunkLen Config.params b0 → decodeChunk Config.params (b0 :: more) = .ok i tl →
      step s = exec i { s with events := rest, dec := { s.dec with buf := [] } })
  ∧ (∀ (s : State) (rest : List Event) (i : Instr) (tl : List Byte),
      s.events = .frrHeader :: rest → s.frr.phase = .header → decodeHeader s.frrIn = .ok i tl →
      step s = exec i (s.withEvents rest))
  ∧ (∀ (s : State) (rest : List Event) (i : Instr) (tl : List Byte),
      s.events = .frrMarker :: rest → s.frr.phase = .marker →
      decodeMarker (s.frrIn.drop (s.frrIn.length - 8)) = .ok i tl → step s = exec i (s.withEvents rest))

/-! ## Errors and phases -/

/-- R144: `TruncatedChunk` at a chunk whose length exceeds the bytes left, and at a byte-serial `End` with a non-empty buffer; the
step only sets the error register and the phase, and takes the event. A chunk of length 1 does not raise it. -/
def Obligations.TruncatedChunkHasNoOtherEffect : Prop :=
  (∀ (s : State) (rest : List Event) (b0 : Byte) (tl : List Byte),
      AtChunk s rest (b0 :: tl) → tl.length + 1 < chunkLen Config.params b0 →
      step s = .next { s with events := rest,
                              dec := { s.dec with err := ⟨.truncatedChunk, s.dec.pos⟩, phase := .faulted } })
  ∧ (∀ (s : State) (rest : List Event),
      s.events = .decEnd :: rest → s.dec.phase = .active → s.decIn = .serial → s.dec.buf ≠ [] →
      step s = .next { s with events := rest,
                              dec := { s.dec with err := ⟨.truncatedChunk, s.dec.pos⟩, phase := .faulted } })
  ∧ (∀ (s : State) (rest : List Event) (b0 : Byte) (tl : List Byte),
      AtChunk s rest (b0 :: tl) → chunkLen Config.params b0 = 1 →
      ∃ t, step s = .next t ∧ t.dec.err = s.dec.err ∧ t.dec.phase = .active)

/-- R149: in `Faulted` no event of the unit has a step except `Start`, which begins a new pass with the error gone. (That `FRR`'s
phase is then `header` is the model's choice: log entry 10.) -/
def Obligations.FaultedUnitHasOnlyStart : Prop :=
  (∀ (s : State) (e : Event) (rest : List Event), s.events = e :: rest → s.dec.phase = .faulted → e.agent = .dec →
      (∃ input t, e = .decStart input ∧ step s = .next t ∧ t.dec.phase = .active ∧ t.dec.err.kind = .none
        ∧ t.dec.pos = 0 ∧ t.dec.buf = [] ∧ t.dec.prev = ⟨0, 0, 0, 255⟩
        ∧ ∀ slot, t.dec.cache.read slot = ⟨0, 0, 0, 0⟩)
      ∨ ∃ r, step s = .refused r)
  ∧ (∀ (s : State) (input : DecInput) (rest : List Event), s.events = .decStart input :: rest →
      ∃ t, step s = .next t)
  ∧ (∀ (s : State) (e : Event) (rest : List Event), s.events = e :: rest → s.frr.phase = .faulted → e.agent = .frr →
      (∃ bytes t, e = .frrStart bytes ∧ step s = .next t ∧ t.frr.phase = .header ∧ t.frr.err.kind = .none
        ∧ t.frr.endMarkerOk = false ∧ t.frr.countOk = false)
      ∨ ∃ r, step s = .refused r)

/-- R161: before the first `Start` of a unit no event of it but `Start` has a step, whatever its other fields hold. -/
def Obligations.IdleUnitRefusesAllButStart : Prop :=
  (∀ (s : State) (e : Event) (rest : List Event), s.events = e :: rest → s.enc.phase = .idle → e.agent = .enc →
      e ≠ .encStart → ∃ r, step s = .refused r)
  ∧ (∀ (s : State) (e : Event) (rest : List Event), s.events = e :: rest → s.dec.phase = .idle → e.agent = .dec →
      (∀ input, e ≠ .decStart input) → ∃ r, step s = .refused r)
  ∧ (∀ (s : State) (rest : List Event), s.events = .encStart :: rest → ∃ t, step s = .next t ∧ t.enc.phase = .active)
  ∧ (∀ (s : State) (input : DecInput) (rest : List Event), s.events = .decStart input :: rest →
      ∃ t, step s = .next t ∧ t.dec.phase = .active)

/-- Which events have a step: the phases of R14 and R20, and the conditions 41_encoder.md section 1 and 42_decoder.md sections 1
and 4 set on them. That a pass has one form, so that `Chunk` steps only in a chunk-level pass and `Byte` only in a byte-serial one,
is the model's choice (log entry 8), and so are the phases of `FRR` (log entry 10). -/
def Obligations.EventsStepOnlyWhereEnabled : Prop :=
  ∀ (s t : State) (e : Event) (rest : List Event), s.events = e :: rest → step s = .next t →
    ((e = .encEnd ∨ ∃ p, e = .encPix p) → s.enc.phase = .active)
    ∧ (e = .decChunk → s.dec.phase = .active ∧ ∃ bytes, s.decIn = .whole bytes ∧ s.dec.pos < bytes.length)
    ∧ ((∃ b, e = .decByte b) → s.dec.phase = .active ∧ s.decIn = .serial)
    ∧ (e = .decEnd → s.dec.phase = .active ∧ ∀ bytes, s.decIn = .whole bytes → s.dec.pos = bytes.length)
    ∧ (e = .frrHeader → s.frr.phase = .header)
    ∧ (e = .frrMarker → s.frr.phase = .marker)
    ∧ (e = .frrDecode → s.frr.phase = .decode)

/-- R160: `Start` gives every field of its unit the reset value, emits nothing and resets no other unit. (What R23 leaves
unspecified is not stated.) That `FRR`'s `Start` brings the stream to read is the model's choice (log entry 10). -/
def Obligations.StartResetsItsUnit : Prop :=
  (∀ (s : State) (rest : List Event), s.events = .encStart :: rest → ∃ t, step s = .next t
      ∧ t.enc.prev = ⟨0, 0, 0, 255⟩ ∧ (∀ slot, t.enc.cache.read slot = ⟨0, 0, 0, 0⟩) ∧ t.enc.run = 0
      ∧ t.enc.phase = .active ∧ t.encOut = s.encOut ∧ t.dec = s.dec ∧ t.frr = s.frr)
  ∧ (∀ (s : State) (input : DecInput) (rest : List Event), s.events = .decStart input :: rest → ∃ t, step s = .next t
      ∧ t.dec.prev = ⟨0, 0, 0, 255⟩ ∧ (∀ slot, t.dec.cache.read slot = ⟨0, 0, 0, 0⟩) ∧ t.dec.pos = 0
      ∧ t.dec.buf = [] ∧ t.dec.err.kind = .none ∧ t.dec.phase = .active ∧ t.decIn = input ∧ t.decOut = s.decOut
      ∧ t.enc = s.enc ∧ t.frr = s.frr)
  ∧ (∀ (s : State) (bytes : List Byte) (rest : List Event), s.events = .frrStart bytes :: rest → 22 ≤ bytes.length →
      ∃ t, step s = .next t ∧ t.frr.err.kind = .none ∧ t.frr.endMarkerOk = false ∧ t.frr.countOk = false
        ∧ t.frrIn = bytes ∧ t.frrOut = s.frrOut ∧ t.enc = s.enc ∧ t.dec = s.dec)

/-- At reset no unit has taken its first `Start`, so each is `Idle` (10_state.md sections 2, 3 and 6). That the registers, which
are unspecified then, hold what section 6 gives them after `Start` is the model's choice (log entry 5). -/
def Obligations.ResetHoldsTheStartValues : Prop :=
  State.reset.enc.prev = ⟨0, 0, 0, 255⟩ ∧ State.reset.dec.prev = ⟨0, 0, 0, 255⟩
  ∧ (∀ slot, State.reset.enc.cache.read slot = ⟨0, 0, 0, 0⟩ ∧ State.reset.dec.cache.read slot = ⟨0, 0, 0, 0⟩)
  ∧ State.reset.enc.run = 0 ∧ State.reset.enc.phase = .idle
  ∧ State.reset.dec.pos = 0 ∧ State.reset.dec.buf = [] ∧ State.reset.dec.err.kind = .none
  ∧ State.reset.dec.phase = .idle ∧ State.reset.frr.phase = .idle
  ∧ State.reset.frr.err.kind = .none ∧ State.reset.frr.endMarkerOk = false ∧ State.reset.frr.countOk = false

/-- A unit in `Faulted` is changed by no event but its `Start`: the error register is sticky (10_state.md rule R19,
60_exceptions.md section 5). -/
def Obligations.ErrorsAreSticky : Prop :=
  ∀ (s t : State) (e : Event) (rest : List Event), s.events = e :: rest → step s = .next t →
    (s.dec.phase = .faulted → (∀ input, e ≠ .decStart input) → t.dec = s.dec)
    ∧ (s.frr.phase = .faulted → (∀ bytes, e ≠ .frrStart bytes) → t.frr = s.frr)

/-! ## Whole passes of the decoder -/

/-- The chunk-level events on a stream reach the result that `decode` gives for it, in at most as many `Chunk` steps as there are
bytes: the pixels and `Done` at the end of the stream, or the error and `Faulted` (42_decoder.md sections 1 and 4). -/
def Obligations.DecodePassReachesItsResult : Prop :=
  ∀ input : List Byte, ∃ n, n ≤ input.length ∧ ∀ (s : State) (rest : List Event),
    (∀ q, decodeStream Config.params input = .pixels q →
      s.events = .decStart (.whole input) :: (List.replicate n .decChunk ++ .decEnd :: rest) →
      ∃ t : State, core.run (n + 2) s = .next t ∧ t.dec.phase = .done ∧ t.dec.pos = input.length
        ∧ t.dec.err.kind = .none ∧ t.decOut = s.decOut ++ q ∧ t.events = rest)
    ∧ (∀ k off, decodeStream Config.params input = .error k off →
      s.events = .decStart (.whole input) :: (List.replicate n .decChunk ++ rest) →
      ∃ t : State, core.run (n + 1) s = .next t ∧ t.dec.phase = .faulted ∧ t.dec.err = ⟨k, off⟩
        ∧ t.dec.pos = off ∧ t.events = rest)

/-- R111: the byte-serial form. A byte joins the buffer, and nothing else happens until the chunk is whole, which is then
executed and the buffer emptied; `End` raises `TruncatedChunk(pos)` on a chunk that is not whole and closes the pass otherwise.
Fed the bytes one by one and then `End`, it ends with the same pixels, state and error as the chunk-level form on the same
stream. (The buffer is this form's own, R18; the chunk-level form's stays empty. That `Start` says which form a pass has is the
model's choice: log entry 8.) -/
def Obligations.ByteSerialFormAgrees : Prop :=
  (∀ (s : State) (rest : List Event) (b b0 : Byte) (more : List Byte),
      s.events = .decByte b :: rest → s.dec.phase = .active → s.decIn = .serial → s.dec.buf ++ [b] = b0 :: more →
      (more.length + 1 ≠ chunkLen Config.params b0 →
        step s = .next { s with events := rest, dec := { s.dec with buf := s.dec.buf ++ [b] } })
      ∧ (more.length + 1 = chunkLen Config.params b0 → ∃ i, decodeChunk Config.params (b0 :: more) = .ok i []
        ∧ step s = exec i { s with events := rest, dec := { s.dec with buf := [] } }))
  ∧ (∀ (s : State) (rest : List Event),
      s.events = .decEnd :: rest → s.dec.phase = .active → s.decIn = .serial →
      (s.dec.buf ≠ [] → step s = .next { s with
        events := rest, dec := { s.dec with err := ⟨.truncatedChunk, s.dec.pos⟩, phase := .faulted } })
      ∧ (s.dec.buf = [] → step s = .next { s with events := rest, dec := { s.dec with phase := .done } }))
  ∧ ∀ (input : List Byte) (s : State) (rest : List Event),
    s.events = .decStart .serial :: (input.map .decByte ++ .decEnd :: rest) →
    ∃ t : State, core.run (input.length + 2) s = .next t
      ∧ t.dec.prev = (decodePass Config.params input (s.withEvents rest)).dec.prev
      ∧ t.dec.cache = (decodePass Config.params input (s.withEvents rest)).dec.cache
      ∧ t.dec.pos = (decodePass Config.params input (s.withEvents rest)).dec.pos
      ∧ t.dec.err = (decodePass Config.params input (s.withEvents rest)).dec.err
      ∧ t.dec.phase = (decodePass Config.params input (s.withEvents rest)).dec.phase
      ∧ t.decOut = (decodePass Config.params input (s.withEvents rest)).decOut
      ∧ t.events = rest

/-- Under every legal choice of the parameters the only error of `decode` is `TruncatedChunk`, at an offset inside the stream
(60_exceptions.md sections 1 and 3). -/
def Obligations.DecodeFailsOnlyByTruncation : Prop :=
  ∀ c : Params, c.legal = true → ∀ (input : List Byte) (k : ErrKind) (off : Nat),
    decodeStream c input = .error k off → k = .truncatedChunk ∧ off < input.length

/-- An end marker left on the stream decodes as eight more pixels and raises nothing (70_reset_and_hazards.md section 3, an
inference the spec marks as its own; the marker's bytes are INDEX chunks under the tag values of R5, log entry 1). -/
def Obligations.EndMarkerLeftOnDecodesAsEightPixels : Prop :=
  ∀ (input : List Byte) (q : List Pixel), decodeStream Config.params input = .pixels q →
    ∃ extra : List Pixel, extra.length = 8
      ∧ decodeStream Config.params (input ++ [0, 0, 0, 0, 0, 0, 0, 1]) = .pixels (q ++ extra)

/-- The empty inputs: `encode([]) = []` and `decode([]) = []`, under any parameters (41_encoder.md and 42_decoder.md section 1). -/
def Obligations.EmptyInputsGiveEmptyOutputs : Prop :=
  ∀ c : Params, encodePixels c [] = [] ∧ decodeStream c [] = .pixels []

/-! ## The encoder -/

/-- R82, R90: `Pix(p)` in an active encoder: the run branch with its cap, the flush, the five classes in their priority tested on
`prev` and `cache` as they were before the step, the bytes of each, and the state update; nothing else changes. -/
def Obligations.PixelStepFollowsThePriority : Prop :=
  ∀ (s : State) (p : Pixel) (rest : List Event), s.events = .encPix p :: rest → s.enc.phase = .active →
    ∃ t, step s = .next t
      ∧ (p = s.enc.prev → s.enc.run.toNat + 1 = Config.params.maxRun →
          t.enc.run = 0 ∧ t.encOut = s.encOut ++ [Config.params.tagRun ++ s.enc.run])
      ∧ (p = s.enc.prev → s.enc.run.toNat + 1 ≠ Config.params.maxRun →
          t.enc.run = s.enc.run + 1 ∧ t.encOut = s.encOut)
      ∧ (p ≠ s.enc.prev → t.enc.run = 0 ∧ t.encOut = s.encOut
          ++ (if s.enc.run = 0 then [] else [Config.params.tagRun ++ (s.enc.run - 1)])
          ++ (if s.enc.cache.read (pixelHash p) = p then [Config.params.tagIndex ++ pixelHash p]
              else if diffOk p s.enc.prev = true then encode Config.params (diffChunk p s.enc.prev)
              else if lumaOk p s.enc.prev = true then encode Config.params (lumaChunk p s.enc.prev)
              else if p.a = s.enc.prev.a then [Config.params.opRgb, p.r, p.g, p.b]
              else [Config.params.opRgba, p.r, p.g, p.b, p.a]))
      ∧ t.enc.prev = p ∧ t.enc.cache.read (pixelHash p) = p
      ∧ (∀ slot, slot ≠ pixelHash p → t.enc.cache.read slot = s.enc.cache.read slot)
      ∧ t.enc.phase = .active ∧ t.dec = s.dec ∧ t.frr = s.frr ∧ t.decIn = s.decIn ∧ t.decOut = s.decOut
      ∧ t.frrIn = s.frrIn ∧ t.frrOut = s.frrOut ∧ t.frwOut = s.frwOut ∧ t.events = rest ∧ t.draws = s.draws

/-- R91: `End` in an active encoder writes out a pending run and goes idle; nothing else changes. -/
def Obligations.EndStepFlushesTheRun : Prop :=
  ∀ (s : State) (rest : List Event), s.events = .encEnd :: rest → s.enc.phase = .active →
    step s = .next { s with
      events := rest, enc := { s.enc with run := 0, phase := .idle },
      encOut := s.encOut ++ if s.enc.run = 0 then [] else [Config.params.tagRun ++ (s.enc.run - 1)] }

/-- `Start`, one `Pix` a pixel, and `End` append `encode(P)` to the output, and leave no run pending (41_encoder.md section 1,
70_reset_and_hazards.md section 4). -/
def Obligations.EncodePassEmitsEncode : Prop :=
  ∀ (ps : List Pixel) (s : State) (rest : List Event),
    s.events = .encStart :: (ps.map .encPix ++ .encEnd :: rest) →
    ∃ t : State, core.run (ps.length + 2) s = .next t ∧ t.encOut = s.encOut ++ encodePixels Config.params ps
      ∧ t.enc.run = 0 ∧ t.enc.phase = .idle ∧ t.events = rest ∧ t.dec = s.dec ∧ t.frr = s.frr

/-- The run counter and the source's greedy forward scan give the same bytes, under every legal choice of the parameters
(41_encoder.md section 5, an inference the spec marks as its own). -/
def Obligations.RunCounterEqualsForwardScan : Prop :=
  ∀ c : Params, c.legal = true → ∀ ps : List Pixel, encodePixels c ps = scanEncode c ps

/-- A run of `k` pixels is written as `k div MAX_RUN` full RUN chunks and one of `k mod MAX_RUN` if that is not zero
(41_encoder.md section 5). -/
def Obligations.LongRunsAreSplitAtTheCap : Prop :=
  ∀ c : Params, c.legal = true → ∀ (u : EncUnit) (k : Nat), u.run = 0 →
    (u.feed c (List.replicate k u.prev)).2 ++ ((u.feed c (List.replicate k u.prev)).1.stop c).2 =
      List.replicate (k / c.maxRun) (c.tagRun ++ BitVec.ofNat 6 (c.maxRun - 1))
        ++ if k % c.maxRun = 0 then [] else [c.tagRun ++ BitVec.ofNat 6 (k % c.maxRun - 1)]

/-- Output bounds: 6 bytes a `Pix`, 1 an `End`, at most five bytes and at least a 62nd of a byte a pixel, the least being met by
pixels that all equal the reset value of `prev` (41_encoder.md section 5). -/
def Obligations.EncodedSizeIsBounded : Prop :=
  (∀ (c : Params) (u : EncUnit) (p : Pixel), (u.pix c p).2.length ≤ 6 ∧ (u.stop c).2.length ≤ 1)
  ∧ (∀ ps : List Pixel, (encodePixels Config.params ps).length ≤ 5 * ps.length
      ∧ (ps.length + 61) / 62 ≤ (encodePixels Config.params ps).length)
  ∧ ∀ k : Nat, (encodePixels Config.params (List.replicate k ⟨0, 0, 0, 255⟩)).length = (k + 61) / 62

/-- What the classifier never picks: a DIFF with three zero deltas; an INDEX of another slot or of a slot that does not hold
the pixel, or of a slot that reads as the reset value, but slot 0 for (0, 0, 0, 0); LUMA where DIFF will do; a literal where
INDEX, DIFF or LUMA will do; RGBA where alpha is unchanged; RUN (30_encoding.md section 5, an inference the spec marks as its
own). -/
def Obligations.EncoderNeverPicksNonCanonicalChunks : Prop :=
  ∀ (u : EncUnit) (p : Pixel), p ≠ u.prev →
    u.classify p ≠ .diff 2 2 2
    ∧ (∀ slot, u.classify p = .index slot → slot = pixelHash p ∧ u.cache.read slot = p
        ∧ (u.cache.read slot = ⟨0, 0, 0, 0⟩ → slot = 0 ∧ p = ⟨0, 0, 0, 0⟩))
    ∧ ((∀ slot, u.classify p ≠ .index slot) → u.cache.read (pixelHash p) ≠ p)
    ∧ (∀ dg drdg dbdg, u.classify p = .luma dg drdg dbdg → diffOk p u.prev = false)
    ∧ (∀ r g b, u.classify p = .rgb r g b →
        diffOk p u.prev = false ∧ lumaOk p u.prev = false ∧ (⟨r, g, b, u.prev.a⟩ : Pixel) = p)
    ∧ (∀ r g b a, u.classify p = .rgba r g b a → a ≠ u.prev.a ∧ (⟨r, g, b, a⟩ : Pixel) = p)
    ∧ ∀ n, u.classify p ≠ .run n

/-! ## Encoder and decoder together -/

/-- R113, for every legal choice of the parameters (R6): decoding what was encoded gives the pixels back. The converse fails: some
stream decodes to pixels that are encoded as another stream. -/
def Obligations.DecodeOfEncodedPixelsIsThePixels : Prop :=
  (∀ c : Params, c.legal = true → ∀ ps : List Pixel, decodeStream c (encodePixels c ps) = .pixels ps)
  ∧ ∃ (input : List Byte) (q : List Pixel),
      decodeStream Config.params input = .pixels q ∧ encodePixels Config.params q ≠ input

/-- Lockstep: fed the bytes that the encoder has emitted so far, the decoder has the same `prev`, its output is the pixels
less the pending run, which all equal `prev`, and the caches are equal, but for slot 53 while a run at the very start of the
pass is pending (10_state.md section 7, an inference the spec marks as its own). -/
def Obligations.EncoderAndDecoderInLockstep : Prop :=
  ∀ c : Params, c.legal = true → ∀ ps : List Pixel,
    let u := (EncUnit.start.feed c ps).1
    let t := decodePass c (EncUnit.start.feed c ps).2 State.reset
    let n := u.run.toNat
    t.dec.phase = .done ∧ n ≤ ps.length ∧ t.decOut = ps.take (ps.length - n)
      ∧ ps.drop (ps.length - n) = List.replicate n u.prev ∧ t.dec.prev = u.prev
      ∧ (n = 0 → t.dec.cache = u.cache)
      ∧ ∀ slot, t.dec.cache.read slot ≠ u.cache.read slot → slot = 53 ∧ ps.length = n

/-- In either unit a slot holds the reset value or a pixel that hashes to it, and every step keeps that (10_state.md section 7,
an inference the spec marks as its own). -/
def Obligations.CacheSlotsHoldTheirHash : Prop :=
  ∀ s t : State, CacheHashed s.enc.cache → CacheHashed s.dec.cache → step s = .next t →
    CacheHashed t.enc.cache ∧ CacheHashed t.dec.cache

/-- Once a pixel or a chunk has been taken, `prev` stands in the cache at its own slot; before that slot 53, that of the reset
value of `prev`, is empty, and a run at the start of a pass fills it; a later run leaves the cache as it was (10_state.md
section 7, an inference the spec marks as its own). -/
def Obligations.PreviousPixelIsCached : Prop :=
  (∀ (c : Params) (u : EncUnit) (p : Pixel),
      (u.pix c p).1.prev = p ∧ (u.pix c p).1.cache.read (pixelHash p) = p)
  ∧ (∀ (i : Instr) (s t : State), i.place = .chunk → exec i s = .next t →
      t.dec.cache.read (pixelHash t.dec.prev) = t.dec.prev)
  ∧ pixelHash EncUnit.start.prev = 53 ∧ EncUnit.start.cache.read 53 = ⟨0, 0, 0, 0⟩
  ∧ (EncUnit.start.pix Config.params ⟨0, 0, 0, 255⟩).1.cache.read 53 = ⟨0, 0, 0, 255⟩
  ∧ (∀ (c : Params) (u : EncUnit), u.cache.wf = true → u.cache.read (pixelHash u.prev) = u.prev →
      (u.pix c u.prev).1.cache = u.cache)

/-- Every step keeps the invariant: caches in canonical form and hashed, the run below the cap, `prev` cached, the buffer a part of
one chunk, `pos` inside the stream, error registers and phases in agreement, latched header bytes legal. The cache's canonical
form and `FRR`'s phases are the model's choice (log entries 9 and 10); that `FRR.err` never holds a decoder's error is its reading
(log entry 12). -/
def Obligations.EveryStepKeepsTheInvariant : Prop :=
  ∀ s t : State, Inv s → step s = .next t → Inv t

/-- The machine right after reset meets the invariant. -/
def Obligations.ResetMeetsTheInvariant : Prop := Inv State.reset

/-- A step of one agent leaves the registers and the output of every other agent as they were, and what it does to its own
depends on its own registers and input alone (20_memory.md section 1, 60_exceptions.md section 7). That a framed read leaves `DEC`
as it was is the model's choice: it decodes on a decoder of its own (log entry 12). Which free value a `Start` of `DEC` draws
depends on `draws`, the model's own too (log entry 3). -/
def Obligations.UnitsShareNoState : Prop :=
  (∀ (s t : State) (e : Event) (rest : List Event), s.events = e :: rest → step s = .next t →
      (e.agent ≠ .enc → t.enc = s.enc ∧ t.encOut = s.encOut)
      ∧ (e.agent ≠ .dec → t.dec = s.dec ∧ t.decIn = s.decIn ∧ t.decOut = s.decOut)
      ∧ (e.agent ≠ .frr → t.frr = s.frr ∧ t.frrIn = s.frrIn ∧ t.frrOut = s.frrOut)
      ∧ (e.agent ≠ .frw → t.frwOut = s.frwOut))
  ∧ (∀ (s s' t : State) (e : Event) (rest rest' : List Event), s.events = e :: rest → s'.events = e :: rest' →
      step s = .next t →
      (e.agent = .enc → s.enc = s'.enc → ∃ t' out, step s' = .next t' ∧ t'.enc = t.enc
        ∧ t.encOut = s.encOut ++ out ∧ t'.encOut = s'.encOut ++ out)
      ∧ (e.agent = .dec → s.dec = s'.dec → s.decIn = s'.decIn → s.draws = s'.draws → ∃ t' out, step s' = .next t'
        ∧ t'.dec = t.dec ∧ t.decOut = s.decOut ++ out ∧ t'.decOut = s'.decOut ++ out))

/-- Output streams only grow, `ENC`'s by at most 6 bytes a step (20_memory.md sections 1 and 3). -/
def Obligations.OutputsOnlyGrow : Prop :=
  ∀ s t : State, step s = .next t →
    (∃ out : List Byte, t.encOut = s.encOut ++ out ∧ out.length ≤ 6) ∧ (∃ out : List Pixel, t.decOut = s.decOut ++ out)
    ∧ (∃ out : List ReadResult, t.frrOut = s.frrOut ++ out) ∧ ∃ out : List (List Byte), t.frwOut = s.frwOut ++ out

/-- `DEC.pos` goes to 0 at `Start`, forward by 1, 2, 4 or 5 at a chunk, and is moved by nothing else (10_state.md section 3,
42_decoder.md section 4). -/
def Obligations.PositionMovesByChunkLengths : Prop :=
  ∀ (s t : State) (e : Event) (rest : List Event), s.events = e :: rest → step s = .next t →
    (∃ input, e = .decStart input ∧ t.dec.pos = 0) ∨ t.dec.pos = s.dec.pos
    ∨ ((e = .decChunk ∨ ∃ b, e = .decByte b)
        ∧ (t.dec.pos = s.dec.pos + 1 ∨ t.dec.pos = s.dec.pos + 2 ∨ t.dec.pos = s.dec.pos + 4
          ∨ t.dec.pos = s.dec.pos + 5))

/-! ## Framing -/

/-- The header (43_framing.md section 3, 60_exceptions.md section 1). Its meaning completes when magic, channels and colorspace are legal, latching the four
fields; otherwise the first failing check in offset order raises its error, with the fields before it latched and nothing
else changed. A step runs it on the first 14 bytes of the stream, width and height big-endian; a stream shorter than 22 bytes is
refused. That the fields before the failing check are latched in the step that raises is the model's reading (log entry 11); the
phases but `faulted`, and the refusal's place, are its choice (log entries 10 and 14). -/
def Obligations.HeaderIsCheckedInOffsetOrder : Prop :=
  (∀ (m w h : BitVec 32) (ch cs : Byte) (s : State),
      (m = Config.params.magic → ch = 3 ∨ ch = 4 → cs = 0 ∨ cs = 1 → exec (.header m w h ch cs) s =
        .next { s with frr := { s.frr with width := w, height := h, channels := ch, colorspace := cs, phase := .marker } })
      ∧ (m ≠ Config.params.magic → exec (.header m w h ch cs) s =
        .next { s with frr := { s.frr with err := ⟨.invalidMagic, 0⟩, phase := .faulted } })
      ∧ (m = Config.params.magic → ch ≠ 3 → ch ≠ 4 → exec (.header m w h ch cs) s =
        .next { s with frr := { s.frr with width := w, height := h, err := ⟨.unsupportedChannelCount, 12⟩,
                                           phase := .faulted } })
      ∧ (m = Config.params.magic → ch = 3 ∨ ch = 4 → cs ≠ 0 → cs ≠ 1 → exec (.header m w h ch cs) s =
        .next { s with frr := { s.frr with width := w, height := h, channels := ch,
                                           err := ⟨.unsupportedColorspace, 13⟩, phase := .faulted } }))
  ∧ (∀ (s : State) (rest : List Event) (m0 m1 m2 m3 w0 w1 w2 w3 h0 h1 h2 h3 ch cs : Byte) (tl : List Byte),
      s.events = .frrHeader :: rest → s.frr.phase = .header →
      s.frrIn = m0 :: m1 :: m2 :: m3 :: w0 :: w1 :: w2 :: w3 :: h0 :: h1 :: h2 :: h3 :: ch :: cs :: tl →
      ∃ m w h : BitVec 32, step s = exec (.header m w h ch cs) (s.withEvents rest)
        ∧ m.toNat = m0.toNat * 2 ^ 24 + m1.toNat * 2 ^ 16 + m2.toNat * 2 ^ 8 + m3.toNat
        ∧ w.toNat = w0.toNat * 2 ^ 24 + w1.toNat * 2 ^ 16 + w2.toNat * 2 ^ 8 + w3.toNat
        ∧ h.toNat = h0.toNat * 2 ^ 24 + h1.toNat * 2 ^ 16 + h2.toNat * 2 ^ 8 + h3.toNat)
  ∧ (∀ (s : State) (rest : List Event) (bytes : List Byte), s.events = .frrStart bytes :: rest →
      (bytes.length < 22 → step s = .refused .shortStream)
      ∧ (22 ≤ bytes.length → ∃ t, step s = .next t ∧ t.frrIn = bytes ∧ t.frr.phase = .header))

/-- R124: the end marker. Its meaning completes on every state and sets the flag to whether the bytes are `END_MARKER`, changing
nothing else but where the read stands; a step runs it on the last 8 bytes; the chunk stream is what lies between the first 14
and the last 8 bytes, whatever they are. The phases that say where the read stands are the model's choice (log entry 10). -/
def Obligations.EndMarkerSetsItsFlag : Prop :=
  (∀ (k : BitVec 64) (s : State), exec (.endMarker k) s =
      .next { s with frr := { s.frr with endMarkerOk := decide (k.toNat = 1), phase := .decode } })
  ∧ (∀ (s : State) (rest : List Event) (hd : List Byte) (b0 b1 b2 b3 b4 b5 b6 b7 : Byte),
      s.events = .frrMarker :: rest → s.frr.phase = .marker → s.frrIn = hd ++ [b0, b1, b2, b3, b4, b5, b6, b7] →
      step s = .next { s with
        events := rest,
        frr := { s.frr with endMarkerOk := decide ([b0, b1, b2, b3, b4, b5, b6, b7] = [0, 0, 0, 0, 0, 0, 0, 1]),
                            phase := .decode } })
  ∧ ∀ hd mid tl : List Byte, hd.length = 14 → tl.length = 8 → chunkBytes (hd ++ mid ++ tl) = mid

/-- The end of a read (43_framing.md section 3). The chunk stream is decoded; on pixels the count flag is whether their number is `width × height`,
an exact product, and the result is width, height and pixels; on an error the read fails with the decoder's error and offset.
That `DEC` is untouched and `FRR.err` stays as it was, on an error too, is the model's reading (log entry 12); the phases `done`
and `failed` are its choice (log entry 10). -/
def Obligations.ReadEndsWithPixelsOrTheDecodersError : Prop :=
  ∀ (s : State) (rest : List Event), s.events = .frrDecode :: rest → s.frr.phase = .decode →
    (∀ q, decodeStream Config.params (chunkBytes s.frrIn) = .pixels q →
      step s = .next { s with
        events := rest,
        frr := { s.frr with countOk := decide (q.length = s.frr.width.toNat * s.frr.height.toNat), phase := .done },
        frrOut := s.frrOut ++ [.image s.frr.width s.frr.height q] })
    ∧ (∀ k off, decodeStream Config.params (chunkBytes s.frrIn) = .error k off →
      step s = .next { s with
        events := rest, frr := { s.frr with phase := .failed }, frrOut := s.frrOut ++ [.error k off] })

/-- The writer (43_framing.md section 2). With legal channels and colorspace and `width × height` pixels it writes magic, width, height,
channels, colorspace, `encode(P)` and the end marker, `22 + N` bytes, and changes nothing else; otherwise it has no step.
That a whole image is written in one step, on an encoder of the writer's own so that `ENC` stays as it was, is the model's choice
(log entry 13). -/
def Obligations.WriterComposesThePersistedStream : Prop :=
  ∀ (s : State) (rest : List Event) (w h : BitVec 32) (ch cs : Byte) (ps : List Pixel),
    s.events = .frwWrite w h ch cs ps :: rest →
    ((ch = 3 ∨ ch = 4) → (cs = 0 ∨ cs = 1) → ps.length = w.toNat * h.toNat → ∃ file : List Byte,
        step s = .next { s with events := rest, frwOut := s.frwOut ++ [file] }
        ∧ file = be32 Config.params.magic ++ be32 w ++ be32 h ++ [ch, cs] ++ encodePixels Config.params ps
            ++ [0, 0, 0, 0, 0, 0, 0, 1]
        ∧ file.length = 22 + (encodePixels Config.params ps).length)
    ∧ (¬ ((ch = 3 ∨ ch = 4) ∧ (cs = 0 ∨ cs = 1) ∧ ps.length = w.toNat * h.toNat) → ∃ r, step s = .refused r)

/-- What the writer writes, the reader reads back: width, height, channels, colorspace and the pixels, with no error and both flags
set (43_framing.md sections 1 to 3, 42_decoder.md section 5). The four events are the model's order of a read (log entry 10). -/
def Obligations.FramedRoundTrip : Prop :=
  ∀ (s : State) (rest : List Event) (w h : BitVec 32) (ch cs : Byte) (ps : List Pixel),
    (ch = 3 ∨ ch = 4) → (cs = 0 ∨ cs = 1) → ps.length = w.toNat * h.toNat →
    s.events = .frrStart (persisted Config.params w h ch cs ps) :: .frrHeader :: .frrMarker :: .frrDecode :: rest →
    ∃ t : State, core.run 4 s = .next t ∧ t.frrOut = s.frrOut ++ [.image w h ps] ∧ t.frr.err.kind = .none
      ∧ t.frr.endMarkerOk = true ∧ t.frr.countOk = true ∧ t.frr.width = w ∧ t.frr.height = h
      ∧ t.frr.channels = ch ∧ t.frr.colorspace = cs ∧ t.events = rest

/-- The latched channel and colorspace bytes have no effect on anything: two machines that differ only in them take the same steps
and differ only in them after (43_framing.md rule R126). -/
def Obligations.HeaderBytesHaveNoEffect : Prop :=
  ∀ s s' t : State, s.withoutHeaderBytes = s'.withoutHeaderBytes → step s = .next t →
    ∃ t', step s' = .next t' ∧ t.withoutHeaderBytes = t'.withoutHeaderBytes

/-- From the reset state, and from every state in which each unit is `Idle`, only a `Start` and a write have a step (10_state.md
section 6, 70_reset_and_hazards.md section 1). That `FRR`'s `Start` and the write are events is the model's choice (log entries 10
and 13). -/
def Obligations.NothingRunsBeforeAStart : Prop :=
  (State.reset.enc.phase = .idle ∧ State.reset.dec.phase = .idle ∧ State.reset.frr.phase = .idle)
  ∧ ∀ (s t : State) (e : Event) (rest : List Event), s.enc.phase = .idle → s.dec.phase = .idle → s.frr.phase = .idle →
      s.events = e :: rest → step s = .next t →
      e = .encStart ∨ (∃ input, e = .decStart input) ∨ (∃ bytes, e = .frrStart bytes) ∨ e.agent = .frw
end

