-- ==== Sys2Proof/Laws/Cache.lean ====
section
/-! SUPPORT. The laws of the seen-cache: a read after a write, the canonical form and what keeps it, and that caches in
canonical form are equal when every slot reads equal. -/

namespace Sys2Proof.Machine

/-! ## Read after write (20_memory.md rules R31 and R34) -/

@[simp] theorem Cache.read_nil (slot : BitVec 6) : Cache.read [] slot = Config.cacheReset := rfl

theorem Cache.read_clearSlot (m : Cache) (slot slot' : BitVec 6) :
    (m.clearSlot slot).read slot' = if slot' = slot then Config.cacheReset else m.read slot' := by
  induction m with
  | nil => simp [clearSlot]
  | cons e m ih =>
    obtain ⟨k, q⟩ := e
    simp only [clearSlot] at ih ⊢
    by_cases hk : k = slot.toNat
    · subst hk
      by_cases hs : slot' = slot
      · subst hs; simpa using ih
      · have : ¬ slot.toNat = slot'.toNat := fun h => hs (BitVec.eq_of_toNat_eq h.symm)
        simpa [read, hs, this] using ih
    · simp only [ne_eq, hk, not_false_eq_true, decide_true, List.filter_cons_of_pos, read]
      by_cases h' : k = slot'.toNat
      · have : slot' ≠ slot := by rintro rfl; exact hk h'
        simp [h', this]
      · simpa [h'] using ih

theorem Cache.read_insertSlot (m : Cache) (slot slot' : BitVec 6) (p : Pixel) :
    Cache.read (insertSlot slot p m) slot' = if slot' = slot then p else m.read slot' := by
  have hne : slot.toNat = slot'.toNat ↔ slot' = slot :=
    ⟨fun h => BitVec.eq_of_toNat_eq h.symm, fun h => h ▸ rfl⟩
  induction m with
  | nil => simp [insertSlot, read, hne]
  | cons e m ih =>
    obtain ⟨k, q⟩ := e
    by_cases hk : k < slot.toNat
    · simp only [insertSlot, hk, if_true, read, ih]
      by_cases h' : k = slot'.toNat
      · have : slot' ≠ slot := by rintro rfl; omega
        simp [h', this]
      · simp [h']
    · simp [insertSlot, hk, read, hne]

/-- R34: after a write the slot holds what was written, and every other slot what it held. -/
theorem Cache.read_write (m : Cache) (slot slot' : BitVec 6) (p : Pixel) :
    (m.write slot p).read slot' = if slot' = slot then p else m.read slot' := by
  unfold write
  by_cases hp : p = Config.cacheReset
  · simp [hp, read_clearSlot]
  · by_cases hs : slot' = slot <;> simp [hp, hs, read_insertSlot, read_clearSlot]

@[simp] theorem Cache.read_write_same (m : Cache) (slot : BitVec 6) (p : Pixel) :
    (m.write slot p).read slot = p := by simp [read_write]

theorem Cache.read_write_other (m : Cache) (slot slot' : BitVec 6) (p : Pixel) (h : slot' ≠ slot) :
    (m.write slot p).read slot' = m.read slot' := by simp [read_write, h]

/-! ## Two writes to one slot -/

/-- No entry of the list is at the slot: what `clearSlot` leaves. -/
theorem Cache.clearSlot_absent (m : Cache) (slot : BitVec 6) : ∀ e ∈ m.clearSlot slot, e.1 ≠ slot.toNat := by
  intro e he
  simpa [clearSlot] using (List.mem_filter.mp he).2

theorem Cache.clearSlot_of_absent (m : Cache) (slot : BitVec 6) (h : ∀ e ∈ m, e.1 ≠ slot.toNat) :
    m.clearSlot slot = m :=
  List.filter_eq_self.mpr (by simpa using h)

theorem Cache.clearSlot_insertSlot (m : Cache) (slot : BitVec 6) (p : Pixel) (h : ∀ e ∈ m, e.1 ≠ slot.toNat) :
    (insertSlot slot p m).clearSlot slot = m := by
  induction m with
  | nil => simp [insertSlot, clearSlot]
  | cons e m ih =>
    have hk : e.1 ≠ slot.toNat := h _ List.mem_cons_self
    have hm : ∀ e ∈ m, e.1 ≠ slot.toNat := fun e he => h e (List.mem_cons_of_mem _ he)
    have h1 := ih hm
    have h2 := clearSlot_of_absent m slot hm
    unfold insertSlot
    simp only [clearSlot] at h1 h2 ⊢
    split
    · simpa [hk] using h1
    · rw [List.filter_cons_of_neg (by simp), List.filter_cons_of_pos (by simpa using hk), h2]

theorem Cache.clearSlot_write (m : Cache) (slot : BitVec 6) (p : Pixel) :
    (m.write slot p).clearSlot slot = m.clearSlot slot := by
  unfold write
  split
  · exact clearSlot_of_absent _ _ (clearSlot_absent m slot)
  · exact clearSlot_insertSlot _ _ _ (clearSlot_absent m slot)

/-- R34: the last write wins. -/
@[simp] theorem Cache.write_write (m : Cache) (slot : BitVec 6) (p q : Pixel) :
    (m.write slot q).write slot p = m.write slot p := by
  rw [write, clearSlot_write, ← write]

/-! ## The canonical form -/

theorem Cache.wfFrom_mono (m : Cache) (lo lo' : Nat) (h : lo' ≤ lo) (hm : wfFrom lo m = true) :
    wfFrom lo' m = true := by
  cases m with
  | nil => rfl
  | cons e m =>
    simp only [wfFrom, Bool.and_eq_true, decide_eq_true_eq] at hm ⊢
    exact ⟨⟨⟨by omega, hm.1.1.2⟩, hm.1.2⟩, hm.2⟩

theorem Cache.wfFrom_clearSlot (m : Cache) (slot : BitVec 6) (lo : Nat) (hm : wfFrom lo m = true) :
    wfFrom lo (m.clearSlot slot) = true := by
  induction m generalizing lo with
  | nil => rfl
  | cons e m ih =>
    have h := hm
    simp only [wfFrom, Bool.and_eq_true, decide_eq_true_eq] at h
    by_cases hk : e.1 = slot.toNat
    · rw [show Cache.clearSlot (e :: m) slot = Cache.clearSlot m slot by simp [clearSlot, hk]]
      exact ih lo (wfFrom_mono m _ _ (by omega) h.2)
    · rw [show Cache.clearSlot (e :: m) slot = e :: Cache.clearSlot m slot by simp [clearSlot, hk]]
      simp only [wfFrom, Bool.and_eq_true, decide_eq_true_eq]
      exact ⟨h.1, ih _ h.2⟩

theorem Cache.wfFrom_insertSlot (m : Cache) (slot : BitVec 6) (p : Pixel) (lo : Nat) (hp : p ≠ Config.cacheReset)
    (hlo : lo ≤ slot.toNat) (hm : wfFrom lo m = true) (habs : ∀ e ∈ m, e.1 ≠ slot.toNat) :
    wfFrom lo (insertSlot slot p m) = true := by
  have hslot : slot.toNat < Config.cacheSlots := slot.isLt
  induction m generalizing lo with
  | nil => simp [insertSlot, wfFrom, hlo, hslot, hp]
  | cons e m ih =>
    have h := hm
    simp only [wfFrom, Bool.and_eq_true, decide_eq_true_eq] at h
    by_cases hk : e.1 < slot.toNat
    · simp only [insertSlot, hk, if_true, wfFrom, Bool.and_eq_true, decide_eq_true_eq]
      exact ⟨h.1, ih _ hk h.2 fun e' he' => habs e' (List.mem_cons_of_mem _ he')⟩
    · have hne := habs e List.mem_cons_self
      simp only [insertSlot, hk, if_false, wfFrom, Bool.and_eq_true, decide_eq_true_eq]
      exact ⟨⟨⟨hlo, hslot⟩, hp⟩, ⟨⟨by omega, h.1.1.2⟩, h.1.2⟩, h.2⟩

/-- A write keeps the canonical form. -/
theorem Cache.write_wf (m : Cache) (slot : BitVec 6) (p : Pixel) (hm : m.wf = true) : (m.write slot p).wf = true := by
  unfold write wf at *
  split
  · exact wfFrom_clearSlot m slot 0 hm
  · exact wfFrom_insertSlot _ slot p 0 ‹_› (Nat.zero_le _) (wfFrom_clearSlot m slot 0 hm) (clearSlot_absent m slot)

@[simp] theorem Cache.nil_wf : Cache.wf [] = true := rfl

/-! ## Canonical caches are equal when every slot reads equal -/

theorem Cache.read_of_wfFrom_gt (m : Cache) (slot : BitVec 6) (lo : Nat) (hm : wfFrom lo m = true)
    (h : slot.toNat < lo) : m.read slot = Config.cacheReset := by
  induction m generalizing lo with
  | nil => rfl
  | cons e m ih =>
    simp only [wfFrom, Bool.and_eq_true, decide_eq_true_eq] at hm
    have : e.1 ≠ slot.toNat := by omega
    obtain ⟨k, q⟩ := e
    simp only [read, this, if_false]
    exact ih _ hm.2 (by simp at hm; omega)

theorem Cache.ext_of_wfFrom (m m' : Cache) (lo lo' : Nat) (hm : wfFrom lo m = true) (hm' : wfFrom lo' m' = true)
    (h : ∀ slot, m.read slot = m'.read slot) : m = m' := by
  induction m generalizing lo lo' m' with
  | nil =>
    cases m' with
    | nil => rfl
    | cons e m' =>
      simp only [wfFrom, Bool.and_eq_true, decide_eq_true_eq] at hm'
      have hk : e.1 < 2 ^ 6 := hm'.1.1.2
      have := h (BitVec.ofNat 6 e.1)
      obtain ⟨k, q⟩ := e
      rw [read_nil, read, BitVec.toNat_ofNat, Nat.mod_eq_of_lt hk, if_pos rfl] at this
      exact absurd this.symm hm'.1.2
  | cons e m ih =>
    obtain ⟨k, q⟩ := e
    have hm₀ := hm
    simp only [wfFrom, Bool.and_eq_true, decide_eq_true_eq] at hm
    have hk : k < 2 ^ 6 := hm.1.1.2
    cases m' with
    | nil =>
      have := h (BitVec.ofNat 6 k)
      rw [read_nil, read, BitVec.toNat_ofNat, Nat.mod_eq_of_lt hk, if_pos rfl] at this
      exact absurd this hm.1.2
    | cons e' m' =>
      obtain ⟨k', q'⟩ := e'
      have hm'₀ := hm'
      simp only [wfFrom, Bool.and_eq_true, decide_eq_true_eq] at hm'
      have hk' : k' < 2 ^ 6 := hm'.1.1.2
      have h1 := h (BitVec.ofNat 6 k)
      have h2 := h (BitVec.ofNat 6 k')
      simp only [read, BitVec.toNat_ofNat, Nat.mod_eq_of_lt hk, Nat.mod_eq_of_lt hk', if_true] at h1 h2
      have hkk : k = k' := by
        rcases Nat.lt_trichotomy k k' with hlt | heq | hgt
        · rw [if_neg (by omega), read_of_wfFrom_gt m' _ (k' + 1) hm'.2
            (by rw [BitVec.toNat_ofNat, Nat.mod_eq_of_lt hk]; omega)] at h1
          exact absurd h1 hm.1.2
        · exact heq
        · rw [if_neg (by omega), read_of_wfFrom_gt m _ (k + 1) hm.2
            (by rw [BitVec.toNat_ofNat, Nat.mod_eq_of_lt hk']; omega)] at h2
          exact absurd h2.symm hm'.1.2
      subst hkk
      rw [if_pos rfl] at h1
      subst h1
      have : m = m' := ih m' _ _ hm.2 hm'.2 fun slot => by
        have := h slot
        simp only [read] at this
        by_cases hs : k = slot.toNat
        · rw [read_of_wfFrom_gt m _ _ hm.2 (by omega), read_of_wfFrom_gt m' _ _ hm'.2 (by omega)]
        · simpa [hs] using this
      rw [this]

/-- Equal contents are equal data. -/
theorem Cache.ext_of_wf (m m' : Cache) (hm : m.wf = true) (hm' : m'.wf = true)
    (h : ∀ slot, m.read slot = m'.read slot) : m = m' :=
  ext_of_wfFrom m m' 0 0 hm hm' h

/-- R34: writing what the slot already holds changes nothing. -/
theorem Cache.write_of_read (m : Cache) (slot : BitVec 6) (p : Pixel) (hm : m.wf = true) (h : m.read slot = p) :
    m.write slot p = m :=
  ext_of_wf _ _ (write_wf m slot p hm) hm fun slot' => by
    rw [read_write]
    split
    · simp_all
    · rfl

/-- R24: a write of a pixel at its own slot keeps what every slot holds in agreement with the hash. -/
theorem CacheHashed.write (m : Cache) (p : Pixel) (h : CacheHashed m) : CacheHashed (m.write (pixelHash p) p) := by
  intro slot
  rw [Cache.read_write]
  split
  · subst_vars
    exact .inr rfl
  · exact h slot

theorem CacheHashed.nil : CacheHashed [] := fun _ => .inl rfl

end Sys2Proof.Machine
end

