-- ==== Sys2Proof/Laws/Decode.lean ====
section
/-! SUPPORT. The fields of a byte put together from fields, and what the decoder answers for each kind of first byte. -/

namespace Sys2Proof

/-! ## Fields of an assembled byte -/

@[simp] theorem tagOf_append (t : BitVec 2) (x : BitVec 6) : tagOf (t ++ x) = t := by
  unfold tagOf
  apply BitVec.eq_of_toNat_eq
  have := t.isLt
  have := x.isLt
  simp only [BitVec.extractLsb'_toNat, BitVec.toNat_append, Nat.shiftLeft_eq, Nat.shiftRight_eq_div_pow,
    ← Nat.two_pow_add_eq_or_of_lt x.isLt t.toNat, Nat.mul_comm t.toNat]
  omega

@[simp] theorem payloadOf_append (t : BitVec 2) (x : BitVec 6) : payloadOf (t ++ x) = x := by
  unfold payloadOf
  apply BitVec.eq_of_toNat_eq
  have := t.isLt
  have := x.isLt
  simp only [BitVec.extractLsb'_toNat, BitVec.toNat_append, Nat.shiftLeft_eq, Nat.shiftRight_eq_div_pow,
    ← Nat.two_pow_add_eq_or_of_lt x.isLt t.toNat, Nat.mul_comm t.toNat]
  omega

theorem append_tagOf_payloadOf (b : Byte) : tagOf b ++ payloadOf b = b := by
  apply BitVec.eq_of_toNat_eq
  have := b.isLt
  unfold tagOf payloadOf
  rw [BitVec.toNat_append, Nat.shiftLeft_eq, Nat.mul_comm, ← Nat.two_pow_add_eq_or_of_lt (BitVec.isLt _)]
  simp only [BitVec.extractLsb'_toNat, Nat.shiftRight_eq_div_pow]
  omega

/-- The number of a byte put together from a tag and a payload. -/
theorem toNat_tag_payload (t : BitVec 2) (x : BitVec 6) : (t ++ x : BitVec 8).toNat = t.toNat * 64 + x.toNat := by
  rw [BitVec.toNat_append, Nat.shiftLeft_eq, Nat.mul_comm, ← Nat.two_pow_add_eq_or_of_lt x.isLt]

/-- The number of a DIFF byte. -/
theorem toNat_diff (t r g b : BitVec 2) :
    (t ++ r ++ g ++ b : BitVec 8).toNat = t.toNat * 64 + r.toNat * 16 + g.toNat * 4 + b.toNat := by
  simp only [BitVec.toNat_append, Nat.shiftLeft_eq, Nat.mul_comm _ (2 ^ 2), ← Nat.two_pow_add_eq_or_of_lt r.isLt,
    ← Nat.two_pow_add_eq_or_of_lt g.isLt, ← Nat.two_pow_add_eq_or_of_lt b.isLt]
  omega

/-- The number of a byte put together from two nibbles. -/
theorem toNat_nibbles (h l : BitVec 4) : (h ++ l : BitVec 8).toNat = h.toNat * 16 + l.toNat := by
  rw [BitVec.toNat_append, Nat.shiftLeft_eq, Nat.mul_comm, ← Nat.two_pow_add_eq_or_of_lt l.isLt]

theorem toNat_tagOf (b : Byte) : (tagOf b).toNat = b.toNat / 64 := by
  have := b.isLt
  simp only [tagOf, BitVec.extractLsb'_toNat, Nat.shiftRight_eq_div_pow]
  omega

theorem toNat_payloadOf (b : Byte) : (payloadOf b).toNat = b.toNat % 64 := by
  simp [payloadOf, BitVec.extractLsb'_toNat]

theorem toNat_diffRed (b : Byte) : (diffRed b).toNat = b.toNat / 16 % 4 := by
  simp [diffRed, BitVec.extractLsb'_toNat, Nat.shiftRight_eq_div_pow]

theorem toNat_diffGreen (b : Byte) : (diffGreen b).toNat = b.toNat / 4 % 4 := by
  simp [diffGreen, BitVec.extractLsb'_toNat, Nat.shiftRight_eq_div_pow]

theorem toNat_diffBlue (b : Byte) : (diffBlue b).toNat = b.toNat % 4 := by
  simp [diffBlue, BitVec.extractLsb'_toNat]

theorem toNat_highNibble (b : Byte) : (highNibble b).toNat = b.toNat / 16 := by
  have := b.isLt
  simp only [highNibble, BitVec.extractLsb'_toNat, Nat.shiftRight_eq_div_pow]
  omega

theorem toNat_lowNibble (b : Byte) : (lowNibble b).toNat = b.toNat % 16 := by
  simp [lowNibble, BitVec.extractLsb'_toNat]

@[simp] theorem tagOf_diff (t r g b : BitVec 2) : tagOf (t ++ r ++ g ++ b) = t := by
  apply BitVec.eq_of_toNat_eq
  have := r.isLt; have := g.isLt; have := b.isLt
  rw [toNat_tagOf, toNat_diff]
  omega

@[simp] theorem diffRed_diff (t r g b : BitVec 2) : diffRed (t ++ r ++ g ++ b) = r := by
  apply BitVec.eq_of_toNat_eq
  have := r.isLt; have := g.isLt; have := b.isLt
  rw [toNat_diffRed, toNat_diff]
  omega

@[simp] theorem diffGreen_diff (t r g b : BitVec 2) : diffGreen (t ++ r ++ g ++ b) = g := by
  apply BitVec.eq_of_toNat_eq
  have := r.isLt; have := g.isLt; have := b.isLt
  rw [toNat_diffGreen, toNat_diff]
  omega

@[simp] theorem diffBlue_diff (t r g b : BitVec 2) : diffBlue (t ++ r ++ g ++ b) = b := by
  apply BitVec.eq_of_toNat_eq
  have := r.isLt; have := g.isLt; have := b.isLt
  rw [toNat_diffBlue, toNat_diff]
  omega

@[simp] theorem highNibble_append (h l : BitVec 4) : highNibble (h ++ l) = h := by
  apply BitVec.eq_of_toNat_eq
  have := h.isLt; have := l.isLt
  rw [toNat_highNibble, toNat_nibbles]
  omega

@[simp] theorem lowNibble_append (h l : BitVec 4) : lowNibble (h ++ l) = l := by
  apply BitVec.eq_of_toNat_eq
  have := h.isLt; have := l.isLt
  rw [toNat_lowNibble, toNat_nibbles]
  omega

/-- A byte is its four DIFF fields put together. -/
theorem append_diff_fields (b : Byte) : (tagOf b ++ diffRed b ++ diffGreen b ++ diffBlue b : BitVec 8) = b := by
  apply BitVec.eq_of_toNat_eq
  have := b.isLt
  rw [toNat_diff, toNat_tagOf, toNat_diffRed, toNat_diffGreen, toNat_diffBlue]
  omega

/-- A byte is its two nibbles put together. -/
theorem append_nibbles (b : Byte) : (highNibble b ++ lowNibble b : BitVec 8) = b := by
  apply BitVec.eq_of_toNat_eq
  have := b.isLt
  rw [toNat_nibbles, toNat_highNibble, toNat_lowNibble]
  omega

/-! ## Big-endian words -/

theorem toNat_unbe32 (b0 b1 b2 b3 : Byte) :
    (unbe32 b0 b1 b2 b3).toNat = b0.toNat * 2 ^ 24 + b1.toNat * 2 ^ 16 + b2.toNat * 2 ^ 8 + b3.toNat := by
  simp only [unbe32, BitVec.toNat_append, Nat.shiftLeft_eq, Nat.mul_comm _ (2 ^ 8),
    ← Nat.two_pow_add_eq_or_of_lt b1.isLt, ← Nat.two_pow_add_eq_or_of_lt b2.isLt,
    ← Nat.two_pow_add_eq_or_of_lt b3.isLt]
  omega

theorem be32_unbe32 (b0 b1 b2 b3 : Byte) : be32 (unbe32 b0 b1 b2 b3) = [b0, b1, b2, b3] := by
  simp only [be32, List.cons.injEq, and_true]
  have := b0.isLt; have := b1.isLt; have := b2.isLt; have := b3.isLt
  refine ⟨?_, ?_, ?_, ?_⟩ <;>
  · apply BitVec.eq_of_toNat_eq
    simp only [BitVec.extractLsb'_toNat, Nat.shiftRight_eq_div_pow, toNat_unbe32]
    omega

theorem unbe32_be32 (v : BitVec 32) :
    unbe32 (v.extractLsb' 24 8) (v.extractLsb' 16 8) (v.extractLsb' 8 8) (v.extractLsb' 0 8) = v := by
  apply BitVec.eq_of_toNat_eq
  have := v.isLt
  simp only [BitVec.extractLsb'_toNat, Nat.shiftRight_eq_div_pow, toNat_unbe32]
  omega

/-! ## The parameters -/

/-- R6, as propositions. -/
theorem Params.legal_iff (c : Params) :
    c.legal = true ↔
      (c.tagIndex ≠ c.tagDiff ∧ c.tagIndex ≠ c.tagLuma ∧ c.tagIndex ≠ c.tagRun ∧ c.tagDiff ≠ c.tagLuma
        ∧ c.tagDiff ≠ c.tagRun ∧ c.tagLuma ≠ c.tagRun)
      ∧ c.opRgb ≠ c.opRgba ∧ c.emits c.opRgb = false ∧ c.emits c.opRgba = false ∧ 1 ≤ c.maxRun := by
  simp [Params.legal, and_assoc]

/-- With four different tags every 2-bit value is one of them. -/
theorem Params.tag_cases (c : Params) (hc : c.legal = true) (t : BitVec 2) :
    t = c.tagIndex ∨ t = c.tagDiff ∨ t = c.tagLuma ∨ t = c.tagRun := by
  obtain ⟨⟨h1, h2, h3, h4, h5, h6⟩, -⟩ := (c.legal_iff).mp hc
  simp only [← BitVec.toNat_inj, ne_eq] at *
  have := c.tagIndex.isLt; have := c.tagDiff.isLt; have := c.tagLuma.isLt; have := c.tagRun.isLt; have := t.isLt
  omega

/-- R6: a first byte that the encoder cannot emit under a tag. -/
theorem Params.not_emits (c : Params) (hc : c.legal = true) (b : Byte) (hb : c.emits b = false) :
    b = c.tagDiff ++ 0b101010#6 ∨ (tagOf b = c.tagRun ∧ c.maxRun ≤ (payloadOf b).toNat) := by
  have hb' := append_tagOf_payloadOf b
  simp only [Params.emits, Bool.or_eq_false_iff, Bool.and_eq_false_iff, decide_eq_false_iff_not] at hb
  change ((¬ tagOf b = _ ∧ ¬ tagOf b = _) ∧ (¬ tagOf b = _ ∨ ¬ payloadOf b ≠ _))
    ∧ (¬ tagOf b = _ ∨ ¬ (payloadOf b).toNat < _) at hb
  obtain ⟨⟨⟨e1, e2⟩, e3⟩, e4⟩ := hb
  rcases c.tag_cases hc (tagOf b) with h | h | h | h
  · exact absurd h e1
  · refine .inl ?_
    rw [← hb', h]
    congr 1
    simpa [h] using e3
  · exact absurd h e2
  · exact .inr ⟨h, Nat.le_of_not_lt (by simpa [h] using e4)⟩

/-- R6: two different sentinels leave room for a cap of at most 63, so 6 bits hold the run counter. -/
theorem Params.maxRun_bounds (c : Params) (hc : c.legal = true) : 1 ≤ c.maxRun ∧ c.maxRun ≤ 63 := by
  obtain ⟨-, hne, h1, h2, h3⟩ := (c.legal_iff).mp hc
  refine ⟨h3, Nat.le_of_lt_succ (Nat.lt_of_not_le fun hcon => ?_)⟩
  rcases c.not_emits hc _ h1 with h | ⟨-, h⟩
  · rcases c.not_emits hc _ h2 with h' | ⟨-, h'⟩
    · exact hne (h.trans h'.symm)
    · have := (payloadOf c.opRgba).isLt
      omega
  · have := (payloadOf c.opRgb).isLt
    omega

/-- R6: the encoder can emit the RUN bytes below the cap. -/
theorem Params.emits_run (c : Params) (n : BitVec 6) (h : n.toNat < c.maxRun) : c.emits (c.tagRun ++ n) = true := by
  have h1 : BitVec.extractLsb' 6 2 (c.tagRun ++ n : BitVec 8) = c.tagRun := tagOf_append _ _
  have h2 : BitVec.extractLsb' 0 6 (c.tagRun ++ n : BitVec 8) = n := payloadOf_append _ _
  simp only [Params.emits, h1, h2, h, decide_true, Bool.and_true, Bool.or_true]

theorem Config.params_legal : Config.params.legal = true := by decide

/-! ## What the decoder answers, by the kind of the first byte -/

theorem Params.tagged_iff (c : Params) (b : Byte) : c.tagged b = true ↔ b ≠ c.opRgb ∧ b ≠ c.opRgba := by
  simp [Params.tagged]

/-- A byte that the encoder can emit under a tag is no sentinel. -/
theorem Params.tagged_of_emits (c : Params) (hc : c.legal = true) (b : Byte) (hb : c.emits b = true) :
    c.tagged b = true := by
  obtain ⟨-, -, h1, h2, -⟩ := (c.legal_iff).mp hc
  rw [tagged_iff]
  constructor <;> rintro rfl <;> simp_all

theorem decodeChunk_index (c : Params) (b0 : Byte) (rest : List Byte) (hb : c.tagged b0 = true)
    (ht : tagOf b0 = c.tagIndex) : decodeChunk c (b0 :: rest) = .ok (.index (payloadOf b0)) rest := by
  rw [Params.tagged_iff] at hb
  simp [decodeChunk, hb, ht]

theorem decodeChunk_diff (c : Params) (hc : c.legal = true) (b0 : Byte) (rest : List Byte) (hb : c.tagged b0 = true)
    (ht : tagOf b0 = c.tagDiff) :
    decodeChunk c (b0 :: rest) = .ok (.diff (diffRed b0) (diffGreen b0) (diffBlue b0)) rest := by
  rw [Params.tagged_iff] at hb
  obtain ⟨⟨h1, -⟩, -⟩ := (c.legal_iff).mp hc
  simp [decodeChunk, hb, ht, h1.symm]

theorem decodeChunk_luma (c : Params) (hc : c.legal = true) (b0 b1 : Byte) (rest : List Byte)
    (hb : c.tagged b0 = true) (ht : tagOf b0 = c.tagLuma) :
    decodeChunk c (b0 :: b1 :: rest) = .ok (.luma (payloadOf b0) (highNibble b1) (lowNibble b1)) rest := by
  rw [Params.tagged_iff] at hb
  obtain ⟨⟨-, h1, -, h2, -⟩, -⟩ := (c.legal_iff).mp hc
  simp [decodeChunk, hb, ht, h1.symm, h2.symm]

theorem decodeChunk_run (c : Params) (hc : c.legal = true) (b0 : Byte) (rest : List Byte)
    (hb : c.tagged b0 = true) (ht : tagOf b0 = c.tagRun) :
    decodeChunk c (b0 :: rest) = .ok (.run (payloadOf b0)) rest := by
  rw [Params.tagged_iff] at hb
  obtain ⟨⟨-, -, h1, -, h2, h3⟩, -⟩ := (c.legal_iff).mp hc
  simp [decodeChunk, hb, ht, h1.symm, h2.symm, h3.symm]

theorem decodeChunk_rgb (c : Params) (r g b : Byte) (rest : List Byte) :
    decodeChunk c (c.opRgb :: r :: g :: b :: rest) = .ok (.rgb r g b) rest := by
  simp [decodeChunk]

theorem decodeChunk_rgba (c : Params) (hc : c.legal = true) (r g b a : Byte) (rest : List Byte) :
    decodeChunk c (c.opRgba :: r :: g :: b :: a :: rest) = .ok (.rgba r g b a) rest := by
  obtain ⟨-, h, -⟩ := (c.legal_iff).mp hc
  simp [decodeChunk, h.symm]

/-- The chunk decoder answers chunks only. -/
theorem decodeChunk_place (c : Params) (bs : List Byte) (i : Instr) (rest : List Byte)
    (h : decodeChunk c bs = .ok i rest) : i.place = .chunk := by
  unfold decodeChunk at h
  repeat' split at h
  all_goals first | (cases h; rfl) | cases h

/-- What the chunk decoder answers is the head of the bytes: they are the chunk's encoding and the rest. -/
theorem decodeChunk_bytes (c : Params) (bs : List Byte) (i : Instr) (rest : List Byte)
    (h : decodeChunk c bs = .ok i rest) : bs = encode c i ++ rest := by
  unfold decodeChunk at h
  repeat' split at h
  all_goals first | (cases h; done) | skip
  all_goals cases h
  all_goals simp only [encode, List.cons_append, List.nil_append]
  · rename_i h _ _ _ _; rw [h]
  · rename_i h _ _ _ _ _; rw [h]
  · rename_i h; rw [← h, append_tagOf_payloadOf]
  · rename_i h; rw [← h, append_diff_fields]
  · rename_i h _ _; rw [← h, append_tagOf_payloadOf, append_nibbles]
  · rename_i h; rw [← h, append_tagOf_payloadOf]

/-- What follows a chunk has no part in reading it. -/
theorem decodeChunk_append (c : Params) (bs rest rest' : List Byte) (i : Instr) (h : decodeChunk c bs = .ok i rest) :
    decodeChunk c (encode c i ++ rest') = .ok i rest' := by
  have hp := decodeChunk_place c bs i rest h
  rw [decodeChunk_bytes c bs i rest h] at h
  cases i <;> cases hp
  all_goals
    simp only [encode, List.cons_append, List.nil_append] at h ⊢
    unfold decodeChunk at h ⊢
    repeat' split at h
    all_goals first | (cases h; done) | skip
    all_goals simp_all

/-- Only where there is no byte is there nothing to read. -/
theorem decodeChunk_empty (c : Params) (bs : List Byte) (h : decodeChunk c bs = .bad .empty) : bs = [] := by
  cases bs with
  | nil => rfl
  | cons b0 rest =>
    simp only [decodeChunk] at h
    repeat' split at h
    all_goals cases h

theorem encode_length (c : Params) (i : Instr) : (encode c i).length = i.len := by cases i <;> rfl

theorem Instr.one_le_len (i : Instr) : 1 ≤ i.len := by cases i <;> simp [Instr.len]

end Sys2Proof
end

