-- ==== Sys2Proof/Laws/State.lean ====
section
/-! SUPPORT. One lemma per field per named update of the state: what the update writes there, or that it leaves it alone. -/

namespace Sys2Proof.Machine

variable (s : State)

/-! ## finishChunk -/

@[simp] theorem State.finishChunk_enc (px : Pixel) (n len : Nat) : (s.finishChunk px n len).enc = s.enc := rfl
@[simp] theorem State.finishChunk_dec_prev (px : Pixel) (n len : Nat) : (s.finishChunk px n len).dec.prev = px := rfl
@[simp] theorem State.finishChunk_dec_cache (px : Pixel) (n len : Nat) : (s.finishChunk px n len).dec.cache = s.dec.cache.write (pixelHash px) px := rfl
@[simp] theorem State.finishChunk_dec_pos (px : Pixel) (n len : Nat) : (s.finishChunk px n len).dec.pos = s.dec.pos + len := rfl
@[simp] theorem State.finishChunk_dec_buf (px : Pixel) (n len : Nat) : (s.finishChunk px n len).dec.buf = s.dec.buf := rfl
@[simp] theorem State.finishChunk_dec_err (px : Pixel) (n len : Nat) : (s.finishChunk px n len).dec.err = s.dec.err := rfl
@[simp] theorem State.finishChunk_dec_phase (px : Pixel) (n len : Nat) : (s.finishChunk px n len).dec.phase = s.dec.phase := rfl
@[simp] theorem State.finishChunk_frr (px : Pixel) (n len : Nat) : (s.finishChunk px n len).frr = s.frr := rfl
@[simp] theorem State.finishChunk_encOut (px : Pixel) (n len : Nat) : (s.finishChunk px n len).encOut = s.encOut := rfl
@[simp] theorem State.finishChunk_decIn (px : Pixel) (n len : Nat) : (s.finishChunk px n len).decIn = s.decIn := rfl
@[simp] theorem State.finishChunk_decOut (px : Pixel) (n len : Nat) : (s.finishChunk px n len).decOut = s.decOut ++ List.replicate n px := rfl
@[simp] theorem State.finishChunk_frrIn (px : Pixel) (n len : Nat) : (s.finishChunk px n len).frrIn = s.frrIn := rfl
@[simp] theorem State.finishChunk_frrOut (px : Pixel) (n len : Nat) : (s.finishChunk px n len).frrOut = s.frrOut := rfl
@[simp] theorem State.finishChunk_frwOut (px : Pixel) (n len : Nat) : (s.finishChunk px n len).frwOut = s.frwOut := rfl
@[simp] theorem State.finishChunk_events (px : Pixel) (n len : Nat) : (s.finishChunk px n len).events = s.events := rfl
@[simp] theorem State.finishChunk_draws (px : Pixel) (n len : Nat) : (s.finishChunk px n len).draws = s.draws := rfl

/-! ## withBuf -/

@[simp] theorem State.withBuf_enc (buf : List Byte) : (s.withBuf buf).enc = s.enc := rfl
@[simp] theorem State.withBuf_dec_prev (buf : List Byte) : (s.withBuf buf).dec.prev = s.dec.prev := rfl
@[simp] theorem State.withBuf_dec_cache (buf : List Byte) : (s.withBuf buf).dec.cache = s.dec.cache := rfl
@[simp] theorem State.withBuf_dec_pos (buf : List Byte) : (s.withBuf buf).dec.pos = s.dec.pos := rfl
@[simp] theorem State.withBuf_dec_buf (buf : List Byte) : (s.withBuf buf).dec.buf = buf := rfl
@[simp] theorem State.withBuf_dec_err (buf : List Byte) : (s.withBuf buf).dec.err = s.dec.err := rfl
@[simp] theorem State.withBuf_dec_phase (buf : List Byte) : (s.withBuf buf).dec.phase = s.dec.phase := rfl
@[simp] theorem State.withBuf_frr (buf : List Byte) : (s.withBuf buf).frr = s.frr := rfl
@[simp] theorem State.withBuf_encOut (buf : List Byte) : (s.withBuf buf).encOut = s.encOut := rfl
@[simp] theorem State.withBuf_decIn (buf : List Byte) : (s.withBuf buf).decIn = s.decIn := rfl
@[simp] theorem State.withBuf_decOut (buf : List Byte) : (s.withBuf buf).decOut = s.decOut := rfl
@[simp] theorem State.withBuf_frrIn (buf : List Byte) : (s.withBuf buf).frrIn = s.frrIn := rfl
@[simp] theorem State.withBuf_frrOut (buf : List Byte) : (s.withBuf buf).frrOut = s.frrOut := rfl
@[simp] theorem State.withBuf_frwOut (buf : List Byte) : (s.withBuf buf).frwOut = s.frwOut := rfl
@[simp] theorem State.withBuf_events (buf : List Byte) : (s.withBuf buf).events = s.events := rfl
@[simp] theorem State.withBuf_draws (buf : List Byte) : (s.withBuf buf).draws = s.draws := rfl

/-! ## decRaise -/

@[simp] theorem State.decRaise_enc (k : ErrKind) (o : Nat) : (s.decRaise k o).enc = s.enc := rfl
@[simp] theorem State.decRaise_dec_prev (k : ErrKind) (o : Nat) : (s.decRaise k o).dec.prev = s.dec.prev := rfl
@[simp] theorem State.decRaise_dec_cache (k : ErrKind) (o : Nat) : (s.decRaise k o).dec.cache = s.dec.cache := rfl
@[simp] theorem State.decRaise_dec_pos (k : ErrKind) (o : Nat) : (s.decRaise k o).dec.pos = s.dec.pos := rfl
@[simp] theorem State.decRaise_dec_buf (k : ErrKind) (o : Nat) : (s.decRaise k o).dec.buf = s.dec.buf := rfl
@[simp] theorem State.decRaise_dec_err (k : ErrKind) (o : Nat) : (s.decRaise k o).dec.err = ⟨k, o⟩ := rfl
@[simp] theorem State.decRaise_dec_phase (k : ErrKind) (o : Nat) : (s.decRaise k o).dec.phase = .faulted := rfl
@[simp] theorem State.decRaise_frr (k : ErrKind) (o : Nat) : (s.decRaise k o).frr = s.frr := rfl
@[simp] theorem State.decRaise_encOut (k : ErrKind) (o : Nat) : (s.decRaise k o).encOut = s.encOut := rfl
@[simp] theorem State.decRaise_decIn (k : ErrKind) (o : Nat) : (s.decRaise k o).decIn = s.decIn := rfl
@[simp] theorem State.decRaise_decOut (k : ErrKind) (o : Nat) : (s.decRaise k o).decOut = s.decOut := rfl
@[simp] theorem State.decRaise_frrIn (k : ErrKind) (o : Nat) : (s.decRaise k o).frrIn = s.frrIn := rfl
@[simp] theorem State.decRaise_frrOut (k : ErrKind) (o : Nat) : (s.decRaise k o).frrOut = s.frrOut := rfl
@[simp] theorem State.decRaise_frwOut (k : ErrKind) (o : Nat) : (s.decRaise k o).frwOut = s.frwOut := rfl
@[simp] theorem State.decRaise_events (k : ErrKind) (o : Nat) : (s.decRaise k o).events = s.events := rfl
@[simp] theorem State.decRaise_draws (k : ErrKind) (o : Nat) : (s.decRaise k o).draws = s.draws := rfl

/-! ## decDone -/

@[simp] theorem State.decDone_enc : (s.decDone).enc = s.enc := rfl
@[simp] theorem State.decDone_dec_prev : (s.decDone).dec.prev = s.dec.prev := rfl
@[simp] theorem State.decDone_dec_cache : (s.decDone).dec.cache = s.dec.cache := rfl
@[simp] theorem State.decDone_dec_pos : (s.decDone).dec.pos = s.dec.pos := rfl
@[simp] theorem State.decDone_dec_buf : (s.decDone).dec.buf = s.dec.buf := rfl
@[simp] theorem State.decDone_dec_err : (s.decDone).dec.err = s.dec.err := rfl
@[simp] theorem State.decDone_dec_phase : (s.decDone).dec.phase = .done := rfl
@[simp] theorem State.decDone_frr : (s.decDone).frr = s.frr := rfl
@[simp] theorem State.decDone_encOut : (s.decDone).encOut = s.encOut := rfl
@[simp] theorem State.decDone_decIn : (s.decDone).decIn = s.decIn := rfl
@[simp] theorem State.decDone_decOut : (s.decDone).decOut = s.decOut := rfl
@[simp] theorem State.decDone_frrIn : (s.decDone).frrIn = s.frrIn := rfl
@[simp] theorem State.decDone_frrOut : (s.decDone).frrOut = s.frrOut := rfl
@[simp] theorem State.decDone_frwOut : (s.decDone).frwOut = s.frwOut := rfl
@[simp] theorem State.decDone_events : (s.decDone).events = s.events := rfl
@[simp] theorem State.decDone_draws : (s.decDone).draws = s.draws := rfl

/-! ## decStart -/

@[simp] theorem State.decStart_enc (i : DecInput) : (s.decStart i).enc = s.enc := rfl
@[simp] theorem State.decStart_dec (i : DecInput) : (s.decStart i).dec = DecUnit.start (Config.freeOffset s.draws) := rfl
@[simp] theorem State.decStart_frr (i : DecInput) : (s.decStart i).frr = s.frr := rfl
@[simp] theorem State.decStart_encOut (i : DecInput) : (s.decStart i).encOut = s.encOut := rfl
@[simp] theorem State.decStart_decIn (i : DecInput) : (s.decStart i).decIn = i := rfl
@[simp] theorem State.decStart_decOut (i : DecInput) : (s.decStart i).decOut = s.decOut := rfl
@[simp] theorem State.decStart_frrIn (i : DecInput) : (s.decStart i).frrIn = s.frrIn := rfl
@[simp] theorem State.decStart_frrOut (i : DecInput) : (s.decStart i).frrOut = s.frrOut := rfl
@[simp] theorem State.decStart_frwOut (i : DecInput) : (s.decStart i).frwOut = s.frwOut := rfl
@[simp] theorem State.decStart_events (i : DecInput) : (s.decStart i).events = s.events := rfl
@[simp] theorem State.decStart_draws (i : DecInput) : (s.decStart i).draws = s.draws + 1 := rfl

/-! ## encStart -/

@[simp] theorem State.encStart_enc : (s.encStart).enc = EncUnit.start := rfl
@[simp] theorem State.encStart_dec : (s.encStart).dec = s.dec := rfl
@[simp] theorem State.encStart_frr : (s.encStart).frr = s.frr := rfl
@[simp] theorem State.encStart_encOut : (s.encStart).encOut = s.encOut := rfl
@[simp] theorem State.encStart_decIn : (s.encStart).decIn = s.decIn := rfl
@[simp] theorem State.encStart_decOut : (s.encStart).decOut = s.decOut := rfl
@[simp] theorem State.encStart_frrIn : (s.encStart).frrIn = s.frrIn := rfl
@[simp] theorem State.encStart_frrOut : (s.encStart).frrOut = s.frrOut := rfl
@[simp] theorem State.encStart_frwOut : (s.encStart).frwOut = s.frwOut := rfl
@[simp] theorem State.encStart_events : (s.encStart).events = s.events := rfl
@[simp] theorem State.encStart_draws : (s.encStart).draws = s.draws := rfl

/-! ## withEnc -/

@[simp] theorem State.withEnc_enc (r : EncUnit × List Byte) : (s.withEnc r).enc = r.1 := rfl
@[simp] theorem State.withEnc_dec (r : EncUnit × List Byte) : (s.withEnc r).dec = s.dec := rfl
@[simp] theorem State.withEnc_frr (r : EncUnit × List Byte) : (s.withEnc r).frr = s.frr := rfl
@[simp] theorem State.withEnc_encOut (r : EncUnit × List Byte) : (s.withEnc r).encOut = s.encOut ++ r.2 := rfl
@[simp] theorem State.withEnc_decIn (r : EncUnit × List Byte) : (s.withEnc r).decIn = s.decIn := rfl
@[simp] theorem State.withEnc_decOut (r : EncUnit × List Byte) : (s.withEnc r).decOut = s.decOut := rfl
@[simp] theorem State.withEnc_frrIn (r : EncUnit × List Byte) : (s.withEnc r).frrIn = s.frrIn := rfl
@[simp] theorem State.withEnc_frrOut (r : EncUnit × List Byte) : (s.withEnc r).frrOut = s.frrOut := rfl
@[simp] theorem State.withEnc_frwOut (r : EncUnit × List Byte) : (s.withEnc r).frwOut = s.frwOut := rfl
@[simp] theorem State.withEnc_events (r : EncUnit × List Byte) : (s.withEnc r).events = s.events := rfl
@[simp] theorem State.withEnc_draws (r : EncUnit × List Byte) : (s.withEnc r).draws = s.draws := rfl

/-! ## emit -/

@[simp] theorem State.emit_enc (bytes : List Byte) : (s.emit bytes).enc = s.enc := rfl
@[simp] theorem State.emit_dec (bytes : List Byte) : (s.emit bytes).dec = s.dec := rfl
@[simp] theorem State.emit_frr (bytes : List Byte) : (s.emit bytes).frr = s.frr := rfl
@[simp] theorem State.emit_encOut (bytes : List Byte) : (s.emit bytes).encOut = s.encOut ++ bytes := rfl
@[simp] theorem State.emit_decIn (bytes : List Byte) : (s.emit bytes).decIn = s.decIn := rfl
@[simp] theorem State.emit_decOut (bytes : List Byte) : (s.emit bytes).decOut = s.decOut := rfl
@[simp] theorem State.emit_frrIn (bytes : List Byte) : (s.emit bytes).frrIn = s.frrIn := rfl
@[simp] theorem State.emit_frrOut (bytes : List Byte) : (s.emit bytes).frrOut = s.frrOut := rfl
@[simp] theorem State.emit_frwOut (bytes : List Byte) : (s.emit bytes).frwOut = s.frwOut := rfl
@[simp] theorem State.emit_events (bytes : List Byte) : (s.emit bytes).events = s.events := rfl
@[simp] theorem State.emit_draws (bytes : List Byte) : (s.emit bytes).draws = s.draws := rfl

/-! ## frrRaise -/

@[simp] theorem State.frrRaise_enc (k : ErrKind) (o : Nat) : (s.frrRaise k o).enc = s.enc := rfl
@[simp] theorem State.frrRaise_dec (k : ErrKind) (o : Nat) : (s.frrRaise k o).dec = s.dec := rfl
@[simp] theorem State.frrRaise_frr_width (k : ErrKind) (o : Nat) : (s.frrRaise k o).frr.width = s.frr.width := rfl
@[simp] theorem State.frrRaise_frr_height (k : ErrKind) (o : Nat) : (s.frrRaise k o).frr.height = s.frr.height := rfl
@[simp] theorem State.frrRaise_frr_channels (k : ErrKind) (o : Nat) : (s.frrRaise k o).frr.channels = s.frr.channels := rfl
@[simp] theorem State.frrRaise_frr_colorspace (k : ErrKind) (o : Nat) : (s.frrRaise k o).frr.colorspace = s.frr.colorspace := rfl
@[simp] theorem State.frrRaise_frr_err (k : ErrKind) (o : Nat) : (s.frrRaise k o).frr.err = ⟨k, o⟩ := rfl
@[simp] theorem State.frrRaise_frr_endMarkerOk (k : ErrKind) (o : Nat) : (s.frrRaise k o).frr.endMarkerOk = s.frr.endMarkerOk := rfl
@[simp] theorem State.frrRaise_frr_countOk (k : ErrKind) (o : Nat) : (s.frrRaise k o).frr.countOk = s.frr.countOk := rfl
@[simp] theorem State.frrRaise_frr_phase (k : ErrKind) (o : Nat) : (s.frrRaise k o).frr.phase = .faulted := rfl
@[simp] theorem State.frrRaise_encOut (k : ErrKind) (o : Nat) : (s.frrRaise k o).encOut = s.encOut := rfl
@[simp] theorem State.frrRaise_decIn (k : ErrKind) (o : Nat) : (s.frrRaise k o).decIn = s.decIn := rfl
@[simp] theorem State.frrRaise_decOut (k : ErrKind) (o : Nat) : (s.frrRaise k o).decOut = s.decOut := rfl
@[simp] theorem State.frrRaise_frrIn (k : ErrKind) (o : Nat) : (s.frrRaise k o).frrIn = s.frrIn := rfl
@[simp] theorem State.frrRaise_frrOut (k : ErrKind) (o : Nat) : (s.frrRaise k o).frrOut = s.frrOut := rfl
@[simp] theorem State.frrRaise_frwOut (k : ErrKind) (o : Nat) : (s.frrRaise k o).frwOut = s.frwOut := rfl
@[simp] theorem State.frrRaise_events (k : ErrKind) (o : Nat) : (s.frrRaise k o).events = s.events := rfl
@[simp] theorem State.frrRaise_draws (k : ErrKind) (o : Nat) : (s.frrRaise k o).draws = s.draws := rfl

/-! ## frrStart -/

@[simp] theorem State.frrStart_enc (bytes : List Byte) : (s.frrStart bytes).enc = s.enc := rfl
@[simp] theorem State.frrStart_dec (bytes : List Byte) : (s.frrStart bytes).dec = s.dec := rfl
@[simp] theorem State.frrStart_frr_width (bytes : List Byte) : (s.frrStart bytes).frr.width = Config.freeWidth s.draws := rfl
@[simp] theorem State.frrStart_frr_height (bytes : List Byte) : (s.frrStart bytes).frr.height = Config.freeHeight s.draws := rfl
@[simp] theorem State.frrStart_frr_channels (bytes : List Byte) : (s.frrStart bytes).frr.channels = Config.freeChannels s.draws := rfl
@[simp] theorem State.frrStart_frr_colorspace (bytes : List Byte) : (s.frrStart bytes).frr.colorspace = Config.freeColorspace s.draws := rfl
@[simp] theorem State.frrStart_frr_err (bytes : List Byte) : (s.frrStart bytes).frr.err = ⟨.none, Config.freeOffset s.draws⟩ := rfl
@[simp] theorem State.frrStart_frr_endMarkerOk (bytes : List Byte) : (s.frrStart bytes).frr.endMarkerOk = false := rfl
@[simp] theorem State.frrStart_frr_countOk (bytes : List Byte) : (s.frrStart bytes).frr.countOk = false := rfl
@[simp] theorem State.frrStart_frr_phase (bytes : List Byte) : (s.frrStart bytes).frr.phase = .header := rfl
@[simp] theorem State.frrStart_encOut (bytes : List Byte) : (s.frrStart bytes).encOut = s.encOut := rfl
@[simp] theorem State.frrStart_decIn (bytes : List Byte) : (s.frrStart bytes).decIn = s.decIn := rfl
@[simp] theorem State.frrStart_decOut (bytes : List Byte) : (s.frrStart bytes).decOut = s.decOut := rfl
@[simp] theorem State.frrStart_frrIn (bytes : List Byte) : (s.frrStart bytes).frrIn = bytes := rfl
@[simp] theorem State.frrStart_frrOut (bytes : List Byte) : (s.frrStart bytes).frrOut = s.frrOut := rfl
@[simp] theorem State.frrStart_frwOut (bytes : List Byte) : (s.frrStart bytes).frwOut = s.frwOut := rfl
@[simp] theorem State.frrStart_events (bytes : List Byte) : (s.frrStart bytes).events = s.events := rfl
@[simp] theorem State.frrStart_draws (bytes : List Byte) : (s.frrStart bytes).draws = s.draws + 1 := rfl

/-! ## latchSize -/

@[simp] theorem State.latchSize_enc (w h : BitVec 32) : (s.latchSize w h).enc = s.enc := rfl
@[simp] theorem State.latchSize_dec (w h : BitVec 32) : (s.latchSize w h).dec = s.dec := rfl
@[simp] theorem State.latchSize_frr_width (w h : BitVec 32) : (s.latchSize w h).frr.width = w := rfl
@[simp] theorem State.latchSize_frr_height (w h : BitVec 32) : (s.latchSize w h).frr.height = h := rfl
@[simp] theorem State.latchSize_frr_channels (w h : BitVec 32) : (s.latchSize w h).frr.channels = s.frr.channels := rfl
@[simp] theorem State.latchSize_frr_colorspace (w h : BitVec 32) : (s.latchSize w h).frr.colorspace = s.frr.colorspace := rfl
@[simp] theorem State.latchSize_frr_err (w h : BitVec 32) : (s.latchSize w h).frr.err = s.frr.err := rfl
@[simp] theorem State.latchSize_frr_endMarkerOk (w h : BitVec 32) : (s.latchSize w h).frr.endMarkerOk = s.frr.endMarkerOk := rfl
@[simp] theorem State.latchSize_frr_countOk (w h : BitVec 32) : (s.latchSize w h).frr.countOk = s.frr.countOk := rfl
@[simp] theorem State.latchSize_frr_phase (w h : BitVec 32) : (s.latchSize w h).frr.phase = s.frr.phase := rfl
@[simp] theorem State.latchSize_encOut (w h : BitVec 32) : (s.latchSize w h).encOut = s.encOut := rfl
@[simp] theorem State.latchSize_decIn (w h : BitVec 32) : (s.latchSize w h).decIn = s.decIn := rfl
@[simp] theorem State.latchSize_decOut (w h : BitVec 32) : (s.latchSize w h).decOut = s.decOut := rfl
@[simp] theorem State.latchSize_frrIn (w h : BitVec 32) : (s.latchSize w h).frrIn = s.frrIn := rfl
@[simp] theorem State.latchSize_frrOut (w h : BitVec 32) : (s.latchSize w h).frrOut = s.frrOut := rfl
@[simp] theorem State.latchSize_frwOut (w h : BitVec 32) : (s.latchSize w h).frwOut = s.frwOut := rfl
@[simp] theorem State.latchSize_events (w h : BitVec 32) : (s.latchSize w h).events = s.events := rfl
@[simp] theorem State.latchSize_draws (w h : BitVec 32) : (s.latchSize w h).draws = s.draws := rfl

/-! ## latchChannels -/

@[simp] theorem State.latchChannels_enc (b : Byte) : (s.latchChannels b).enc = s.enc := rfl
@[simp] theorem State.latchChannels_dec (b : Byte) : (s.latchChannels b).dec = s.dec := rfl
@[simp] theorem State.latchChannels_frr_width (b : Byte) : (s.latchChannels b).frr.width = s.frr.width := rfl
@[simp] theorem State.latchChannels_frr_height (b : Byte) : (s.latchChannels b).frr.height = s.frr.height := rfl
@[simp] theorem State.latchChannels_frr_channels (b : Byte) : (s.latchChannels b).frr.channels = b := rfl
@[simp] theorem State.latchChannels_frr_colorspace (b : Byte) : (s.latchChannels b).frr.colorspace = s.frr.colorspace := rfl
@[simp] theorem State.latchChannels_frr_err (b : Byte) : (s.latchChannels b).frr.err = s.frr.err := rfl
@[simp] theorem State.latchChannels_frr_endMarkerOk (b : Byte) : (s.latchChannels b).frr.endMarkerOk = s.frr.endMarkerOk := rfl
@[simp] theorem State.latchChannels_frr_countOk (b : Byte) : (s.latchChannels b).frr.countOk = s.frr.countOk := rfl
@[simp] theorem State.latchChannels_frr_phase (b : Byte) : (s.latchChannels b).frr.phase = s.frr.phase := rfl
@[simp] theorem State.latchChannels_encOut (b : Byte) : (s.latchChannels b).encOut = s.encOut := rfl
@[simp] theorem State.latchChannels_decIn (b : Byte) : (s.latchChannels b).decIn = s.decIn := rfl
@[simp] theorem State.latchChannels_decOut (b : Byte) : (s.latchChannels b).decOut = s.decOut := rfl
@[simp] theorem State.latchChannels_frrIn (b : Byte) : (s.latchChannels b).frrIn = s.frrIn := rfl
@[simp] theorem State.latchChannels_frrOut (b : Byte) : (s.latchChannels b).frrOut = s.frrOut := rfl
@[simp] theorem State.latchChannels_frwOut (b : Byte) : (s.latchChannels b).frwOut = s.frwOut := rfl
@[simp] theorem State.latchChannels_events (b : Byte) : (s.latchChannels b).events = s.events := rfl
@[simp] theorem State.latchChannels_draws (b : Byte) : (s.latchChannels b).draws = s.draws := rfl

/-! ## latchColorspace -/

@[simp] theorem State.latchColorspace_enc (b : Byte) : (s.latchColorspace b).enc = s.enc := rfl
@[simp] theorem State.latchColorspace_dec (b : Byte) : (s.latchColorspace b).dec = s.dec := rfl
@[simp] theorem State.latchColorspace_frr_width (b : Byte) : (s.latchColorspace b).frr.width = s.frr.width := rfl
@[simp] theorem State.latchColorspace_frr_height (b : Byte) : (s.latchColorspace b).frr.height = s.frr.height := rfl
@[simp] theorem State.latchColorspace_frr_channels (b : Byte) : (s.latchColorspace b).frr.channels = s.frr.channels := rfl
@[simp] theorem State.latchColorspace_frr_colorspace (b : Byte) : (s.latchColorspace b).frr.colorspace = b := rfl
@[simp] theorem State.latchColorspace_frr_err (b : Byte) : (s.latchColorspace b).frr.err = s.frr.err := rfl
@[simp] theorem State.latchColorspace_frr_endMarkerOk (b : Byte) : (s.latchColorspace b).frr.endMarkerOk = s.frr.endMarkerOk := rfl
@[simp] theorem State.latchColorspace_frr_countOk (b : Byte) : (s.latchColorspace b).frr.countOk = s.frr.countOk := rfl
@[simp] theorem State.latchColorspace_frr_phase (b : Byte) : (s.latchColorspace b).frr.phase = .marker := rfl
@[simp] theorem State.latchColorspace_encOut (b : Byte) : (s.latchColorspace b).encOut = s.encOut := rfl
@[simp] theorem State.latchColorspace_decIn (b : Byte) : (s.latchColorspace b).decIn = s.decIn := rfl
@[simp] theorem State.latchColorspace_decOut (b : Byte) : (s.latchColorspace b).decOut = s.decOut := rfl
@[simp] theorem State.latchColorspace_frrIn (b : Byte) : (s.latchColorspace b).frrIn = s.frrIn := rfl
@[simp] theorem State.latchColorspace_frrOut (b : Byte) : (s.latchColorspace b).frrOut = s.frrOut := rfl
@[simp] theorem State.latchColorspace_frwOut (b : Byte) : (s.latchColorspace b).frwOut = s.frwOut := rfl
@[simp] theorem State.latchColorspace_events (b : Byte) : (s.latchColorspace b).events = s.events := rfl
@[simp] theorem State.latchColorspace_draws (b : Byte) : (s.latchColorspace b).draws = s.draws := rfl

/-! ## latchMarker -/

@[simp] theorem State.latchMarker_enc (ok : Bool) : (s.latchMarker ok).enc = s.enc := rfl
@[simp] theorem State.latchMarker_dec (ok : Bool) : (s.latchMarker ok).dec = s.dec := rfl
@[simp] theorem State.latchMarker_frr_width (ok : Bool) : (s.latchMarker ok).frr.width = s.frr.width := rfl
@[simp] theorem State.latchMarker_frr_height (ok : Bool) : (s.latchMarker ok).frr.height = s.frr.height := rfl
@[simp] theorem State.latchMarker_frr_channels (ok : Bool) : (s.latchMarker ok).frr.channels = s.frr.channels := rfl
@[simp] theorem State.latchMarker_frr_colorspace (ok : Bool) : (s.latchMarker ok).frr.colorspace = s.frr.colorspace := rfl
@[simp] theorem State.latchMarker_frr_err (ok : Bool) : (s.latchMarker ok).frr.err = s.frr.err := rfl
@[simp] theorem State.latchMarker_frr_endMarkerOk (ok : Bool) : (s.latchMarker ok).frr.endMarkerOk = ok := rfl
@[simp] theorem State.latchMarker_frr_countOk (ok : Bool) : (s.latchMarker ok).frr.countOk = s.frr.countOk := rfl
@[simp] theorem State.latchMarker_frr_phase (ok : Bool) : (s.latchMarker ok).frr.phase = .decode := rfl
@[simp] theorem State.latchMarker_encOut (ok : Bool) : (s.latchMarker ok).encOut = s.encOut := rfl
@[simp] theorem State.latchMarker_decIn (ok : Bool) : (s.latchMarker ok).decIn = s.decIn := rfl
@[simp] theorem State.latchMarker_decOut (ok : Bool) : (s.latchMarker ok).decOut = s.decOut := rfl
@[simp] theorem State.latchMarker_frrIn (ok : Bool) : (s.latchMarker ok).frrIn = s.frrIn := rfl
@[simp] theorem State.latchMarker_frrOut (ok : Bool) : (s.latchMarker ok).frrOut = s.frrOut := rfl
@[simp] theorem State.latchMarker_frwOut (ok : Bool) : (s.latchMarker ok).frwOut = s.frwOut := rfl
@[simp] theorem State.latchMarker_events (ok : Bool) : (s.latchMarker ok).events = s.events := rfl
@[simp] theorem State.latchMarker_draws (ok : Bool) : (s.latchMarker ok).draws = s.draws := rfl

/-! ## withEvents -/

@[simp] theorem State.withEvents_enc (es : List Event) : (s.withEvents es).enc = s.enc := rfl
@[simp] theorem State.withEvents_dec (es : List Event) : (s.withEvents es).dec = s.dec := rfl
@[simp] theorem State.withEvents_frr (es : List Event) : (s.withEvents es).frr = s.frr := rfl
@[simp] theorem State.withEvents_encOut (es : List Event) : (s.withEvents es).encOut = s.encOut := rfl
@[simp] theorem State.withEvents_decIn (es : List Event) : (s.withEvents es).decIn = s.decIn := rfl
@[simp] theorem State.withEvents_decOut (es : List Event) : (s.withEvents es).decOut = s.decOut := rfl
@[simp] theorem State.withEvents_frrIn (es : List Event) : (s.withEvents es).frrIn = s.frrIn := rfl
@[simp] theorem State.withEvents_frrOut (es : List Event) : (s.withEvents es).frrOut = s.frrOut := rfl
@[simp] theorem State.withEvents_frwOut (es : List Event) : (s.withEvents es).frwOut = s.frwOut := rfl
@[simp] theorem State.withEvents_events (es : List Event) : (s.withEvents es).events = es := rfl
@[simp] theorem State.withEvents_draws (es : List Event) : (s.withEvents es).draws = s.draws := rfl

/-! ## The units after `Start` -/

@[simp] theorem EncUnit.start_prev : EncUnit.start.prev = Config.prevReset := rfl
@[simp] theorem EncUnit.start_cache : EncUnit.start.cache = [] := rfl
@[simp] theorem EncUnit.start_run : EncUnit.start.run = 0 := rfl
@[simp] theorem EncUnit.start_phase : EncUnit.start.phase = .active := rfl
@[simp] theorem DecUnit.start_prev (o : Nat) : (DecUnit.start o).prev = Config.prevReset := rfl
@[simp] theorem DecUnit.start_cache (o : Nat) : (DecUnit.start o).cache = [] := rfl
@[simp] theorem DecUnit.start_pos (o : Nat) : (DecUnit.start o).pos = 0 := rfl
@[simp] theorem DecUnit.start_buf (o : Nat) : (DecUnit.start o).buf = [] := rfl
@[simp] theorem DecUnit.start_err (o : Nat) : (DecUnit.start o).err = ⟨.none, o⟩ := rfl
@[simp] theorem DecUnit.start_phase (o : Nat) : (DecUnit.start o).phase = .active := rfl
@[simp] theorem State.reset_enc_phase : State.reset.enc.phase = .idle := rfl
@[simp] theorem State.reset_dec_phase : State.reset.dec.phase = .idle := rfl
@[simp] theorem State.reset_frr_phase : State.reset.frr.phase = .idle := rfl

/-! ## The encoder's update of its registers -/

@[simp] theorem EncUnit.update_prev (u : EncUnit) (p : Pixel) : (u.update p).prev = p := rfl
@[simp] theorem EncUnit.update_cache (u : EncUnit) (p : Pixel) : (u.update p).cache = u.cache.write (pixelHash p) p := rfl
@[simp] theorem EncUnit.update_run (u : EncUnit) (p : Pixel) : (u.update p).run = u.run := rfl
@[simp] theorem EncUnit.update_phase (u : EncUnit) (p : Pixel) : (u.update p).phase = u.phase := rfl

end Sys2Proof.Machine
end

