-- ==== Sys2Proof/Laws/Ops.lean ====
section
/-! SUPPORT. What the shared operations and one step can do, said once: callers cite these and do not unfold the operations. -/

namespace Sys2Proof.Machine

/-! ## Chunks -/

/-- The pixel a chunk produces; a framing record, which produces none, is given `prev`. -/
def chunkPixel (d : DecUnit) : Instr → Pixel
  | .rgb r g b => pixelRgb d r g b
  | .rgba r g b a => pixelRgba r g b a
  | .index slot => pixelIndex d slot
  | .diff dr dg db => pixelDiff d dr dg db
  | .luma dg drdg dbdg => pixelLuma d dg drdg dbdg
  | .run _ => pixelRun d
  | .header _ _ _ _ _ => d.prev
  | .endMarker _ => d.prev

/-- How many copies of its pixel a chunk outputs. -/
def chunkCount : Instr → Nat
  | .run n => runLength n
  | _ => 1

/-- A chunk's meaning: output its pixel, write back, advance by its length. -/
theorem exec_chunk (i : Instr) (s : State) (h : i.place = .chunk) :
    exec i s = .next (s.finishChunk (chunkPixel s.dec i) (chunkCount i) i.len) := by
  cases i <;> first | rfl | cases h

/-- `finishChunk` is what `ChunkDone` says. -/
theorem finishChunk_done (s : State) (px : Pixel) (n len : Nat) : ChunkDone s (s.finishChunk px n len) px n len where
  prev := rfl
  pos := rfl
  out := rfl
  stored := by simp
  otherSlot slot h := by simp [Cache.read_write, h]
  buf := rfl
  err := rfl
  phase := rfl
  enc := rfl
  frr := rfl
  encOut := rfl
  decIn := rfl
  frrIn := rfl
  frrOut := rfl
  frwOut := rfl
  events := rfl
  draws := rfl

/-- What was read as a chunk is executed, or its error raised. -/
theorem runDecoded_cases (c : Params) (bs : List Byte) (s t : State)
    (h : runDecoded (decodeChunk c bs) s = .next t) :
    (∃ i rest, decodeChunk c bs = .ok i rest ∧ i.place = .chunk
      ∧ t = s.finishChunk (chunkPixel s.dec i) (chunkCount i) i.len)
    ∨ (decodeChunk c bs = .bad .truncated ∧ t = s.decRaise .truncatedChunk s.dec.pos)
    ∨ (decodeChunk c bs = .bad .unrecognizedTag ∧ t = s.decRaise .unrecognizedTag s.dec.pos) := by
  cases hd : decodeChunk c bs with
  | ok i rest =>
    have hp := decodeChunk_place c bs i rest hd
    rw [hd, runDecoded, exec_chunk i s hp] at h
    exact .inl ⟨i, rest, rfl, hp, (Host.Outcome.next.inj h).symm⟩
  | bad why =>
    cases why with
    | empty => simp [hd, runDecoded] at h
    | truncated =>
      rw [hd, runDecoded] at h
      exact .inr (.inl ⟨rfl, (Host.Outcome.next.inj h).symm⟩)
    | unrecognizedTag =>
      rw [hd, runDecoded] at h
      exact .inr (.inr ⟨rfl, (Host.Outcome.next.inj h).symm⟩)

/-- What executing or rejecting a chunk leaves alone. -/
theorem runDecoded_frame (c : Params) (bs : List Byte) (s t : State) (h : runDecoded (decodeChunk c bs) s = .next t) :
    t.enc = s.enc ∧ t.encOut = s.encOut ∧ t.frr = s.frr ∧ t.frrIn = s.frrIn ∧ t.frrOut = s.frrOut
      ∧ t.frwOut = s.frwOut ∧ t.decIn = s.decIn ∧ t.draws = s.draws ∧ t.events = s.events := by
  rcases runDecoded_cases _ _ _ _ h with ⟨i, rest, -, -, rfl⟩ | ⟨-, rfl⟩ | ⟨-, rfl⟩ <;>
    exact ⟨rfl, rfl, rfl, rfl, rfl, rfl, rfl, rfl, rfl⟩

/-- `Chunk` takes a step only where it is enabled (R101). -/
theorem decChunk_cases (c : Params) (s t : State) (h : decChunk c s = .next t) :
    s.dec.phase = .active ∧ ∃ bytes, s.decIn = .whole bytes ∧ s.dec.pos < bytes.length
      ∧ runDecoded (decodeChunk c (bytes.drop s.dec.pos)) s = .next t := by
  unfold decChunk at h
  split at h
  · split at h
    · split at h
      · exact ⟨‹_›, _, ‹_›, ‹_›, h⟩
      · cases h
    · cases h
  · cases h

/-- `Byte` takes a step only in an active byte-serial pass, and either executes a whole chunk or keeps the byte (R111). -/
theorem decByte_cases (c : Params) (b : Byte) (s t : State) (h : decByte c b s = .next t) :
    s.dec.phase = .active ∧ s.decIn = .serial ∧
      ((chunkComplete c (s.dec.buf ++ [b]) = true ∧
          runDecoded (decodeChunk c (s.dec.buf ++ [b])) (s.withBuf []) = .next t)
        ∨ (chunkComplete c (s.dec.buf ++ [b]) = false
          ∧ t = s.withBuf (s.dec.buf ++ [b]))) := by
  unfold decByte at h
  split at h
  · split at h
    · simp only at h
      split at h
      · exact ⟨‹_›, ‹_›, .inl ⟨‹_›, h⟩⟩
      · rename_i hc
        exact ⟨‹_›, ‹_›, .inr ⟨by simpa using hc, (Host.Outcome.next.inj h).symm⟩⟩
    · cases h
  · cases h

/-- `End` of `DEC` closes the pass, or reports a chunk that has not arrived whole (R101, R111). -/
theorem decEnd_cases (s t : State) (h : decEnd s = .next t) :
    s.dec.phase = .active ∧
      ((∃ bytes, s.decIn = .whole bytes ∧ s.dec.pos = bytes.length ∧ t = s.decDone)
        ∨ (s.decIn = .serial ∧ s.dec.buf = [] ∧ t = s.decDone)
        ∨ (s.decIn = .serial ∧ s.dec.buf ≠ [] ∧ t = s.decRaise .truncatedChunk s.dec.pos)) := by
  unfold decEnd at h
  split at h
  · split at h
    · split at h
      · exact ⟨‹_›, .inl ⟨_, ‹_›, ‹_›, (Host.Outcome.next.inj h).symm⟩⟩
      · cases h
    · split at h
      · exact ⟨‹_›, .inr (.inl ⟨‹_›, ‹_›, (Host.Outcome.next.inj h).symm⟩)⟩
      · exact ⟨‹_›, .inr (.inr ⟨‹_›, ‹_›, (Host.Outcome.next.inj h).symm⟩)⟩
  · cases h

/-- `Chunk` where it is enabled. -/
theorem decChunk_enabled (c : Params) (s : State) (bytes : List Byte) (hp : s.dec.phase = .active)
    (hi : s.decIn = .whole bytes) (hl : s.dec.pos < bytes.length) :
    decChunk c s = runDecoded (decodeChunk c (bytes.drop s.dec.pos)) s := by
  simp only [decChunk, hp, if_true, hi, hl]

/-- `Byte` where it completes a chunk. -/
theorem decByte_complete (c : Params) (b : Byte) (s : State) (hp : s.dec.phase = .active) (hi : s.decIn = .serial)
    (hc : chunkComplete c (s.dec.buf ++ [b]) = true) :
    decByte c b s = runDecoded (decodeChunk c (s.dec.buf ++ [b])) (s.withBuf []) := by
  simp only [decByte, hp, if_true, hi, hc]

/-- `Byte` where the chunk is still not whole. -/
theorem decByte_partial (c : Params) (b : Byte) (s : State) (hp : s.dec.phase = .active) (hi : s.decIn = .serial)
    (hc : chunkComplete c (s.dec.buf ++ [b]) = false) : decByte c b s = .next (s.withBuf (s.dec.buf ++ [b])) := by
  unfold decByte
  rw [if_pos hp]
  simp [hi, hc]

/-- `End` at the end of a chunk-level pass. -/
theorem decEnd_whole (s : State) (bytes : List Byte) (hp : s.dec.phase = .active) (hi : s.decIn = .whole bytes)
    (hl : s.dec.pos = bytes.length) : decEnd s = .next s.decDone := by
  simp only [decEnd, hp, if_true, hi, hl]

/-- A byte-serial `End` with an empty buffer. -/
theorem decEnd_serial (s : State) (hp : s.dec.phase = .active) (hi : s.decIn = .serial) (hb : s.dec.buf = []) :
    decEnd s = .next s.decDone := by
  simp only [decEnd, hp, if_true, hi, hb]

/-- A byte-serial `End` with bytes of a chunk still in the buffer (R111). -/
theorem decEnd_pending (s : State) (hp : s.dec.phase = .active) (hi : s.decIn = .serial) (hb : s.dec.buf ≠ []) :
    decEnd s = .next (s.decRaise .truncatedChunk s.dec.pos) := by
  unfold decEnd
  rw [if_pos hp]
  simp only [hi, hb, if_false]

/-! ## The framing records -/

/-- R123: the four outcomes of a header. -/
theorem execHeader_cases (m w h : BitVec 32) (ch cs : Byte) (s t : State) (ht : execHeader m w h ch cs s = .next t) :
    (m ≠ Config.params.magic ∧ t = s.frrRaise .invalidMagic 0)
    ∨ (m = Config.params.magic ∧ Config.channelsLegal ch = false
        ∧ t = (s.latchSize w h).frrRaise .unsupportedChannelCount 12)
    ∨ (m = Config.params.magic ∧ Config.channelsLegal ch = true ∧ Config.colorspaceLegal cs = false
        ∧ t = ((s.latchSize w h).latchChannels ch).frrRaise .unsupportedColorspace 13)
    ∨ (m = Config.params.magic ∧ Config.channelsLegal ch = true ∧ Config.colorspaceLegal cs = true
        ∧ t = ((s.latchSize w h).latchChannels ch).latchColorspace cs) := by
  unfold execHeader at ht
  split at ht
  · exact .inl ⟨‹_›, (Host.Outcome.next.inj ht).symm⟩
  · have hm : m = Config.params.magic := by simpa using ‹¬ m ≠ _›
    split at ht
    · exact .inr (.inl ⟨hm, by simpa using ‹(!Config.channelsLegal ch) = true›, (Host.Outcome.next.inj ht).symm⟩)
    · have hc : Config.channelsLegal ch = true := by simpa using ‹¬ (!Config.channelsLegal ch) = true›
      split at ht
      · exact .inr (.inr (.inl ⟨hm, hc, by simpa using ‹(!Config.colorspaceLegal cs) = true›,
          (Host.Outcome.next.inj ht).symm⟩))
      · exact .inr (.inr (.inr ⟨hm, hc, by simpa using ‹¬ (!Config.colorspaceLegal cs) = true›,
          (Host.Outcome.next.inj ht).symm⟩))

/-- A header changes `FRR` only. -/
theorem execHeader_frame (m w h : BitVec 32) (ch cs : Byte) (s t : State) (ht : execHeader m w h ch cs s = .next t) :
    ∃ f, t = { s with frr := f } := by
  rcases execHeader_cases _ _ _ _ _ _ _ ht with ⟨-, rfl⟩ | ⟨-, -, rfl⟩ | ⟨-, -, -, rfl⟩ | ⟨-, -, -, rfl⟩ <;>
    exact ⟨_, rfl⟩

/-- The end of a read changes `FRR` and adds one result. -/
theorem frrFinish_frame (s : State) (r : DecodeResult) :
    ∃ f o, s.frrFinish r = { s with frr := f, frrOut := s.frrOut ++ [o] } := by
  cases r <;> exact ⟨_, _, rfl⟩

/-- R141: a header with another magic. -/
theorem execHeader_magic (m w h : BitVec 32) (ch cs : Byte) (s : State) (hm : m ≠ Config.params.magic) :
    execHeader m w h ch cs s = .next (s.frrRaise .invalidMagic 0) := if_pos hm

/-- R142: a header with the magic and an illegal channel byte. -/
theorem execHeader_channels (w h : BitVec 32) (ch cs : Byte) (s : State) (hc : Config.channelsLegal ch = false) :
    execHeader Config.params.magic w h ch cs s = .next ((s.latchSize w h).frrRaise .unsupportedChannelCount 12) := by
  simp [execHeader, hc]

/-- R143: a header with the magic, a legal channel byte and an illegal colorspace byte. -/
theorem execHeader_colorspace (w h : BitVec 32) (ch cs : Byte) (s : State) (hc : Config.channelsLegal ch = true)
    (hs : Config.colorspaceLegal cs = false) :
    execHeader Config.params.magic w h ch cs s
      = .next (((s.latchSize w h).latchChannels ch).frrRaise .unsupportedColorspace 13) := by
  simp [execHeader, hc, hs]

/-- R123: a header that passes every check. -/
theorem execHeader_legal (w h : BitVec 32) (ch cs : Byte) (s : State) (hc : Config.channelsLegal ch = true)
    (hs : Config.colorspaceLegal cs = true) :
    execHeader Config.params.magic w h ch cs s
      = .next (((s.latchSize w h).latchChannels ch).latchColorspace cs) := by
  simp [execHeader, hc, hs]

/-- The header decoder answers headers only. -/
theorem decodeHeader_cases (bs : List Byte) (i : Instr) (rest : List Byte) (h : decodeHeader bs = .ok i rest) :
    ∃ m w ht ch cs, i = .header m w ht ch cs := by
  unfold decodeHeader at h
  split at h <;> cases h
  exact ⟨_, _, _, _, _, rfl⟩

/-- The marker decoder answers end markers only. -/
theorem decodeMarker_cases (bs : List Byte) (i : Instr) (rest : List Byte) (h : decodeMarker bs = .ok i rest) :
    ∃ k, i = .endMarker k := by
  unfold decodeMarker at h
  split at h <;> cases h
  exact ⟨_, rfl⟩

/-- What a framing record that was read can do. -/
theorem runFraming_cases (what : Decoded) (s t : State) (h : runFraming what s = .next t) :
    ∃ i rest, what = .ok i rest ∧ exec i s = .next t := by
  cases what with
  | ok i rest => exact ⟨i, rest, rfl, h⟩
  | bad why => cases h

/-- The header event where it is enabled runs the header that was read. -/
theorem frrHeader_enabled (s : State) (i : Instr) (rest : List Byte) (hp : s.frr.phase = .header)
    (hd : decodeHeader s.frrIn = .ok i rest) : frrHeader s = exec i s := by
  simp only [frrHeader, hp, if_true, hd, runFraming]

/-- The marker event where it is enabled runs the end marker that was read. -/
theorem frrMarker_enabled (s : State) (i : Instr) (rest : List Byte) (hp : s.frr.phase = .marker)
    (hd : decodeMarker (markerBytes s.frrIn) = .ok i rest) : frrMarker s = exec i s := by
  simp only [frrMarker, hp, if_true, hd, runFraming]

/-- `FRW` where its preconditions hold. -/
theorem frwWrite_enabled (c : Params) (w h : BitVec 32) (ch cs : Byte) (ps : List Pixel) (s : State)
    (hc : Config.channelsLegal ch = true) (hs : Config.colorspaceLegal cs = true) (hn : countFlag w h ps = true) :
    frwWrite c w h ch cs ps s = .next { s with frwOut := s.frwOut ++ [persisted c w h ch cs ps] } := by
  simp [frwWrite, hc, hs, hn]

/-! ## One step -/

/-- Everything one step can do: it takes the oldest event, and the event's unit answers a next state. -/
theorem step_cases (s t : State) (h : step s = .next t) :
    ∃ e rest, s.events = e :: rest ∧ react Config.params e (s.withEvents rest) = .next t := by
  unfold step takeEvent at h
  split at h
  · cases h
  · exact ⟨_, _, ‹_›, h⟩

/-- What an event's unit has done when it answers a next state: where it has a step, and the state it goes to. -/
def Effect (c : Params) (s t : State) : Event → Prop
  | .encStart => t = s.encStart
  | .encPix p => s.enc.phase = .active ∧ t = s.withEnc (s.enc.pix c p)
  | .encEnd => s.enc.phase = .active ∧ t = s.withEnc (s.enc.stop c)
  | .decStart input => t = s.decStart input
  | .decChunk => s.dec.phase = .active ∧ ∃ bytes, s.decIn = .whole bytes ∧ s.dec.pos < bytes.length
      ∧ runDecoded (decodeChunk c (bytes.drop s.dec.pos)) s = .next t
  | .decByte b => s.dec.phase = .active ∧ s.decIn = .serial ∧
      ((chunkComplete c (s.dec.buf ++ [b]) = true ∧
          runDecoded (decodeChunk c (s.dec.buf ++ [b])) (s.withBuf []) = .next t)
        ∨ (chunkComplete c (s.dec.buf ++ [b]) = false
          ∧ t = s.withBuf (s.dec.buf ++ [b])))
  | .decEnd => s.dec.phase = .active ∧
      ((∃ bytes, s.decIn = .whole bytes ∧ s.dec.pos = bytes.length ∧ t = s.decDone)
        ∨ (s.decIn = .serial ∧ s.dec.buf = [] ∧ t = s.decDone)
        ∨ (s.decIn = .serial ∧ s.dec.buf ≠ [] ∧ t = s.decRaise .truncatedChunk s.dec.pos))
  | .frrStart bytes => shortestStream ≤ bytes.length ∧ t = s.frrStart bytes
  | .frrHeader => s.frr.phase = .header ∧ ∃ m w h ch cs rest,
      decodeHeader s.frrIn = .ok (.header m w h ch cs) rest ∧ execHeader m w h ch cs s = .next t
  | .frrMarker => s.frr.phase = .marker ∧ ∃ k rest,
      decodeMarker (markerBytes s.frrIn) = .ok (.endMarker k) rest ∧ t = s.latchMarker (endMarkerFlag k)
  | .frrDecode => s.frr.phase = .decode ∧ t = s.frrFinish (decodeStream c (chunkBytes s.frrIn))
  | .frwWrite w h ch cs ps => Config.channelsLegal ch = true ∧ Config.colorspaceLegal cs = true
      ∧ countFlag w h ps = true ∧ t = { s with frwOut := s.frwOut ++ [persisted c w h ch cs ps] }

theorem react_effect (c : Params) (e : Event) (s t : State) (h : react c e s = .next t) : Effect c s t e := by
  cases e with
  | encStart => exact (Host.Outcome.next.inj h).symm
  | encPix p =>
    simp only [react, encPix] at h
    split at h
    · exact ⟨‹_›, (Host.Outcome.next.inj h).symm⟩
    · cases h
  | encEnd =>
    simp only [react, encEnd] at h
    split at h
    · exact ⟨‹_›, (Host.Outcome.next.inj h).symm⟩
    · cases h
  | decStart input => exact (Host.Outcome.next.inj h).symm
  | decChunk => exact decChunk_cases c s t h
  | decByte b => exact decByte_cases c b s t h
  | decEnd => exact decEnd_cases s t h
  | frrStart bytes =>
    simp only [react, frrStart] at h
    split at h
    · cases h
    · exact ⟨Nat.le_of_not_lt ‹_›, (Host.Outcome.next.inj h).symm⟩
  | frrHeader =>
    simp only [react, frrHeader] at h
    split at h
    · obtain ⟨i, rest, hd, hx⟩ := runFraming_cases _ s t h
      obtain ⟨m, w, ht, ch, cs, rfl⟩ := decodeHeader_cases _ _ _ hd
      exact ⟨‹_›, m, w, ht, ch, cs, rest, hd, hx⟩
    · cases h
  | frrMarker =>
    simp only [react, frrMarker] at h
    split at h
    · obtain ⟨i, rest, hd, hx⟩ := runFraming_cases _ s t h
      obtain ⟨k, rfl⟩ := decodeMarker_cases _ _ _ hd
      exact ⟨‹_›, k, rest, hd, (Host.Outcome.next.inj hx).symm⟩
    · cases h
  | frrDecode =>
    simp only [react, frrDecode] at h
    split at h
    · exact ⟨‹_›, (Host.Outcome.next.inj h).symm⟩
    · cases h
  | frwWrite w ht ch cs ps =>
    simp only [react, frwWrite] at h
    split at h
    · cases h
    split at h
    · cases h
    split at h
    · cases h
    exact ⟨by simp_all, by simp_all, by simp_all, (Host.Outcome.next.inj h).symm⟩

/-- A step from a state whose oldest event is known has that event's effect, with the event taken. -/
theorem step_effect (s t : State) (e : Event) (rest : List Event) (he : s.events = e :: rest) (h : step s = .next t) :
    Effect Config.params (s.withEvents rest) t e := by
  obtain ⟨e', rest', he', h'⟩ := step_cases s t h
  cases he.symm.trans he'
  exact react_effect _ _ _ _ h'

/-- A step on a state whose oldest event is known. -/
theorem step_of_events (s : State) (e : Event) (rest : List Event) (h : s.events = e :: rest) :
    step s = react Config.params e (s.withEvents rest) := by
  unfold step takeEvent
  rw [h]
  rfl

/-- The equation of a run of any machine of the host's interface. -/
theorem run_succ (M : Host.Core) (k : Nat) (s : M.State) :
    M.run (k + 1) s =
      (match M.step s with
      | .next s' => M.run k s'
      | .fault r => .fault r
      | .refused r => .refused r) := rfl

theorem run_succ_of_core_step (M : Host.Core) (k : Nat) (s t : M.State) (h : M.step s = .next t) :
    M.run (k + 1) s = M.run k t := by
  rw [run_succ, h]

/-- `k + 1` steps are one step and then `k`. -/
theorem run_succ_of_step (k : Nat) (s t : State) (h : step s = .next t) : core.run (k + 1) s = core.run k t :=
  run_succ_of_core_step core k s t h

/-- Runs put together. -/
theorem run_add (M : Host.Core) (j k : Nat) (s t : M.State) (h : M.run j s = .next t) :
    M.run (j + k) s = M.run k t := by
  induction j generalizing s with
  | zero =>
    cases h
    simp
  | succ j ih =>
    rw [run_succ] at h
    cases hs : M.step s with
    | next u =>
      rw [hs] at h
      rw [Nat.add_right_comm, run_succ_of_core_step M _ s u hs]
      exact ih u h
    | fault r => rw [hs] at h; cases h
    | refused r => rw [hs] at h; cases h

end Sys2Proof.Machine
end

