-- ==== Sys2Proof/Laws/Decoder.lean ====
section
/-! SUPPORT. Chunk-level decoding of a stretch of a stream, said once as a relation (`Walk`), and what `Chunk` events and a whole
pass do in terms of it. -/

namespace Sys2Proof.Machine

/-- From `d`, the `n` chunks that `bytes` consist of are executed one after another, which leads to `d'` and outputs `out`. -/
inductive Walk (c : Params) : DecUnit → List Byte → Nat → DecUnit → List Pixel → Prop
  | nil (d : DecUnit) : Walk c d [] 0 d []
  | cons {d d' : DecUnit} {bytes rest : List Byte} {n : Nat} {out : List Pixel} {i : Instr} :
      decodeChunk c bytes = .ok i rest → Walk c (d.writeBack (chunkPixel d i) i.len) rest n d' out →
      Walk c d bytes (n + 1) d' (List.replicate (chunkCount i) (chunkPixel d i) ++ out)

variable {c : Params} {d d' : DecUnit} {n : Nat} {out : List Pixel}

/-- What a walk does to the position, and what it leaves alone. -/
theorem Walk.facts {bytes : List Byte} (h : Walk c d bytes n d' out) :
    d'.pos = d.pos + bytes.length ∧ d'.buf = d.buf ∧ d'.err = d.err ∧ d'.phase = d.phase ∧ n ≤ bytes.length := by
  induction h with
  | nil => simp
  | @cons _ _ _ _ _ _ i hd _ ih =>
    obtain ⟨g1, g2, g3, g4, g5⟩ := ih
    have h3 := i.one_le_len
    rw [decodeChunk_bytes _ _ _ _ hd, List.length_append, encode_length]
    simp only [DecUnit.writeBack] at g1
    exact ⟨by omega, g2, g3, g4, by omega⟩

/-- Walks put together. -/
theorem Walk.append {d'' : DecUnit} {a b : List Byte} {m : Nat} {out' : List Pixel} (h : Walk c d a n d' out)
    (h' : Walk c d' b m d'' out') : Walk c d (a ++ b) (n + m) d'' (out ++ out') := by
  induction h with
  | nil => simpa using h'
  | @cons d _ bytes rest n out i hd _ ih =>
    have := Walk.cons (d := d) (decodeChunk_append c _ _ (rest ++ b) _ hd) (ih h')
    rw [decodeChunk_bytes _ _ _ _ hd, List.append_assoc, List.append_assoc, Nat.add_right_comm]
    exact this

/-- The pixel of a chunk does not depend on the error register. -/
theorem chunkPixel_err (d : DecUnit) (e : ErrReg) (i : Instr) : chunkPixel { d with err := e } i = chunkPixel d i := by
  cases i <;> rfl

/-- A walk does not depend on the error register. -/
theorem Walk.withErr {bytes : List Byte} (h : Walk c d bytes n d' out) (e : ErrReg) :
    Walk c { d with err := e } bytes n { d' with err := e } out := by
  induction h with
  | nil => exact .nil _
  | @cons d _ _ _ _ _ _ hd _ ih =>
    have := Walk.cons (d := { d with err := e }) hd (by rw [chunkPixel_err]; exact ih)
    rwa [chunkPixel_err] at this

/-- Every stream is a walk followed by nothing, or by bytes that the decoder rejects. -/
theorem Walk.exists (c : Params) (bytes : List Byte) (d : DecUnit) :
    ∃ pre tail n d' out, bytes = pre ++ tail ∧ Walk c d pre n d' out
      ∧ (tail = [] ∨ decodeChunk c tail = .bad .truncated ∨ decodeChunk c tail = .bad .unrecognizedTag) := by
  induction hl : bytes.length using Nat.strong_induction_on generalizing bytes d with
  | _ l ih =>
    cases hd : decodeChunk c bytes with
    | ok i rest =>
      have h1 := decodeChunk_bytes _ _ _ _ hd
      have h2 : rest.length < l := by
        have := i.one_le_len
        rw [← hl, h1, List.length_append, encode_length]
        omega
      obtain ⟨pre, tail, n, d', out, g1, g2, g3⟩ := ih _ h2 rest (d.writeBack (chunkPixel d i) i.len) rfl
      refine ⟨encode c i ++ pre, tail, n + 1, d', _, ?_, .cons (decodeChunk_append c _ _ pre _ hd) g2, g3⟩
      rw [List.append_assoc, ← g1, ← h1]
    | bad why =>
      refine ⟨[], bytes, 0, d, [], rfl, .nil d, ?_⟩
      cases why with
      | empty => exact .inl (decodeChunk_empty c bytes hd)
      | truncated => exact .inr (.inl hd)
      | unrecognizedTag => exact .inr (.inr hd)

/-- One chunk is a walk. -/
theorem Walk.one {i : Instr} (d : DecUnit) (h : decodeChunk c (encode c i) = .ok i []) :
    Walk c d (encode c i) 1 (d.writeBack (chunkPixel d i) i.len)
      (List.replicate (chunkCount i) (chunkPixel d i)) := by
  have := Walk.cons (d := d) h (.nil _)
  rwa [List.append_nil] at this

/-! ## `Chunk` events -/

/-- The state with the decoder and its output as a walk leaves them. -/
def State.walked (s : State) (d : DecUnit) (out : List Pixel) : State := { s with dec := d, decOut := s.decOut ++ out }

/-- `Chunk` on a whole chunk. -/
theorem decChunk_ok (s : State) (input rest : List Byte) (i : Instr) (hp : s.dec.phase = .active)
    (hi : s.decIn = .whole input) (hd : decodeChunk c (input.drop s.dec.pos) = .ok i rest) :
    decChunk c s = .next (s.walked (s.dec.writeBack (chunkPixel s.dec i) i.len)
      (List.replicate (chunkCount i) (chunkPixel s.dec i))) := by
  have hlt : s.dec.pos < input.length := by
    by_contra h
    rw [List.drop_eq_nil_of_le (by omega)] at hd
    cases hd
  rw [decChunk_enabled c s input hp hi hlt, hd]
  exact exec_chunk i s (decodeChunk_place _ _ _ _ hd)

/-- `Chunk` on a truncated chunk. -/
theorem decChunk_truncated (s : State) (input : List Byte) (hp : s.dec.phase = .active) (hi : s.decIn = .whole input)
    (hd : decodeChunk c (input.drop s.dec.pos) = .bad .truncated) :
    decChunk c s = .next (s.decRaise .truncatedChunk s.dec.pos) := by
  have hlt : s.dec.pos < input.length := by
    by_contra h
    rw [List.drop_eq_nil_of_le (by omega)] at hd
    cases hd
  rw [decChunk_enabled c s input hp hi hlt, hd]
  rfl

/-- What is left of the stream after a chunk. -/
theorem drop_writeBack (d : DecUnit) (input bytes rest tail : List Byte) (i : Instr) (px : Pixel)
    (hd : decodeChunk c bytes = .ok i rest) (h : input.drop d.pos = bytes ++ tail) :
    input.drop (d.writeBack px i.len).pos = rest ++ tail := by
  have h2 := encode_length c i
  simp only [DecUnit.writeBack]
  rw [← List.drop_drop, h, decodeChunk_bytes _ _ _ _ hd, List.append_assoc,
    List.drop_append_of_le_length (by omega), ← h2]
  simp

theorem decChunks_refused (n : Nat) (s : State) (h : ∃ r, decChunk c s = .refused r) : decChunks c n s = s := by
  cases n with
  | zero => rfl
  | succ n =>
    obtain ⟨r, hr⟩ := h
    simp only [decChunks, hr]

/-- The first `n` of `n + m` chunks are the walk. -/
theorem decChunks_walk {pre : List Byte} (h : Walk c d pre n d' out) :
    ∀ (s : State) (input tail : List Byte) (m : Nat), s.dec = d → s.decIn = .whole input → d.phase = .active →
      input.drop d.pos = pre ++ tail → decChunks c (n + m) s = decChunks c m (s.walked d' out) := by
  induction h with
  | nil d =>
    rintro s input tail m rfl hi hp hd
    simp [State.walked]
  | @cons _ _ bytes rest n out i hd _ ih =>
    rintro s input tail m rfl hi hp hdr
    have hok := decChunk_ok (c := c) s input (rest ++ tail) i hp hi
      (by rw [hdr, decodeChunk_bytes _ _ _ _ hd, List.append_assoc]; exact decodeChunk_append _ _ _ _ _ hd)
    rw [Nat.add_right_comm, decChunks, hok]
    refine (ih (s.walked (s.dec.writeBack (chunkPixel s.dec i) i.len)
      (List.replicate (chunkCount i) (chunkPixel s.dec i))) input tail m rfl hi hp
      (drop_writeBack _ input bytes rest tail i _ hd hdr)).trans ?_
    simp [State.walked]

/-- A pass over a stream that is all chunks. -/
theorem decodePass_whole (s : State) (input : List Byte)
    (h : Walk c (DecUnit.start (Config.freeOffset s.draws)) input n d' out) :
    decodePass c input s = ((s.decStart (.whole input)).walked d' out).decDone := by
  obtain ⟨f1, f2, f3, f4, f5⟩ := h.facts
  have hp : d'.phase = .active := f4
  obtain ⟨m, hm⟩ := Nat.exists_eq_add_of_le f5
  have e : decChunks c input.length (s.decStart (.whole input)) = (s.decStart (.whole input)).walked d' out := by
    rw [hm, decChunks_walk h (s.decStart (.whole input)) input [] m rfl rfl rfl (by simp)]
    exact decChunks_refused _ _ ⟨.decExhausted, by simp [decChunk, State.walked, hp, f1]⟩
  unfold decodePass
  simp only [e]
  rw [decEnd_whole _ input hp rfl (by simp [State.walked, f1])]

/-- A pass over a stream whose last chunk is truncated. -/
theorem decodePass_truncated (s : State) (pre tail : List Byte)
    (h : Walk c (DecUnit.start (Config.freeOffset s.draws)) pre n d' out) (ht : decodeChunk c tail = .bad .truncated) :
    decodePass c (pre ++ tail) s
      = ((s.decStart (.whole (pre ++ tail))).walked d' out).decRaise .truncatedChunk d'.pos := by
  obtain ⟨f1, f2, f3, f4, f5⟩ := h.facts
  have hp : d'.phase = .active := f4
  have f1 : d'.pos = pre.length := by
    rw [f1]
    simp
  have htl : 1 ≤ tail.length := List.length_pos_iff.mpr (by rintro rfl; cases ht)
  obtain ⟨m, hm⟩ := Nat.exists_eq_add_of_le f5
  have e : decChunks c (pre ++ tail).length (s.decStart (.whole (pre ++ tail)))
      = ((s.decStart (.whole (pre ++ tail))).walked d' out).decRaise .truncatedChunk d'.pos := by
    rw [show (pre ++ tail).length = n + ((m + (tail.length - 1)) + 1) by rw [List.length_append]; omega,
      decChunks_walk h (s.decStart (.whole (pre ++ tail))) (pre ++ tail) tail _ rfl rfl rfl (by simp), decChunks,
      decChunk_truncated ((s.decStart (.whole (pre ++ tail))).walked d' out) (pre ++ tail) hp rfl
        (by simp only [State.walked, f1, List.drop_left]; exact ht)]
    exact decChunks_refused _ _ ⟨.decNotActive, by simp [decChunk]⟩
  unfold decodePass
  simp only [e]
  rw [show decEnd (((s.decStart (.whole (pre ++ tail))).walked d' out).decRaise .truncatedChunk d'.pos)
    = .refused .decNotActive by simp [decEnd]]

end Sys2Proof.Machine
end

