-- ==== Sys2Proof/Laws/Encoder.lean ====
section
/-! SUPPORT. What the encoder's operations do: the flush, one pixel, a stretch of pixels that equal `prev`, and sequences put
together. -/

namespace Sys2Proof.Machine

variable (c : Params) (u : EncUnit)

/-! ## Flush, and the registers after one pixel -/

/-- R84: what a flush leaves. -/
theorem EncUnit.flush_unit : (u.flush c).1 = { u with run := 0 } := by
  unfold flush
  split
  · rename_i h
    rw [← h]
  · rfl

theorem EncUnit.flush_of_zero (h : u.run = 0) : u.flush c = (u, []) := by simp only [flush, h, if_true]

/-- R84: the byte of a pending run. -/
theorem EncUnit.flush_of_ne (h : u.run ≠ 0) :
    u.flush c = ({ u with run := 0 }, [c.tagRun ++ (u.run - 1)]) := by simp only [flush, h, if_false, encode]

/-- R90: after a pixel of any class. -/
theorem EncUnit.pix_regs (p : Pixel) :
    (u.pix c p).1.cache = u.cache.write (pixelHash p) p ∧ (u.pix c p).1.prev = p ∧ (u.pix c p).1.phase = u.phase := by
  unfold pix
  split
  · subst_vars
    unfold absorb
    simp only
    split
    · rw [flush_unit]
      exact ⟨rfl, rfl, rfl⟩
    · exact ⟨rfl, rfl, rfl⟩
  · simp only [flush_unit]
    exact ⟨rfl, rfl, rfl⟩

/-- R82: a pixel that differs from `prev`: the flush, then the chunk of the pixel's class. -/
theorem EncUnit.pix_of_ne (p : Pixel) (h : p ≠ u.prev) :
    u.pix c p = (({ u with run := 0 } : EncUnit).update p, (u.flush c).2 ++ encode c (u.classify p)) := by
  simp only [pix, h, if_false, flush_unit]

/-- R82: a chunk of the classes 2 to 5 has 1 to 5 bytes. -/
theorem EncUnit.classify_length (p : Pixel) :
    1 ≤ (encode c (u.classify p)).length ∧ (encode c (u.classify p)).length ≤ 5 := by
  unfold classify
  repeat' split
  all_goals simp [encode, diffChunk, lumaChunk]

/-! ## Sequences of pixels -/

theorem EncUnit.feed_append (ps qs : List Pixel) :
    u.feed c (ps ++ qs)
      = (((u.feed c ps).1.feed c qs).1, (u.feed c ps).2 ++ ((u.feed c ps).1.feed c qs).2) := by
  induction ps generalizing u with
  | nil => simp [feed]
  | cons p ps ih => simp only [List.cons_append, feed, ih, List.append_assoc]

theorem EncUnit.feed_phase (ps : List Pixel) : (u.feed c ps).1.phase = u.phase := by
  induction ps generalizing u with
  | nil => rfl
  | cons p ps ih => simp only [feed, ih, (pix_regs ..).2.2]

/-! ## Runs -/

/-- The encoder after one or more pixels that equalled `prev`, with `r` of them pending. -/
def EncUnit.ran (u : EncUnit) (r : BitVec 6) : EncUnit :=
  ⟨u.prev, u.cache.write (pixelHash u.prev) u.prev, r, u.phase⟩

@[simp] theorem EncUnit.ran_prev (r : BitVec 6) : (u.ran r).prev = u.prev := rfl
@[simp] theorem EncUnit.ran_run (r : BitVec 6) : (u.ran r).run = r := rfl
@[simp] theorem EncUnit.ran_phase (r : BitVec 6) : (u.ran r).phase = u.phase := rfl
@[simp] theorem EncUnit.ran_ran (r r' : BitVec 6) : (u.ran r).ran r' = u.ran r' := by
  simp only [ran, Cache.write_write]

/-- R83, below the cap. -/
theorem EncUnit.pix_run_lt (h : u.run.toNat + 1 < c.maxRun) (hm : c.maxRun ≤ 63) :
    u.pix c u.prev = (u.ran (u.run + 1), []) := by
  have : (u.run + 1).toNat ≠ c.maxRun := by
    rw [BitVec.toNat_add]
    simp
    omega
  simp only [pix, if_true, absorb, this, if_false]
  rfl

/-- R83, at the cap. -/
theorem EncUnit.pix_run_cap (h : u.run.toNat + 1 = c.maxRun) (hm : c.maxRun ≤ 63) :
    u.pix c u.prev = (u.ran 0, [c.tagRun ++ u.run]) := by
  have e : (u.run + 1).toNat = c.maxRun := by
    rw [BitVec.toNat_add]
    simp
    omega
  have h0 : u.run + 1 ≠ 0 := by
    intro h0
    rw [h0] at e
    simp at e
    omega
  simp only [pix, if_true, absorb, e, flush, h0, if_false, encode, BitVec.add_sub_cancel]
  rfl

/-- A stretch of pixels equal to `prev` that stays below the cap emits nothing. -/
theorem EncUnit.feed_run_lt (hm : c.maxRun ≤ 63) (j : Nat) (h : u.run.toNat + (j + 1) < c.maxRun) :
    u.feed c (List.replicate (j + 1) u.prev) = (u.ran (BitVec.ofNat 6 (u.run.toNat + (j + 1))), []) := by
  induction j generalizing u with
  | zero =>
    simp only [List.replicate, feed, pix_run_lt c u h hm, List.append_nil]
    rfl
  | succ j ih =>
    rw [List.replicate_succ, feed, pix_run_lt c u (by omega) hm]
    have hr : (u.run + 1).toNat = u.run.toNat + 1 := by
      rw [BitVec.toNat_add]
      simp
      omega
    have := ih (u.ran (u.run + 1)) (by simp only [ran_run, hr]; omega)
    simp only [ran_prev, ran_run, ran_ran, hr] at this
    simp only [this, List.append_nil]
    congr 3
    omega

/-- The same, from no pending run. -/
theorem EncUnit.feed_run_zero (hm : c.maxRun ≤ 63) (j : Nat) (h : u.run = 0) (hj : j + 1 < c.maxRun) :
    u.feed c (List.replicate (j + 1) u.prev) = (u.ran (BitVec.ofNat 6 (j + 1)), []) := by
  have hz : u.run.toNat + (j + 1) = j + 1 := by
    rw [h]
    simp
  rw [feed_run_lt c u hm j (by omega), hz]

/-- As many pixels equal to `prev` as the cap, from no pending run, emit one full RUN chunk. -/
theorem EncUnit.feed_run_cap (hm : 1 ≤ c.maxRun ∧ c.maxRun ≤ 63) (h : u.run = 0) :
    u.feed c (List.replicate c.maxRun u.prev) = (u.ran 0, [c.tagRun ++ BitVec.ofNat 6 (c.maxRun - 1)]) := by
  by_cases h1 : c.maxRun = 1
  · have := pix_run_cap c u (by rw [h, h1]; rfl) hm.2
    rw [h1]
    simp only [List.replicate, feed, this, h]
    rfl
  · obtain ⟨j, hj⟩ : ∃ j, c.maxRun = (j + 1) + 1 := ⟨c.maxRun - 2, by omega⟩
    have h1 := feed_run_zero c u hm.2 j h (by omega)
    have hr : (BitVec.ofNat 6 (j + 1)).toNat = j + 1 := by
      simp
      omega
    have h2 := pix_run_cap c (u.ran (BitVec.ofNat 6 (j + 1))) (by simp only [ran_run, hr]; omega) hm.2
    simp only [ran_prev, ran_ran, ran_run] at h2
    rw [hj, List.replicate_succ', feed_append, h1]
    simp only [feed, h2, List.append_nil, List.nil_append, Nat.add_sub_cancel]

/-- A sequence that does not begin with `prev` begins with the flush of the pending run. -/
theorem EncUnit.feed_flush (ps : List Pixel) (h : ∀ p tl, ps = p :: tl → p ≠ u.prev) :
    (u.feed c ps).2 ++ ((u.feed c ps).1.stop c).2
      = (u.flush c).2 ++ ((({ u with run := 0 } : EncUnit).feed c ps).2
          ++ ((({ u with run := 0 } : EncUnit).feed c ps).1.stop c).2) := by
  cases ps with
  | nil =>
    simp only [feed, stop, List.nil_append]
    rw [flush_of_zero c { u with run := 0 } rfl, List.append_nil]
  | cons p ps =>
    have hp := h p ps rfl
    simp only [feed, pix_of_ne c u p hp, pix_of_ne c { u with run := 0 } p hp,
      flush_of_zero c { u with run := 0 } rfl, List.nil_append, List.append_assoc]
    rfl

end Sys2Proof.Machine
end

