-- ==== Sys2Proof/Laws/PerInstr.lean ====
section
/-! SUPPORT. Facts about every instruction as syntax, one lemma per constructor. `EncodedLength`: under all parameters an
instruction's encoding has the length that R4 and R51 give its kind. -/

namespace Sys2Proof.Laws

def EncodedLength.Statement (i : Instr) : Prop := ∀ c : Params, (encode c i).length = i.len

theorem EncodedLength.rgb (r g b : Byte) : EncodedLength.Statement (.rgb r g b) := fun _ => rfl
theorem EncodedLength.rgba (r g b a : Byte) : EncodedLength.Statement (.rgba r g b a) := fun _ => rfl
theorem EncodedLength.index (slot : BitVec 6) : EncodedLength.Statement (.index slot) := fun _ => rfl
theorem EncodedLength.diff (dr dg db : BitVec 2) : EncodedLength.Statement (.diff dr dg db) := fun _ => rfl
theorem EncodedLength.luma (dg : BitVec 6) (drdg dbdg : BitVec 4) : EncodedLength.Statement (.luma dg drdg dbdg) :=
  fun _ => rfl
theorem EncodedLength.run (n : BitVec 6) : EncodedLength.Statement (.run n) := fun _ => rfl
theorem EncodedLength.header (m w h : BitVec 32) (ch cs : Byte) : EncodedLength.Statement (.header m w h ch cs) :=
  fun _ => rfl
theorem EncodedLength.endMarker (k : BitVec 64) : EncodedLength.Statement (.endMarker k) := fun _ => rfl

end Sys2Proof.Laws
end

