-- ==== Sys2Proof/Tests/Slice0.lean ====
section
/-! SUPPORT. Tests by hand-computed values of the spec (30_encoding.md section 2 and the vectors T-… of 95_test_vectors.md), the smoke
test of `WellFormed`, and for every obligation with hypotheses a concrete state and operands that meet them. -/

namespace Sys2Proof.Tests

open Sys2Proof Sys2Proof.Machine

/-! ## Small states -/

/-- The pixels `A`, `B`, `K`, `W`, `Z` of 95_test_vectors.md. -/
def pA : Pixel := ⟨10, 20, 30, 255⟩
def pB : Pixel := ⟨200, 100, 50, 255⟩
def pK : Pixel := ⟨0, 0, 0, 255⟩
def pW : Pixel := ⟨255, 255, 255, 255⟩
def pZ : Pixel := ⟨0, 0, 0, 0⟩

/-- The state once `ENC` and `DEC` have taken a `Start`, with one event waiting. -/
def withEvent (e : Event) : State := { State.reset with enc := EncUnit.start, dec := DecUnit.start 0, events := [e] }

/-- A decoder that has read `before` and is about to execute a chunk at the head of `bytes`; its previous pixel is `prev`. -/
def chunkState (prev : Pixel) (before bytes : List Byte) : State :=
  { State.reset with
    dec := { DecUnit.start 0 with prev := prev, pos := before.length }, decIn := .whole (before ++ bytes),
    events := [.decChunk] }

theorem chunkState_atChunk (prev : Pixel) (before bytes : List Byte) :
    AtChunk (chunkState prev before bytes) [] bytes :=
  ⟨rfl, rfl, _, rfl, List.drop_left' rfl⟩

/-- A byte-serial decoder with `buf` in its buffer and one event waiting. -/
def serialState (buf : List Byte) (e : Event) : State :=
  { State.reset with dec := { DecUnit.start 0 with buf := buf }, decIn := .serial, events := [e] }

/-- A decoder in a given phase with one event waiting. -/
def decAt (phase : DecPhase) (e : Event) : State :=
  { State.reset with dec := { DecUnit.start 0 with phase := phase }, events := [e] }

/-- A reader of `bytes` in a given phase with one event waiting. -/
def frrAt (phase : FrrPhase) (bytes : List Byte) (e : Event) : State :=
  { State.reset with frr := { State.reset.frr with phase := phase }, frrIn := bytes, events := [e] }

/-- An encoder with a given previous pixel, cache and pending run, and one event waiting. -/
def encState (prev : Pixel) (cache : Cache) (run : BitVec 6) (e : Event) : State :=
  { State.reset with enc := { EncUnit.start with prev := prev, cache := cache, run := run }, events := [e] }

/-- T-F1: the persisted stream of the two pixels `A`, `A`. -/
def fileF1 : List Byte :=
  [0x71, 0x6F, 0x69, 0x66, 0, 0, 0, 2, 0, 0, 0, 1, 4, 0] ++ [0xFE, 0x0A, 0x14, 0x1E, 0xC0] ++ [0, 0, 0, 0, 0, 0, 0, 1]

/-- The state a step answers, for reading a field of it. -/
def after (o : Outcome) : Option State :=
  match o with
  | .next t => some t
  | .fault _ => none
  | .refused _ => none

/-! ## WellFormed: each check refuses an ill-formed term -/

theorem test_wf_index_sentinel : (Instr.index 5).wf { Config.params with opRgb := 0x05 } = false := by decide
theorem test_wf_diff_sentinel : (Instr.diff 2 2 2).wf { Config.params with opRgba := 0x6A } = false := by decide
theorem test_wf_luma_sentinel : (Instr.luma 0 8 8).wf { Config.params with opRgb := 0x80 } = false := by decide
theorem test_wf_run_sentinel : (Instr.run 63).wf { Config.params with maxRun := 64 } = false := by decide
theorem test_wf_run_cap :
    (Instr.run 61).wf Config.params = true ∧ (Instr.run 61).wf { Config.params with maxRun := 61 } = false := by decide
theorem test_wf_header_magic : (Instr.header 0x716F6967 1 1 4 0).wf Config.params = false := by decide
theorem test_wf_header_channels : (Instr.header 0x716F6966 1 1 5 0).wf Config.params = false := by decide
theorem test_wf_header_colorspace : (Instr.header 0x716F6966 1 1 3 2).wf Config.params = false := by decide
theorem test_wf_end_marker : (Instr.endMarker 0x0100000000000000).wf Config.params = false := by decide

/-! ## Decoding: words written bit by bit from 30_encoding.md rules R52 to R57 and 43_framing.md rule R120 -/

theorem test_decode_rgb :
    decodeChunk Config.params [0b11111110, 0b00001010, 0b00010100, 0b00011110, 0b11111111]
      = .ok (.rgb 10 20 30) [0b11111111] := by decide
theorem test_decode_rgba :
    decodeChunk Config.params [0b11111111, 0b11111110, 0b11111111, 0b00000000, 0b10000000]
      = .ok (.rgba 254 255 0 128) [] := by decide
theorem test_decode_index : decodeChunk Config.params [0b00110101] = .ok (.index 53) [] := by decide
theorem test_decode_diff : decodeChunk Config.params [0b01000110] = .ok (.diff 0 1 2) [] := by decide
theorem test_decode_luma : decodeChunk Config.params [0b10111111, 0b11110000] = .ok (.luma 63 15 0) [] := by decide
theorem test_decode_run : decodeChunk Config.params [0b11001100] = .ok (.run 12) [] := by decide
theorem test_decode_header :
    decodeHeader [0b01110001, 0b01101111, 0b01101001, 0b01100110, 0, 0, 0b00000001, 0b00101100, 0b10000000, 0, 0, 1, 3, 1]
      = .ok (.header 0x716F6966 300 0x80000001 3 1) [] := by decide
theorem test_decode_end_marker :
    decodeMarker [0, 0, 0, 0, 0, 0, 0, 0b00000001] = .ok (.endMarker 1) [] := by decide
theorem test_decode_truncated :
    decodeChunk Config.params [0xFF, 1, 2, 3] = .bad .truncated ∧ decodeChunk Config.params [0xFE, 1, 2] = .bad .truncated
    ∧ decodeChunk Config.params [0x80] = .bad .truncated ∧ decodeChunk Config.params [] = .bad .empty := by decide
theorem test_decode_header_short : decodeHeader [0x71, 0x6F, 0x69, 0x66] = .bad .truncated := by decide

/-- The rows of spec/opcode_table.json by its bit numbering: the first byte is the least significant. -/
theorem test_table_words :
    decodeTableWord 32 0x1E140AFE = some (.rgb 10 20 30) ∧ decodeTableWord 40 0x04030201FF = some (.rgba 1 2 3 4)
    ∧ decodeTableWord 8 0x09 = some (.index 9) ∧ decodeTableWord 8 0x77 = some (.diff 3 1 3)
    ∧ decodeTableWord 16 0xB8A0 = some (.luma 32 11 8) ∧ decodeTableWord 8 0xFD = some (.run 61)
    ∧ decodeTableWord 8 0xFE = some (.rgb 0 0 0) ∧ decodeTableWord 8 0xFF = some (.rgba 0 0 0 0) := by decide
theorem test_table_word_header :
    decodeTableWord 112 0x00040100000002000000_66696F71 = some (.header 0x716F6966 2 1 4 0) := by decide
theorem test_table_word_end_marker : decodeTableWord 64 0x0100000000000000 = some (.endMarker 1) := by decide

/-! ## A table word as the first instruction after reset -/

theorem test_first_chunks :
    step (State.reset.withFetchWord 32 0x1E140AFE) =
      exec (.rgb 10 20 30) { State.reset with dec := DecUnit.start 0, decIn := .whole [0xFE, 10, 20, 30, 0] }
    ∧ step (State.reset.withFetchWord 40 0x04030201FF) =
      exec (.rgba 1 2 3 4) { State.reset with dec := DecUnit.start 0, decIn := .whole [0xFF, 1, 2, 3, 4] }
    ∧ step (State.reset.withFetchWord 8 0x05) = exec (.index 5) { State.reset with dec := DecUnit.start 0, decIn := .whole [5, 0, 0, 0, 0] }
    ∧ step (State.reset.withFetchWord 8 0x77) = exec (.diff 3 1 3) { State.reset with dec := DecUnit.start 0, decIn := .whole [0x77, 0, 0, 0, 0] }
    ∧ step (State.reset.withFetchWord 16 0xB8A0) =
      exec (.luma 32 11 8) { State.reset with dec := DecUnit.start 0, decIn := .whole [0xA0, 0xB8, 0, 0, 0] }
    ∧ step (State.reset.withFetchWord 8 0xC4) = exec (.run 4) { State.reset with dec := DecUnit.start 0, decIn := .whole [0xC4, 0, 0, 0, 0] } :=
  ⟨rfl, rfl, rfl, rfl, rfl, rfl⟩
theorem test_first_header :
    ((after (step (State.reset.withFetchWord 112 0x00040100000002000000_66696F71))).map fun t =>
      (t.frr.width, t.frr.height, t.frr.channels, t.frr.colorspace, t.frr.err.kind))
      = some (2, 1, 4, 0, .none) := by decide
theorem test_first_end_marker :
    ((after (step (State.reset.withFetchWord 64 0x0100000000000000))).map (·.frr.endMarkerOk)) = some true := by decide

/-! ## Hash vectors T-H1 to T-H13 -/

theorem test_hash :
    pixelHash pZ = 0 ∧ pixelHash pK = 53 ∧ pixelHash pA = 9 ∧ pixelHash pB = 31 ∧ pixelHash pW = 38
    ∧ pixelHash ⟨128, 0, 0, 255⟩ = 53 ∧ pixelHash ⟨1, 2, 3, 4⟩ = 14 ∧ pixelHash ⟨10, 20, 30, 254⟩ = 62
    ∧ pixelHash ⟨11, 19, 31, 255⟩ = 14 ∧ pixelHash ⟨0, 0, 0, 128⟩ = 0 ∧ pixelHash ⟨255, 0, 0, 255⟩ = 50
    ∧ pixelHash ⟨0, 0, 1, 255⟩ = 60 ∧ pixelHash ⟨250, 3, 1, 128⟩ = 4 := by decide

/-! ## Chunks: the worked examples of 42_decoder.md rules R103 to R108 and vectors of 95_test_vectors.md section 4 -/

/-- R103, its worked example. -/
theorem test_rgb : ((after (exec (.rgb 10 20 30) State.reset)).map fun t => (t.decOut, t.dec.prev, t.dec.pos, t.dec.cache))
    = some ([pA], pA, 4, [(9, pA)]) := by decide
/-- R104, its worked example. -/
theorem test_rgba : ((after (exec (.rgba 1 2 3 4) State.reset)).map fun t => (t.decOut, t.dec.prev, t.dec.pos, t.dec.cache))
    = some ([⟨1, 2, 3, 4⟩], ⟨1, 2, 3, 4⟩, 5, [(14, ⟨1, 2, 3, 4⟩)]) := by decide
/-- T-D1: a slot that was never written. -/
theorem test_index : ((after (exec (.index 5) State.reset)).map fun t => (t.decOut, t.dec.prev, t.dec.pos, t.dec.cache))
    = some ([pZ], pZ, 1, []) := by decide
/-- R106, its worked example. -/
theorem test_diff : ((after (exec (.diff 3 1 3) (chunkState pA [] []))).map fun t => (t.decOut, t.dec.pos, t.dec.cache))
    = some ([⟨11, 19, 31, 255⟩], 1, [(14, ⟨11, 19, 31, 255⟩)]) := by decide
/-- R106, corner cases: the channels wrap. -/
theorem test_diff_wraps : ((after (exec (.diff 0 3 2) (chunkState ⟨0, 255, 7, 9⟩ [] []))).map fun t => t.dec.prev)
    = some ⟨254, 0, 7, 9⟩ := by decide
/-- R107, the first worked example. -/
theorem test_luma : ((after (exec (.luma 32 11 8) (chunkState pA [] []))).map fun t => (t.dec.prev, t.dec.pos))
    = some (⟨13, 20, 30, 255⟩, 2) := by decide
/-- R107, the second worked example, where R167's wrong grouping shows. -/
theorem test_luma_grouping :
    ((after (exec (.luma 40 11 7) (chunkState ⟨250, 250, 250, 255⟩ [] []))).map fun t => t.dec.prev)
    = some ⟨5, 2, 1, 255⟩ := by decide
/-- R108, its worked example. -/
theorem test_run : ((after (exec (.run 4) State.reset)).map fun t => (t.decOut, t.dec.prev, t.dec.pos, t.dec.cache))
    = some ([pK, pK, pK, pK, pK], pK, 1, [(53, pK)]) := by decide

/-- T-D3: a RUN at the start makes slot 53 usable. -/
theorem test_decode_run_then_index :
    decodeStream Config.params [0xC4, 0x35] = .pixels [pK, pK, pK, pK, pK, pK] := by decide
/-- T-D6: the truncated chunk is named by its offset. -/
theorem test_decode_truncated_luma :
    decodeStream Config.params [0xFE, 1, 2, 3, 0x80] = .error .truncatedChunk 4 := by decide
/-- T-D8. -/
theorem test_decode_two_lumas :
    decodeStream Config.params [0x9A, 0x88, 0xA8, 0xB7] = .pixels [⟨250, 250, 250, 255⟩, ⟨5, 2, 1, 255⟩] := by decide
/-- T-D11: a second byte FF is data. -/
theorem test_decode_highest_payloads :
    decodeStream Config.params [0x3F, 0x7F, 0xBF, 0xFF, 0xFE, 9, 9, 9]
      = .pixels [pZ, ⟨1, 1, 1, 0⟩, ⟨39, 32, 39, 0⟩, ⟨9, 9, 9, 0⟩] := by decide

/-! ## The encoder: vectors of 95_test_vectors.md section 3 -/

/-- T-E1: an index hit. -/
theorem test_encode_index : encodePixels Config.params [pA, pB, pA]
    = [0xFE, 0x0A, 0x14, 0x1E, 0xFE, 0xC8, 0x64, 0x32, 0x09] := by decide
/-- T-E3: +3 falls through to LUMA. -/
theorem test_encode_luma : encodePixels Config.params [pA, ⟨13, 20, 30, 255⟩] = [0xFE, 0x0A, 0x14, 0x1E, 0xA0, 0xB8] := by
  decide
/-- T-E4: an alpha change. -/
theorem test_encode_rgba : encodePixels Config.params [pA, ⟨10, 20, 30, 254⟩]
    = [0xFE, 0x0A, 0x14, 0x1E, 0xFF, 0x0A, 0x14, 0x1E, 0xFE] := by decide
/-- T-E9: a run at the start of a pass writes slot 53. -/
theorem test_encode_first_run : encodePixels Config.params [pK, ⟨100, 0, 0, 255⟩, pK]
    = [0xC0, 0xFE, 0x64, 0, 0, 0x35] := by decide
/-- T-E14: deltas wrap. -/
theorem test_encode_diff_wraps : encodePixels Config.params [⟨255, 0, 255, 255⟩, ⟨0, 255, 0, 255⟩] = [0x59, 0x77] := by decide
/-- T-E16a and T-E17a: LUMA's lower bounds, and a green delta one above the upper. -/
theorem test_encode_luma_bounds :
    encodePixels Config.params [pA, ⟨226, 244, 5, 255⟩] = [0xFE, 0x0A, 0x14, 0x1E, 0x80, 0x0F]
    ∧ encodePixels Config.params [pA, ⟨42, 52, 62, 255⟩] = [0xFE, 0x0A, 0x14, 0x1E, 0xFE, 0x2A, 0x34, 0x3E] := by decide
/-- R83, its worked example: the cap is reached on the 62nd absorbed pixel. -/
theorem test_encode_cap :
    ((after (step (encState pA [(9, pA)] 61 (.encPix pA)))).map fun t => (t.encOut, t.enc.run)) = some ([0xFD], 0) := by
  decide
/-- R84, its worked example: a run of 13 is flushed before the new pixel's chunk. -/
theorem test_encode_flush :
    ((after (step (encState pA [(9, pA)] 13 (.encPix ⟨11, 19, 31, 255⟩)))).map fun t => (t.encOut, t.enc.run))
      = some ([0xCC, 0x77], 0) := by decide

/-! ## Framing: the vectors of 95_test_vectors.md section 5 -/

/-- T-F1. -/
theorem test_write : persisted Config.params 2 1 4 0 [pA, pA] = fileF1 := by decide
/-- T-F3, T-F4 and T-F5: the errors of the header, with their offsets. -/
theorem test_header_errors :
    ((after (exec (.header 0x716F6966 2 1 5 0) State.reset)).map (·.frr.err)) = some ⟨.unsupportedChannelCount, 12⟩
    ∧ ((after (exec (.header 0x006F6966 2 1 5 0) State.reset)).map (·.frr.err)) = some ⟨.invalidMagic, 0⟩
    ∧ ((after (exec (.header 0x716F6966 2 1 4 2) State.reset)).map (·.frr.err)) = some ⟨.unsupportedColorspace, 13⟩ := by
  decide
/-- T-F7: the last byte changed to 00. -/
theorem test_end_marker_wrong :
    ((after (step (frrAt .marker (fileF1.take 26 ++ [0]) .frrMarker))).map fun t => (t.frr.endMarkerOk, t.frr.err.kind))
      = some (false, .none) := by decide
/-- T-F2, the last event: pixels and flag. -/
theorem test_read_pixels :
    ((after (step { frrAt .decode fileF1 .frrDecode with
        frr := { State.reset.frr with width := 2, height := 1, phase := .decode } })).map fun t => (t.frrOut, t.frr.countOk))
      = some ([.image 2 1 [pA, pA]], true) := by decide
/-- T-F11. -/
theorem test_be32 : be32 300 = [0, 0, 1, 0x2C] := by decide

/-! ## Witnesses: a state and operands that meet the hypotheses of each obligation, clause by clause -/

/-- Other legal parameters: one sentinel is the DIFF byte with three zero deltas, the other the RUN byte of payload 62. -/
def otherParams : Params :=
  { tagIndex := 3, tagDiff := 2, tagLuma := 1, tagRun := 0, opRgb := 0b10101010, opRgba := 62, magic := 0, maxRun := 62 }

theorem witness_DecodeOfEncodeIsTheInstruction :
    Config.params.legal = true ∧ otherParams.legal = true ∧ (Instr.run 61).wf Config.params = true
    ∧ (Instr.rgb 255 254 0).wf Config.params = true ∧ (Instr.rgba 255 254 0 1).wf Config.params = true
    ∧ (Instr.index 63).wf Config.params = true ∧ (Instr.diff 2 2 2).wf Config.params = true
    ∧ (Instr.luma 63 15 15).wf Config.params = true ∧ (Instr.header 0x716F6966 0 0xFFFFFFFF 3 1).wf Config.params = true
    ∧ (Instr.endMarker 1).wf Config.params = true := by decide

theorem witness_EncodeOfDecodedIsTheBytesRead :
    decodeAt Config.params .chunk [0xA0, 0xB8, 0xFF] = .ok (.luma 32 11 8) [0xFF]
    ∧ decodeAt Config.params .marker [0, 0, 0, 0, 0, 0, 0, 1] = .ok (.endMarker 1) []
    ∧ decodeAt Config.params .header (0x71 :: List.replicate 13 0) = .ok (.header 0x71000000 0 0 0 0) [] := by decide

theorem witness_ChunkLengthByFirstByteOnly :
    Config.params.legal = true ∧ [(1 : Byte), 2].length + 1 < chunkLen Config.params 0xFE
    ∧ chunkLen Config.params 0xFE ≤ [(1 : Byte), 2, 3].length + 1 := by decide

theorem witness_UnrecognizedTagIsNeverRaised :
    Config.params.legal = true ∧ (∃ t, step (chunkState pK [] [0x80]) = .next t)
    ∧ (chunkState pK [] [0x80]).dec.err.kind ≠ .unrecognizedTag := ⟨by decide, ⟨_, rfl⟩, by decide⟩

theorem witness_SentinelsHaveThreeFreePlaces :
    (Config.params.legal = true ∧ Config.params.maxRun = 62)
    ∧ otherParams.legal = true ∧ otherParams.maxRun = 62 ∧ otherParams.opRgb = 0b10101010 := by decide

theorem witness_EncoderEmitsWellFormedChunks :
    Config.params.legal = true ∧ pA ≠ EncUnit.start.prev
    ∧ (62 : BitVec 6) ≠ 0 ∧ (62 : BitVec 6).toNat ≤ Config.params.maxRun := by decide

theorem witness_HashAgreesInEveryWidth : 6 ≤ 6 := by decide

theorem witness_DeltaIsTheSignedWrappedDifference :
    diffOk pW pK = true ∧ lumaOk ⟨13, 20, 30, 255⟩ pA = true ∧ diffOk ⟨13, 20, 30, 255⟩ pA = false := by decide

theorem witness_DiffQuantizer : diffOk ⟨8, 21, 30, 255⟩ pA = true ∧ diffOk ⟨7, 20, 30, 255⟩ pA = false := by decide

theorem witness_LumaQuantizer :
    lumaOk ⟨226, 244, 5, 255⟩ pA = true ∧ lumaOk ⟨48, 51, 53, 255⟩ pA = true ∧ lumaOk ⟨42, 52, 62, 255⟩ pA = false := by
  decide

theorem witness_ReconstructionUndoesTheDeltas :
    diffOk ⟨11, 19, 31, 255⟩ (chunkState pA [] []).dec.prev = true
    ∧ lumaOk ⟨48, 51, 53, 255⟩ (chunkState pA [] []).dec.prev = true := by decide

theorem witness_RgbChunk :
    AtChunk (chunkState pA [0xC0] [0xFE, 1, 2, 3, 4]) [] (Config.params.opRgb :: 1 :: 2 :: 3 :: [4])
    ∧ AtChunk (chunkState pA [0xC0] [0xFE, 1, 2]) [] (Config.params.opRgb :: [1, 2]) ∧ [(1 : Byte), 2].length < 3 :=
  ⟨chunkState_atChunk _ _ _, chunkState_atChunk _ _ _, by decide⟩

theorem witness_RgbaChunk :
    AtChunk (chunkState pA [0xC0] [0xFF, 1, 2, 3, 4]) [] (Config.params.opRgba :: 1 :: 2 :: 3 :: 4 :: [])
    ∧ AtChunk (chunkState pA [0xC0] [0xFF, 1, 2, 3]) [] (Config.params.opRgba :: [1, 2, 3])
    ∧ [(1 : Byte), 2, 3].length < 4
    ∧ ∃ t, exec (.rgba 1 2 3 4) State.reset = .next t ∧ t.dec.prev.a ≠ State.reset.dec.prev.a :=
  ⟨chunkState_atChunk _ _ _, chunkState_atChunk _ _ _, by decide, _, rfl, by decide⟩

theorem witness_IndexChunk :
    AtChunk (chunkState pA [0xC0] [0x3F]) [] (0x3F :: []) ∧ (0x3F : Byte).toNat / 64 = Config.params.tagIndex.toNat
    ∧ State.reset.dec.cache.read 63 = ⟨0, 0, 0, 0⟩
    ∧ pixelHash ({ DecUnit.start 0 with cache := [(53, pK)] }.cache.read 53) = 53 :=
  ⟨chunkState_atChunk _ _ _, by decide, rfl, by decide⟩

theorem witness_DiffChunk :
    AtChunk (chunkState pA [0xC0] [0x7F, 1]) [] (0x7F :: [1]) ∧ (0x7F : Byte).toNat / 64 = Config.params.tagDiff.toNat :=
  ⟨chunkState_atChunk _ _ _, by decide⟩

theorem witness_LumaChunk :
    AtChunk (chunkState pA [0xC0] [0xBF, 0xFF]) [] (0xBF :: 0xFF :: [])
    ∧ (0xBF : Byte).toNat / 64 = Config.params.tagLuma.toNat ∧ AtChunk (chunkState pA [0xC0] [0x80]) [] [0x80]
    ∧ (0x80 : Byte).toNat / 64 = Config.params.tagLuma.toNat :=
  ⟨chunkState_atChunk _ _ _, by decide, chunkState_atChunk _ _ _, by decide⟩

theorem witness_RunChunk :
    AtChunk (chunkState pA [0xC0] [0xFD]) [] (0xFD :: []) ∧ (0xFD : Byte).toNat / 64 = Config.params.tagRun.toNat
    ∧ (0xFD : Byte).toNat % 64 < Config.params.maxRun :=
  ⟨chunkState_atChunk _ _ _, by decide, by decide⟩

theorem witness_EveryChunkWritesBack :
    (Instr.run 61).place = .chunk ∧ (Instr.rgba 1 2 3 4).place = .chunk := ⟨rfl, rfl⟩

theorem witness_StepRunsTheDecodedInstruction :
    (AtChunk (chunkState pA [0xC0] [0x77]) [] [0x77] ∧ decodeChunk Config.params [0x77] = .ok (.diff 3 1 3) [])
    ∧ ((serialState [0xA0] (.decByte 0xB8)).events = [.decByte 0xB8]
      ∧ (serialState [0xA0] (.decByte 0xB8)).dec.phase = .active ∧ (serialState [0xA0] (.decByte 0xB8)).decIn = .serial
      ∧ (serialState [0xA0] (.decByte 0xB8)).dec.buf ++ [0xB8] = 0xA0 :: [0xB8]
      ∧ [(0xB8 : Byte)].length + 1 = chunkLen Config.params 0xA0
      ∧ decodeChunk Config.params [0xA0, 0xB8] = .ok (.luma 32 11 8) [])
    ∧ ((frrAt .header fileF1 .frrHeader).events = [.frrHeader] ∧ (frrAt .header fileF1 .frrHeader).frr.phase = .header
      ∧ decodeHeader fileF1 = .ok (.header 0x716F6966 2 1 4 0) (fileF1.drop 14))
    ∧ (frrAt .marker fileF1 .frrMarker).events = [.frrMarker] ∧ (frrAt .marker fileF1 .frrMarker).frr.phase = .marker
    ∧ decodeMarker (fileF1.drop (fileF1.length - 8)) = .ok (.endMarker 1) [] :=
  ⟨⟨chunkState_atChunk _ _ _, by decide⟩, by decide, by decide, by decide, by decide, by decide⟩

theorem witness_TruncatedChunkHasNoOtherEffect :
    (AtChunk (chunkState pA [0xC0] [0xFF, 1, 2, 3]) [] (0xFF :: [1, 2, 3])
      ∧ [(1 : Byte), 2, 3].length + 1 < chunkLen Config.params 0xFF)
    ∧ ((serialState [0x80] .decEnd).events = [.decEnd] ∧ (serialState [0x80] .decEnd).dec.phase = .active
      ∧ (serialState [0x80] .decEnd).decIn = .serial ∧ (serialState [0x80] .decEnd).dec.buf ≠ [])
    ∧ AtChunk (chunkState pA [0xC0] [0xC0]) [] (0xC0 :: []) ∧ chunkLen Config.params 0xC0 = 1 :=
  ⟨⟨chunkState_atChunk _ _ _, by decide⟩, by decide, chunkState_atChunk _ _ _, by decide⟩

theorem witness_FaultedUnitHasOnlyStart :
    ((decAt .faulted .decChunk).events = [.decChunk] ∧ (decAt .faulted .decChunk).dec.phase = .faulted
      ∧ Event.decChunk.agent = .dec)
    ∧ ((decAt .faulted (.decStart .serial)).events = [.decStart .serial]
      ∧ (decAt .faulted (.decStart .serial)).dec.phase = .faulted ∧ (Event.decStart .serial).agent = .dec)
    ∧ ((frrAt .faulted [] .frrDecode).events = [.frrDecode] ∧ (frrAt .faulted [] .frrDecode).frr.phase = .faulted
      ∧ Event.frrDecode.agent = .frr)
    ∧ (frrAt .faulted [] (.frrStart fileF1)).events = [.frrStart fileF1]
    ∧ (frrAt .faulted [] (.frrStart fileF1)).frr.phase = .faulted ∧ (Event.frrStart fileF1).agent = .frr := by decide

theorem witness_IdleUnitRefusesAllButStart :
    ({ withEvent .encEnd with enc := { EncUnit.start with phase := .idle } }.events = [.encEnd]
      ∧ { withEvent .encEnd with enc := { EncUnit.start with phase := .idle } }.enc.phase = .idle
      ∧ Event.encEnd.agent = .enc ∧ Event.encEnd ≠ .encStart)
    ∧ ((decAt .idle (.decByte 0)).events = [.decByte 0] ∧ (decAt .idle (.decByte 0)).dec.phase = .idle
      ∧ (Event.decByte 0).agent = .dec ∧ ∀ input, Event.decByte 0 ≠ .decStart input)
    ∧ (withEvent .encStart).events = [.encStart]
    ∧ (withEvent (.decStart (.whole [1]))).events = [.decStart (.whole [1])] :=
  ⟨by decide, ⟨rfl, rfl, rfl, nofun⟩, rfl, rfl⟩

/-- Every event that 41_encoder.md and 42_decoder.md put a condition on has a step where it is met. -/
theorem witness_EventsStepOnlyWhereEnabled :
    (∃ t, step (withEvent (.encPix pA)) = .next t) ∧ (∃ t, step (withEvent .encEnd) = .next t)
    ∧ (∃ t, step (chunkState pA [0xC0] [0x77]) = .next t) ∧ (∃ t, step (serialState [0xFE, 1] (.decByte 2)) = .next t)
    ∧ (∃ t, step (withEvent .decEnd) = .next t) ∧ (∃ t, step (frrAt .header fileF1 .frrHeader) = .next t)
    ∧ (∃ t, step (frrAt .marker fileF1 .frrMarker) = .next t) ∧ ∃ t, step (frrAt .decode fileF1 .frrDecode) = .next t :=
  ⟨⟨_, rfl⟩, ⟨_, rfl⟩, ⟨_, rfl⟩, ⟨_, rfl⟩, ⟨_, rfl⟩, ⟨_, rfl⟩, ⟨_, rfl⟩, ⟨_, rfl⟩⟩

theorem witness_StartResetsItsUnit :
    (withEvent .encStart).events = [.encStart] ∧ (withEvent (.decStart .serial)).events = [.decStart .serial]
    ∧ (withEvent (.frrStart (List.replicate 22 0))).events = [.frrStart (List.replicate 22 0)]
    ∧ 22 ≤ (List.replicate 22 (0 : Byte)).length := by decide

theorem witness_ErrorsAreSticky :
    ((∃ t, step (decAt .faulted .encStart) = .next t) ∧ (decAt .faulted .encStart).dec.phase = .faulted
      ∧ ∀ input, Event.encStart ≠ .decStart input)
    ∧ (∃ t, step (frrAt .faulted [] (.frwWrite 0 0 3 0 [])) = .next t)
    ∧ (frrAt .faulted [] (.frwWrite 0 0 3 0 [])).frr.phase = .faulted
    ∧ ∀ bytes, Event.frwWrite 0 0 3 0 [] ≠ .frrStart bytes :=
  ⟨⟨⟨_, rfl⟩, rfl, nofun⟩, ⟨_, rfl⟩, rfl, nofun⟩

theorem witness_DecodePassReachesItsResult :
    (decodeStream Config.params [0x6A] = .pixels [pK]
      ∧ { State.reset with events := [.decStart (.whole [0x6A]), .decChunk, .decEnd] }.events
        = .decStart (.whole [0x6A]) :: (List.replicate 1 .decChunk ++ .decEnd :: []))
    ∧ decodeStream Config.params [0x6A, 0x80] = .error .truncatedChunk 1 := by decide

theorem witness_ByteSerialFormAgrees :
    ((serialState [0xFE, 1] (.decByte 2)).events = [.decByte 2] ∧ (serialState [0xFE, 1] (.decByte 2)).dec.phase = .active
      ∧ (serialState [0xFE, 1] (.decByte 2)).decIn = .serial
      ∧ (serialState [0xFE, 1] (.decByte 2)).dec.buf ++ [2] = 0xFE :: [1, 2]
      ∧ [(1 : Byte), 2].length + 1 ≠ chunkLen Config.params 0xFE)
    ∧ ((serialState [0xFE, 1, 2] (.decByte 3)).dec.buf ++ [3] = 0xFE :: [1, 2, 3]
      ∧ [(1 : Byte), 2, 3].length + 1 = chunkLen Config.params 0xFE)
    ∧ ((serialState [0x80] .decEnd).events = [.decEnd] ∧ (serialState [0x80] .decEnd).dec.phase = .active
      ∧ (serialState [0x80] .decEnd).decIn = .serial ∧ (serialState [0x80] .decEnd).dec.buf ≠ []
      ∧ (serialState [] .decEnd).dec.buf = [])
    ∧ { State.reset with events := [.decStart .serial, .decByte 0xC0, .decByte 0x80, .decEnd] }.events
      = .decStart .serial :: ([0xC0, 0x80].map .decByte ++ .decEnd :: []) := by decide

theorem witness_DecodeFailsOnlyByTruncation :
    Config.params.legal = true ∧ decodeStream Config.params [0xFF, 1, 2, 3] = .error .truncatedChunk 0 := by decide

theorem witness_EndMarkerLeftOnDecodesAsEightPixels :
    decodeStream Config.params [0xFE, 0x0A, 0x14, 0x1E, 0xC0] = .pixels [pA, pA] := by decide

theorem witness_PixelStepFollowsThePriority :
    ((encState pA [(9, pA)] 61 (.encPix pA)).events = [.encPix pA]
      ∧ (encState pA [(9, pA)] 61 (.encPix pA)).enc.phase = .active
      ∧ pA = (encState pA [(9, pA)] 61 (.encPix pA)).enc.prev
      ∧ (encState pA [(9, pA)] 61 (.encPix pA)).enc.run.toNat + 1 = Config.params.maxRun)
    ∧ (encState pA [(9, pA)] 60 (.encPix pA)).events = [.encPix pA]
    ∧ (encState pA [(9, pA)] 60 (.encPix pA)).enc.run.toNat + 1 ≠ Config.params.maxRun
    ∧ pB ≠ (encState pA [(9, pA)] 13 (.encPix pB)).enc.prev
    ∧ (encState pA [(9, pA)] 13 (.encPix pB)).events = [.encPix pB] := by decide

theorem witness_EndStepFlushesTheRun :
    (encState pA [(9, pA)] 61 .encEnd).events = [.encEnd] ∧ (encState pA [(9, pA)] 61 .encEnd).enc.phase = .active := by
  decide

theorem witness_EncodePassEmitsEncode :
    { State.reset with events := [.encStart, .encPix pA, .encPix pB, .encEnd] }.events
      = .encStart :: ([pA, pB].map .encPix ++ .encEnd :: []) := rfl

theorem witness_RunCounterEqualsForwardScan : Config.params.legal = true := by decide

theorem witness_LongRunsAreSplitAtTheCap : Config.params.legal = true ∧ EncUnit.start.run = 0 := by decide

/-- One pixel for each class. -/
theorem witness_EncoderNeverPicksNonCanonicalChunks :
    EncUnit.start.classify pZ = .index 0 ∧ EncUnit.start.classify pW = .diff 1 1 1
    ∧ EncUnit.start.classify ⟨2, 0, 0, 255⟩ = .luma 32 10 8 ∧ EncUnit.start.classify pA = .rgb 10 20 30
    ∧ EncUnit.start.classify ⟨1, 2, 3, 4⟩ = .rgba 1 2 3 4 ∧ pZ ≠ EncUnit.start.prev
    ∧ EncUnit.start.cache.read 0 = ⟨0, 0, 0, 0⟩ := by decide

theorem witness_DecodeOfEncodedPixelsIsThePixels : Config.params.legal = true ∧ otherParams.legal = true := by decide

/-- The one case in which the caches differ: a run at the start of the pass is pending. -/
theorem witness_EncoderAndDecoderInLockstep :
    Config.params.legal = true ∧ (EncUnit.start.feed Config.params [pK]).1.run = 1
    ∧ (EncUnit.start.feed Config.params [pK]).1.cache.read 53 ≠ State.reset.dec.cache.read 53
    ∧ (EncUnit.start.feed Config.params [pA]).1.run = 0 := by decide

theorem witness_CacheSlotsHoldTheirHash :
    CacheHashed (chunkState pK [] [0x77]).enc.cache ∧ CacheHashed (chunkState pK [] [0x77]).dec.cache
    ∧ ∃ t, step (chunkState pK [] [0x77]) = .next t :=
  ⟨CacheHashed.nil, CacheHashed.nil, _, rfl⟩

theorem witness_PreviousPixelIsCached :
    (Instr.index 63).place = .chunk ∧ (∃ t, exec (.index 63) State.reset = .next t)
    ∧ (encState pA [(9, pA)] 5 .encEnd).enc.cache.wf = true
    ∧ (encState pA [(9, pA)] 5 .encEnd).enc.cache.read (pixelHash pA) = pA :=
  ⟨rfl, ⟨_, rfl⟩, by decide, by decide⟩

/-- A state that is not the reset state, meets the invariant, and has a step. -/
theorem witness_EveryStepKeepsTheInvariant :
    Inv { chunkState pK [] [0xFE, 1] with frr := { State.reset.frr with err := ⟨.invalidMagic, 0⟩, phase := .faulted } }
    ∧ ∃ t, step { chunkState pK [] [0xFE, 1] with
        frr := { State.reset.frr with err := ⟨.invalidMagic, 0⟩, phase := .faulted } } = .next t := by
  refine ⟨⟨⟨rfl, CacheHashed.nil, by decide, .inr ⟨rfl, rfl, rfl⟩, fun _ => rfl⟩,
    ⟨rfl, CacheHashed.nil, .inr ⟨rfl, rfl, rfl⟩, nofun, ?_, .inl rfl, ?_, nofun⟩,
    ⟨.inr (.inl rfl), ?_, ?_, ?_⟩⟩, _, rfl⟩
  · rintro bytes ⟨⟩; exact ⟨Nat.zero_le _, rfl⟩
  · decide
  · decide
  · rintro (h | h | h) <;> cases h
  · rintro (h | h | h | h) <;> cases h

/-- A step of each agent, and for the second part two states that differ outside the agent. -/
theorem witness_UnitsShareNoState :
    (∃ t, step (withEvent (.encPix pA)) = .next t) ∧ (∃ t, step (chunkState pA [0xC0] [0x77]) = .next t)
    ∧ (∃ t, step (frrAt .marker fileF1 .frrMarker) = .next t) ∧ (∃ t, step (withEvent (.frwWrite 0 0 3 0 [])) = .next t)
    ∧ (withEvent (.encPix pA)).enc = (encState pK [] 0 (.encPix pA)).enc
    ∧ (withEvent .decEnd).dec = { withEvent .decEnd with enc := ⟨pA, [], 3, .idle⟩ }.dec :=
  ⟨⟨_, rfl⟩, ⟨_, rfl⟩, ⟨_, rfl⟩, ⟨_, rfl⟩, rfl, rfl⟩

theorem witness_OutputsOnlyGrow :
    (∃ t, step (encState pA [(9, pA)] 13 (.encPix ⟨1, 2, 3, 4⟩)) = .next t)
    ∧ (∃ t, step (frrAt .decode fileF1 .frrDecode) = .next t) ∧ ∃ t, step (withEvent (.frwWrite 0 0 3 0 [])) = .next t :=
  ⟨⟨_, rfl⟩, ⟨_, rfl⟩, ⟨_, rfl⟩⟩

theorem witness_PositionMovesByChunkLengths :
    (∃ t, step (withEvent (.decStart (.whole [0x77]))) = .next t) ∧ (∃ t, step (chunkState pA [0xC0] [0xFF, 1, 2, 3, 4]) = .next t)
    ∧ ∃ t, step (serialState [0xFE, 1, 2] (.decByte 3)) = .next t :=
  ⟨⟨_, rfl⟩, ⟨_, rfl⟩, ⟨_, rfl⟩⟩

theorem witness_HeaderIsCheckedInOffsetOrder :
    ((0x716F6966 : BitVec 32) = Config.params.magic ∧ ((3 : Byte) = 3 ∨ (3 : Byte) = 4) ∧ ((1 : Byte) = 0 ∨ (1 : Byte) = 1))
    ∧ (0x716F6967 : BitVec 32) ≠ Config.params.magic ∧ ((5 : Byte) ≠ 3 ∧ (5 : Byte) ≠ 4)
    ∧ ((2 : Byte) ≠ 0 ∧ (2 : Byte) ≠ 1)
    ∧ ((frrAt .header fileF1 .frrHeader).events = [.frrHeader] ∧ (frrAt .header fileF1 .frrHeader).frr.phase = .header
      ∧ (frrAt .header fileF1 .frrHeader).frrIn
        = 0x71 :: 0x6F :: 0x69 :: 0x66 :: 0 :: 0 :: 0 :: 2 :: 0 :: 0 :: 0 :: 1 :: 4 :: 0 :: fileF1.drop 14)
    ∧ (withEvent (.frrStart fileF1)).events = [.frrStart fileF1]
    ∧ (List.replicate 21 (0 : Byte)).length < 22 ∧ 22 ≤ (List.replicate 22 (0 : Byte)).length := by decide

theorem witness_EndMarkerSetsItsFlag :
    (frrAt .marker fileF1 .frrMarker).events = [.frrMarker] ∧ (frrAt .marker fileF1 .frrMarker).frr.phase = .marker
    ∧ (frrAt .marker fileF1 .frrMarker).frrIn = fileF1.take 19 ++ [0, 0, 0, 0, 0, 0, 0, 1]
    ∧ (fileF1.take 14).length = 14 ∧ (fileF1.drop 19).length = 8 := by decide

theorem witness_ReadEndsWithPixelsOrTheDecodersError :
    (frrAt .decode fileF1 .frrDecode).events = [.frrDecode] ∧ (frrAt .decode fileF1 .frrDecode).frr.phase = .decode
    ∧ decodeStream Config.params (chunkBytes fileF1) = .pixels [pA, pA]
    ∧ decodeStream Config.params (chunkBytes (fileF1.take 14 ++ [0x80] ++ fileF1.drop 19)) = .error .truncatedChunk 0 := by
  decide

theorem witness_WriterComposesThePersistedStream :
    (withEvent (.frwWrite 2 1 4 0 [pA, pA])).events = [.frwWrite 2 1 4 0 [pA, pA]]
    ∧ ((4 : Byte) = 3 ∨ (4 : Byte) = 4) ∧ ((0 : Byte) = 0 ∨ (0 : Byte) = 1)
    ∧ [pA, pA].length = (2 : BitVec 32).toNat * (1 : BitVec 32).toNat
    ∧ ¬ (((5 : Byte) = 3 ∨ (5 : Byte) = 4) ∧ ((0 : Byte) = 0 ∨ (0 : Byte) = 1)
        ∧ [pA, pA].length = (2 : BitVec 32).toNat * (1 : BitVec 32).toNat) := by decide

theorem witness_FramedRoundTrip :
    { State.reset with events := [.frrStart fileF1, .frrHeader, .frrMarker, .frrDecode] }.events
      = .frrStart (persisted Config.params 2 1 4 0 [pA, pA]) :: .frrHeader :: .frrMarker :: .frrDecode :: []
    ∧ ((4 : Byte) = 3 ∨ (4 : Byte) = 4) ∧ ((0 : Byte) = 0 ∨ (0 : Byte) = 1)
    ∧ [pA, pA].length = (2 : BitVec 32).toNat * (1 : BitVec 32).toNat := by decide

/-- Two states that differ in the two header bytes. -/
theorem witness_HeaderBytesHaveNoEffect :
    (frrAt .decode fileF1 .frrDecode).withoutHeaderBytes
      = { frrAt .decode fileF1 .frrDecode with frr :=
          { (frrAt .decode fileF1 .frrDecode).frr with channels := 3, colorspace := 1 } }.withoutHeaderBytes
    ∧ ∃ t, step (frrAt .decode fileF1 .frrDecode) = .next t := ⟨rfl, _, rfl⟩

/-- The reset state with a `Start` of each unit in turn, and a refusal where `Pix` comes first. -/
theorem witness_NothingRunsBeforeAStart :
    ({ State.reset with events := [.encStart] }.enc.phase = .idle
      ∧ { State.reset with events := [.encStart] }.dec.phase = .idle
      ∧ { State.reset with events := [.encStart] }.frr.phase = .idle)
    ∧ (∃ t, step { State.reset with events := [.encStart] } = .next t)
    ∧ (∃ t, step { State.reset with events := [.decStart .serial] } = .next t)
    ∧ (∃ t, step { State.reset with events := [.frrStart fileF1] } = .next t)
    ∧ (∃ t, step { State.reset with events := [.frwWrite 0 0 3 0 []] } = .next t)
    ∧ step { State.reset with events := [.encPix pA] } = .refused .encIdle :=
  ⟨⟨rfl, rfl, rfl⟩, ⟨_, rfl⟩, ⟨_, rfl⟩, ⟨_, rfl⟩, ⟨_, rfl⟩, rfl⟩

end Sys2Proof.Tests
end

/-! The length of a chunk (30_encoding.md rule R51): what `chunkLen` is for each kind of first byte, and what the decoder does
with a chunk that has all its bytes and with one that has not. -/

namespace Sys2Proof

/-! ## The kinds of first byte -/

/-- R50: a first byte is one of the sentinels, or is read by its tag, LUMA's or one of the tags of a one-byte chunk. -/
theorem Params.firstByte_cases (c : Params) (b0 : Byte) :
    b0 = c.opRgb ∨ b0 = c.opRgba ∨ c.tagged b0 = true ∧ tagOf b0 = c.tagLuma
      ∨ c.tagged b0 = true ∧ tagOf b0 ≠ c.tagLuma := by
  rw [tagged_iff]
  tauto

theorem tagOf_eq_iff (b : Byte) (t : BitVec 2) : tagOf b = t ↔ b.toNat / 64 = t.toNat := by
  rw [← toNat_tagOf, BitVec.toNat_inj]

/-! ## `chunkLen`, by the kind of the first byte -/

theorem chunkLen_opRgb (c : Params) : chunkLen c c.opRgb = 4 := if_pos rfl

theorem chunkLen_opRgba (c : Params) (hc : c.legal = true) : chunkLen c c.opRgba = 5 := by
  obtain ⟨-, h, -⟩ := (c.legal_iff).mp hc
  simp [chunkLen, h.symm]

theorem chunkLen_luma (c : Params) (b0 : Byte) (hb : c.tagged b0 = true) (ht : tagOf b0 = c.tagLuma) :
    chunkLen c b0 = 2 := by
  rw [Params.tagged_iff] at hb
  simp [chunkLen, hb, ht]

theorem chunkLen_tagged_not_luma (c : Params) (b0 : Byte) (hb : c.tagged b0 = true) (ht : tagOf b0 ≠ c.tagLuma) :
    chunkLen c b0 = 1 := by
  rw [Params.tagged_iff] at hb
  simp [chunkLen, hb, ht]

/-! ## The decoder on a chunk that is cut short, and on a whole one -/

/-- A tag other than LUMA's is INDEX's, DIFF's or RUN's, whose chunks are their first byte alone. -/
theorem decodeChunk_tagged_not_luma (c : Params) (hc : c.legal = true) (b0 : Byte) (rest : List Byte)
    (hb : c.tagged b0 = true) (ht : tagOf b0 ≠ c.tagLuma) :
    ∃ i, decodeChunk c (b0 :: rest) = .ok i rest ∧ i.len = 1 := by
  rcases c.tag_cases hc (tagOf b0) with h | h | h | h
  · exact ⟨_, decodeChunk_index c b0 rest hb h, rfl⟩
  · exact ⟨_, decodeChunk_diff c hc b0 rest hb h, rfl⟩
  · exact absurd h ht
  · exact ⟨_, decodeChunk_run c hc b0 rest hb h, rfl⟩

/-- R102: the decoder rejects a chunk with fewer bytes than its first byte asks for. -/
theorem decodeChunk_eq_truncated (c : Params) (hc : c.legal = true) (b0 : Byte) (rest : List Byte)
    (h : rest.length + 1 < chunkLen c b0) : decodeChunk c (b0 :: rest) = .bad .truncated := by
  rcases c.firstByte_cases b0 with rfl | rfl | ⟨hb, ht⟩ | ⟨hb, ht⟩
  · rw [chunkLen_opRgb] at h
    rcases rest with _ | ⟨r, _ | ⟨g, _ | ⟨b, rest⟩⟩⟩
    case cons.cons.cons => simp only [List.length_cons] at h; omega
    all_goals simp [decodeChunk]
  · rw [chunkLen_opRgba c hc] at h
    obtain ⟨-, hne, -⟩ := (c.legal_iff).mp hc
    rcases rest with _ | ⟨r, _ | ⟨g, _ | ⟨b, _ | ⟨a, rest⟩⟩⟩⟩
    case cons.cons.cons.cons => simp only [List.length_cons] at h; omega
    all_goals simp [decodeChunk, hne.symm]
  · rw [chunkLen_luma c b0 hb ht] at h
    obtain ⟨⟨-, hIndex, -, hDiff, -⟩, -⟩ := (c.legal_iff).mp hc
    rw [Params.tagged_iff] at hb
    obtain rfl : rest = [] := List.length_eq_zero_iff.mp (by omega)
    simp [decodeChunk, hb, ht, hIndex.symm, hDiff.symm]
  · rw [chunkLen_tagged_not_luma c b0 hb ht] at h
    omega

/-- R51: where its bytes are there, the decoder takes exactly as many as the first byte asks for. -/
theorem decodeChunk_takes_chunkLen (c : Params) (hc : c.legal = true) (b0 : Byte) (rest : List Byte)
    (h : chunkLen c b0 ≤ rest.length + 1) :
    ∃ i, decodeChunk c (b0 :: rest) = .ok i (rest.drop (chunkLen c b0 - 1)) ∧ i.len = chunkLen c b0 := by
  rcases c.firstByte_cases b0 with rfl | rfl | ⟨hb, ht⟩ | ⟨hb, ht⟩
  · rw [chunkLen_opRgb] at h ⊢
    rcases rest with _ | ⟨r, _ | ⟨g, _ | ⟨b, rest⟩⟩⟩
    case cons.cons.cons => exact ⟨_, decodeChunk_rgb c r g b rest, rfl⟩
    all_goals simp at h
  · rw [chunkLen_opRgba c hc] at h ⊢
    rcases rest with _ | ⟨r, _ | ⟨g, _ | ⟨b, _ | ⟨a, rest⟩⟩⟩⟩
    case cons.cons.cons.cons => exact ⟨_, decodeChunk_rgba c hc r g b a rest, rfl⟩
    all_goals simp at h
  · rw [chunkLen_luma c b0 hb ht] at h ⊢
    obtain ⟨b1, rest, rfl⟩ := List.exists_cons_of_length_pos (by omega : 0 < rest.length)
    exact ⟨_, decodeChunk_luma c hc b0 b1 rest hb ht, rfl⟩
  · rw [chunkLen_tagged_not_luma c b0 hb ht]
    exact decodeChunk_tagged_not_luma c hc b0 rest hb ht

/-- Settles O5, by the kind of the first byte. -/
theorem chunkLengthByFirstByteOnly : Obligations.ChunkLengthByFirstByteOnly := by
  intro c hc b0 rest
  refine ⟨?_, decodeChunk_eq_truncated c hc b0 rest, decodeChunk_takes_chunkLen c hc b0 rest⟩
  simp only [chunkLen, tagOf_eq_iff]

end Sys2Proof

/-! The helpers of 40_helpers.md: the pixel hash (R70), the delta of a channel (R72), the tests of DIFF and LUMA (R73, R74), the
biased fields that store deltas, and reconstruction (R75). -/

namespace Sys2Proof.Machine

/-! ## The delta of a channel -/

theorem neg_128_le_delta (p q : Byte) : -128 ≤ delta p q := BitVec.le_toInt (p - q)

theorem delta_le_127 (p q : Byte) : delta p q ≤ 127 := Int.le_sub_one_of_lt (BitVec.toInt_lt (x := p - q))

/-- R72: the delta differs from the exact difference of the channels by a multiple of 256. -/
theorem delta_emod (p q : Byte) : (delta p q - ((p.toNat : Int) - q.toNat)) % 256 = 0 := by
  have h : delta p q = ((p.toNat : Int) - q.toNat).bmod 256 := by
    rw [delta, BitVec.toInt_sub, BitVec.toInt_eq_toNat_bmod p, BitVec.toInt_eq_toNat_bmod q, Int.bmod_sub_bmod,
      Int.sub_bmod_bmod]
  rw [h]
  exact Int.emod_eq_zero_of_dvd Int.dvd_bmod_sub_self

/-! ## The quantizers' tests -/

theorem diffRange_iff (d : Int) : diffRange d = true ↔ -2 ≤ d ∧ d ≤ 1 := by
  simp only [diffRange, Bool.and_eq_true, decide_eq_true_eq]

theorem lumaRange_iff (d : Int) : lumaRange d = true ↔ -8 ≤ d ∧ d ≤ 7 := by
  simp only [lumaRange, Bool.and_eq_true, decide_eq_true_eq]

/-- R73: what `diff_ok` asks for. -/
theorem diffOk_iff (p q : Pixel) :
    diffOk p q = true ↔ p.a = q.a ∧ (-2 ≤ delta p.r q.r ∧ delta p.r q.r ≤ 1)
      ∧ (-2 ≤ delta p.g q.g ∧ delta p.g q.g ≤ 1) ∧ (-2 ≤ delta p.b q.b ∧ delta p.b q.b ≤ 1) := by
  simp only [diffOk, Bool.and_eq_true, decide_eq_true_eq, diffRange_iff, and_assoc]

/-- R74: what `luma_ok` asks for. -/
theorem lumaOk_iff (p q : Pixel) :
    lumaOk p q = true ↔ p.a = q.a ∧ (-32 ≤ delta p.g q.g ∧ delta p.g q.g ≤ 31)
      ∧ (-8 ≤ delta p.r q.r - delta p.g q.g ∧ delta p.r q.r - delta p.g q.g ≤ 7)
      ∧ (-8 ≤ delta p.b q.b - delta p.g q.g ∧ delta p.b q.b - delta p.g q.g ≤ 7) := by
  simp only [lumaOk, Bool.and_eq_true, decide_eq_true_eq, lumaRange_iff, and_assoc]

/-- R73: the signed range of a DIFF delta is an 8-bit test of the biased wrap-around difference. -/
theorem delta_in_diffRange_iff (p q : Byte) :
    (-2 ≤ delta p q ∧ delta p q ≤ 1) ↔ (p - q + 2).toNat < 4 := by
  have := (p - q).isLt
  have two : (2 : Byte).toNat = 2 := rfl
  rw [delta, BitVec.toInt_eq_toNat_cond, BitVec.toNat_add, two]
  split <;> omega

/-! ## A delta in its field, biased, and back -/

/-- A biased delta that fits its field is stored unchanged. -/
theorem toNat_ofInt_of_lt {n : Nat} {x : Int} (h0 : 0 ≤ x) (h : x < (2 ^ n : Nat)) :
    ((BitVec.ofInt n x).toNat : Int) = x := by
  rw [BitVec.toNat_ofInt, Int.emod_eq_of_lt h0 h, Int.toNat_of_nonneg h0]

theorem toNat_diffField {d : Int} (h : -2 ≤ d ∧ d ≤ 1) : ((BitVec.ofInt 2 (d + 2)).toNat : Int) = d + 2 :=
  toNat_ofInt_of_lt (by omega) (by omega)

theorem diffDelta_diffField {d : Int} (h : -2 ≤ d ∧ d ≤ 1) : diffDelta (BitVec.ofInt 2 (d + 2)) = d := by
  rw [diffDelta, toNat_diffField h]; omega

theorem lumaGreen_greenField {d : Int} (h : -32 ≤ d ∧ d ≤ 31) : lumaGreen (BitVec.ofInt 6 (d + 32)) = d := by
  rw [lumaGreen, toNat_ofInt_of_lt (by omega) (by omega)]; omega

/-- R75: `(d_r − d_g) + d_g = d_r`. -/
theorem lumaOther_otherField {d g : Int} (h : -8 ≤ d - g ∧ d - g ≤ 7) :
    lumaOther (BitVec.ofInt 4 (d - g + 8)) g = d := by
  rw [lumaOther, toNat_ofInt_of_lt (by omega) (by omega)]; omega

/-! ## Reconstruction -/

theorem addDelta_eq_wrapAdd (q : Byte) (d : Int) : addDelta q d = wrapAdd q d := by
  apply BitVec.eq_of_toNat_eq
  simp only [addDelta, wrapAdd, BitVec.toNat_add, BitVec.toNat_ofInt, BitVec.toNat_ofNat]
  omega

/-- R75: addition modulo 256 undoes subtraction modulo 256. -/
theorem addDelta_delta (p q : Byte) : addDelta q (delta p q) = p := by
  rw [addDelta, delta, BitVec.ofInt_toInt, BitVec.add_comm, BitVec.sub_add_cancel]

theorem lumaOther_lumaGreen_bounds (f : BitVec 4) (g : BitVec 6) :
    -40 ≤ lumaOther f (lumaGreen g) ∧ lumaOther f (lumaGreen g) ≤ 38 := by
  have := f.isLt
  have := g.isLt
  unfold lumaOther lumaGreen
  omega

/-- The DIFF chunk of a pixel produces that pixel from the previous one. -/
theorem pixelDiff_diffChunk (p : Pixel) (d : DecUnit) (h : diffOk p d.prev = true) :
    ∃ dr dg db, diffChunk p d.prev = .diff dr dg db ∧ pixelDiff d dr dg db = p := by
  obtain ⟨ha, hr, hg, hb⟩ := (diffOk_iff p d.prev).mp h
  refine ⟨_, _, _, rfl, ?_⟩
  simp only [pixelDiff, diffDelta_diffField hr, diffDelta_diffField hg, diffDelta_diffField hb, addDelta_delta, ← ha]

/-- The LUMA chunk of a pixel produces that pixel from the previous one. -/
theorem pixelLuma_lumaChunk (p : Pixel) (d : DecUnit) (h : lumaOk p d.prev = true) :
    ∃ dg drdg dbdg, lumaChunk p d.prev = .luma dg drdg dbdg ∧ pixelLuma d dg drdg dbdg = p := by
  obtain ⟨ha, hg, hr, hb⟩ := (lumaOk_iff p d.prev).mp h
  refine ⟨_, _, _, rfl, ?_⟩
  simp only [pixelLuma, lumaGreen_greenField hg, lumaOther_otherField hr, lumaOther_otherField hb, addDelta_delta, ← ha]

/-! ## The hash -/

theorem toNat_pixelHash (p : Pixel) :
    (pixelHash p).toNat = (3 * p.r.toNat + 5 * p.g.toNat + 7 * p.b.toNat + 11 * p.a.toNat) % 64 :=
  BitVec.toNat_ofNat _ _

/-- R70: 6630 = (3 + 5 + 7 + 11) · 255. -/
theorem hashSum_le (p : Pixel) : 3 * p.r.toNat + 5 * p.g.toNat + 7 * p.b.toNat + 11 * p.a.toNat ≤ 6630 := by
  have := p.r.isLt
  have := p.g.isLt
  have := p.b.isLt
  have := p.a.isLt
  omega

/-! ## The statements -/

/-- Settles O12: the alpha clause is the first of each quantizer's test. -/
theorem deltaIsTheSignedWrappedDifference : Obligations.DeltaIsTheSignedWrappedDifference := by
  refine ⟨fun p q => ⟨neg_128_le_delta p q, delta_le_127 p q, delta_emod p q⟩, by decide, by decide, ?_⟩
  rintro p q (h | h)
  · exact ((diffOk_iff p q).mp h).1
  · exact ((lumaOk_iff p q).mp h).1

/-- Settles O13: the two wordings agree channel by channel, and each biased delta fits its field of two bits. -/
theorem diffQuantizer : Obligations.DiffQuantizer := by
  intro p q
  refine ⟨diffOk_iff p q, ?_, fun h c => ⟨_, rfl, ?_⟩⟩
  · simp only [diffOk_iff, delta_in_diffRange_iff]
  · obtain ⟨-, hr, hg, hb⟩ := (diffOk_iff p q).mp h
    rw [toNat_diff]
    push_cast
    rw [toNat_diffField hr, toNat_diffField hg, toNat_diffField hb]

/-- Settles O15, by the field lemmas and `addDelta_delta`. -/
theorem reconstructionUndoesTheDeltas : Obligations.ReconstructionUndoesTheDeltas :=
  ⟨addDelta_eq_wrapAdd, fun p q => by rw [← addDelta_eq_wrapAdd, addDelta_delta], lumaOther_lumaGreen_bounds,
    pixelDiff_diffChunk, pixelLuma_lumaChunk⟩

/-- Settles O10: the listed values are computed. -/
theorem hashIsTheWeightedSumModulo64 : Obligations.HashIsTheWeightedSumModulo64 :=
  ⟨fun p => ⟨toNat_pixelHash p, hashSum_le p⟩, by decide, by decide, by decide, by decide, by decide⟩

end Sys2Proof.Machine

/-! The steps of the encoder (41_encoder.md): what `Pix` and `End` answer in an active encoder, the run branch for any counter, and
the bytes of a flush and of a chunk's class. -/

namespace Sys2Proof.Machine

/-! ## `Pix` and `End` of an active encoder, as steps of the machine -/

theorem encPix_enabled (c : Params) (p : Pixel) (s : State) (h : s.enc.phase = .active) :
    encPix c p s = .next (s.withEnc (s.enc.pix c p)) := if_pos h

theorem encEnd_enabled (c : Params) (s : State) (h : s.enc.phase = .active) :
    encEnd c s = .next (s.withEnc (s.enc.stop c)) := if_pos h

theorem step_encPix (s : State) (p : Pixel) (rest : List Event) (he : s.events = .encPix p :: rest)
    (hp : s.enc.phase = .active) :
    step s = .next ((s.withEvents rest).withEnc (s.enc.pix Config.params p)) := by
  rw [step_of_events s _ rest he]
  exact encPix_enabled _ p (s.withEvents rest) hp

theorem step_encEnd (s : State) (rest : List Event) (he : s.events = .encEnd :: rest) (hp : s.enc.phase = .active) :
    step s = .next ((s.withEvents rest).withEnc (s.enc.stop Config.params)) := by
  rw [step_of_events s _ rest he]
  exact encEnd_enabled _ (s.withEvents rest) hp

/-! ## The unit's operations -/

/-- R84: what a flush emits. -/
theorem EncUnit.flush_bytes (c : Params) (u : EncUnit) :
    (u.flush c).2 = if u.run = 0 then [] else [c.tagRun ++ (u.run - 1)] := by
  by_cases h : u.run = 0
  · rw [flush_of_zero c u h, if_pos h]
  · rw [flush_of_ne c u h, if_neg h]

/-- R91: `End` is the flush, and the phase. -/
theorem EncUnit.stop_eq (c : Params) (u : EncUnit) :
    u.stop c = ({ u with run := 0, phase := .idle }, if u.run = 0 then [] else [c.tagRun ++ (u.run - 1)]) := by
  simp only [stop, flush_unit, flush_bytes]

/-- R83, off the cap, whatever the counter holds: at 63, which no pass reaches, it wraps to 0, and a cap is at least 1. -/
theorem EncUnit.pix_run_ne (c : Params) (u : EncUnit) (h : u.run.toNat + 1 ≠ c.maxRun) (h1 : 1 ≤ c.maxRun) :
    u.pix c u.prev = (u.ran (u.run + 1), []) := by
  have hne : (u.run + 1).toNat ≠ c.maxRun := by
    have one : (1 : BitVec 6).toNat = 1 := rfl
    rw [BitVec.toNat_add, one]
    omega
  simp only [pix, if_true, absorb, hne, if_false]
  rfl

/-- R82, R85 to R89: the bytes of the first class whose test holds. -/
theorem EncUnit.encode_classify (c : Params) (u : EncUnit) (p : Pixel) :
    encode c (u.classify p)
      = if u.cache.read (pixelHash p) = p then [c.tagIndex ++ pixelHash p]
        else if diffOk p u.prev = true then encode c (diffChunk p u.prev)
        else if lumaOk p u.prev = true then encode c (lumaChunk p u.prev)
        else if p.a = u.prev.a then [c.opRgb, p.r, p.g, p.b]
        else [c.opRgba, p.r, p.g, p.b, p.a] := by
  simp only [classify, apply_ite (encode c)]
  rfl

/-! ## The statements -/

/-- Settles O36: a pixel equal to `prev` at the cap, one off the cap, and one that differs; `prev`, the cache and the phase after
the step are the same function of the pixel in all three (`EncUnit.pix_regs`). -/
theorem pixelStepFollowsThePriority : Obligations.PixelStepFollowsThePriority := by
  intro s p rest he hp
  obtain ⟨hCache, hPrev, hPhase⟩ := s.enc.pix_regs Config.params p
  refine ⟨_, step_encPix s p rest he hp, ?atCap, ?offCap, ?differs, hPrev, ?stored, ?otherSlots, hPhase.trans hp,
    rfl, rfl, rfl, rfl, rfl, rfl, rfl, rfl, rfl⟩
  case atCap =>
    rintro rfl hCap
    rw [EncUnit.pix_run_cap _ _ hCap (by decide)]
    exact ⟨rfl, rfl⟩
  case offCap =>
    rintro rfl hCap
    rw [EncUnit.pix_run_ne _ _ hCap (by decide)]
    exact ⟨rfl, List.append_nil _⟩
  case differs =>
    intro hne
    rw [EncUnit.pix_of_ne _ _ p hne, EncUnit.flush_bytes, EncUnit.encode_classify]
    exact ⟨rfl, (List.append_assoc ..).symm⟩
  case stored =>
    rw [State.withEnc_enc, hCache, Cache.read_write_same]
  case otherSlots =>
    intro slot hslot
    rw [State.withEnc_enc, hCache, Cache.read_write_other _ _ _ _ hslot]

/-- Settles O37, by the equation of `EncUnit.stop`. -/
theorem endStepFlushesTheRun : Obligations.EndStepFlushesTheRun := by
  intro s rest he hp
  rw [step_encEnd s rest he hp, EncUnit.stop_eq]
  rfl

end Sys2Proof.Machine

/-! The chunks of the decoder (42_decoder.md rules R103 to R109): what a `Chunk` event does where it is enabled, said once for every
kind, and the pixels of DIFF and LUMA by the wrap-around addition of 00_scope.md section 6. -/

namespace Sys2Proof

/-- Under the parameters of this hardware a first byte below the sentinels is read by its tag. -/
theorem Config.tagged_of_toNat_lt {b0 : Byte} (h : b0.toNat < 254) : Config.params.tagged b0 = true := by
  rw [Params.tagged_iff]
  constructor <;> rintro rfl <;> exact absurd h (by decide)

theorem payloadOf_eq_ofNat (b : Byte) : payloadOf b = BitVec.ofNat 6 (b.toNat % 64) := by
  rw [← toNat_payloadOf, BitVec.ofNat_toNat, BitVec.setWidth_eq]

end Sys2Proof

namespace Sys2Proof.Machine

/-! ## Every chunk -/

/-- R109: `exec` of a chunk does what `ChunkDone` says. -/
theorem exec_chunkDone (i : Instr) (s : State) (h : i.place = .chunk) :
    ∃ t, exec i s = .next t ∧ ChunkDone s t (chunkPixel s.dec i) (chunkCount i) i.len :=
  ⟨_, exec_chunk i s h, finishChunk_done ..⟩

/-- R102: a RUN outputs its length, every other chunk one pixel. -/
theorem chunkCount_cases (i : Instr) :
    (∃ m, i = .run m ∧ chunkCount i = m.toNat + 1) ∨ ((∀ m, i ≠ .run m) ∧ chunkCount i = 1) := by
  cases i with
  | run m => exact .inl ⟨m, rfl, rfl⟩
  | _ => exact .inr ⟨nofun, rfl⟩

/-- R104: only RGBA and INDEX produce a pixel of another alpha than the previous one. -/
theorem chunkPixel_alpha (d : DecUnit) (i : Instr) (h : (chunkPixel d i).a ≠ d.prev.a) :
    (∃ r g b a, i = .rgba r g b a) ∨ ∃ slot, i = .index slot := by
  cases i with
  | rgba r g b a => exact .inl ⟨r, g, b, a, rfl⟩
  | index slot => exact .inr ⟨slot, rfl⟩
  | _ => exact absurd rfl h

/-! ## `Chunk` events -/

/-- R101: `Chunk` where it is enabled decodes what is left of the stream and executes it, or raises its error. -/
theorem step_atChunk {s : State} {rest : List Event} {b0 : Byte} {tl : List Byte} (h : AtChunk s rest (b0 :: tl)) :
    step s = runDecoded (decodeChunk Config.params (b0 :: tl)) (s.withEvents rest) := by
  obtain ⟨he, hp, input, hi, hd⟩ := h
  have hlt : s.dec.pos < input.length := by
    by_contra hge
    rw [List.drop_eq_nil_of_le (Nat.le_of_not_lt hge)] at hd
    cases hd
  rw [step_of_events s _ rest he, ← hd]
  exact decChunk_enabled _ (s.withEvents rest) input hp hi hlt

/-- R102: a chunk that is there whole is executed. -/
theorem step_atChunk_done {s : State} {rest : List Event} {b0 : Byte} {tl tl' : List Byte} {i : Instr}
    (h : AtChunk s rest (b0 :: tl)) (hd : decodeChunk Config.params (b0 :: tl) = .ok i tl') :
    ∃ t, step s = .next t ∧ ChunkDone (s.withEvents rest) t (chunkPixel s.dec i) (chunkCount i) i.len := by
  rw [step_atChunk h, hd]
  exact exec_chunkDone i (s.withEvents rest) (decodeChunk_place _ _ _ _ hd)

/-- R102: with fewer bytes left than the first asks for, `TruncatedChunk(pos)` is raised and nothing else changes. -/
theorem step_atChunk_truncated {s : State} {rest : List Event} {b0 : Byte} {tl : List Byte}
    (h : AtChunk s rest (b0 :: tl)) (hlen : tl.length + 1 < chunkLen Config.params b0) :
    step s = .next ((s.withEvents rest).decRaise .truncatedChunk s.dec.pos) := by
  rw [step_atChunk h, decodeChunk_eq_truncated _ Config.params_legal b0 tl hlen]
  rfl

/-! ## The pixels of DIFF and LUMA -/

theorem pixelDiff_eq_wrapAdd (d : DecUnit) (dr dg db : BitVec 2) :
    pixelDiff d dr dg db = ⟨wrapAdd d.prev.r (dr.toNat - 2), wrapAdd d.prev.g (dg.toNat - 2),
      wrapAdd d.prev.b (db.toNat - 2), d.prev.a⟩ := by
  simp only [pixelDiff, diffDelta, addDelta_eq_wrapAdd]

theorem pixelLuma_eq_wrapAdd (d : DecUnit) (dg : BitVec 6) (drdg dbdg : BitVec 4) :
    pixelLuma d dg drdg dbdg = ⟨wrapAdd d.prev.r ((drdg.toNat - 8) + (dg.toNat - 32)),
      wrapAdd d.prev.g (dg.toNat - 32), wrapAdd d.prev.b ((dbdg.toNat - 8) + (dg.toNat - 32)), d.prev.a⟩ := by
  simp only [pixelLuma, lumaGreen, lumaOther, addDelta_eq_wrapAdd]

end Sys2Proof.Machine

/-! The statements, in a namespace of their own, since `diffChunk` and `lumaChunk` name the encoder's chunks in the model. -/

namespace Sys2Proof.Machine.Decoder


/-- Settles O22, by `exec_chunk`; the two cases are those of `chunkCount`. -/
theorem everyChunkWritesBack : Obligations.EveryChunkWritesBack := by
  intro i s hp
  obtain ⟨t, ht, hdone⟩ := exec_chunkDone i s hp
  exact ⟨t, _, _, ht, hdone, chunkCount_cases i⟩

/-- Settles O16, by what the decoder answers on the sentinel with and without its three bytes. -/
theorem rgbChunk : Obligations.RgbChunk := by
  refine ⟨fun r g b s => exec_chunkDone (.rgb r g b) s rfl, fun s rest r g b tl h => ?whole,
    fun s rest tl h hlen => ?short⟩
  case whole => exact step_atChunk_done h (decodeChunk_rgb _ r g b tl)
  case short => exact step_atChunk_truncated h (by rw [chunkLen_opRgb]; omega)

/-- Settles O17, by what the decoder answers on the sentinel with and without its four bytes, and `chunkPixel_alpha`. -/
theorem rgbaChunk : Obligations.RgbaChunk := by
  refine ⟨fun r g b a s => exec_chunkDone (.rgba r g b a) s rfl, fun s rest r g b a tl h => ?whole,
    fun s rest tl h hlen => ?short, fun i s t hp ht ha => ?alpha⟩
  case whole => exact step_atChunk_done h (decodeChunk_rgba _ Config.params_legal r g b a tl)
  case short => exact step_atChunk_truncated h (by rw [chunkLen_opRgba _ Config.params_legal]; omega)
  case alpha =>
    rw [exec_chunk i s hp] at ht
    cases ht
    exact chunkPixel_alpha s.dec i ha

/-- Settles O18: the write-back at the pixel's own slot puts there what it held, when that is the slot that was read or slot 0. -/
theorem indexChunk : Obligations.IndexChunk := by
  have hexec (slot : BitVec 6) (s : State) := exec_chunkDone (.index slot) s rfl
  refine ⟨hexec, fun s rest b0 tl h htag => ?step, fun slot s hread => ?reset, fun slot s hhash => ?own⟩
  case step =>
    have hzero : b0.toNat / 64 = 0 := htag
    rw [← payloadOf_eq_ofNat]
    exact step_atChunk_done h
      (decodeChunk_index _ b0 tl (Config.tagged_of_toNat_lt (by omega)) ((tagOf_eq_iff ..).mpr htag))
  case reset =>
    obtain ⟨t, ht, hdone⟩ := hexec slot s
    have hpix : chunkPixel s.dec (.index slot) = ⟨0, 0, 0, 0⟩ := hread
    rw [hpix] at hdone
    exact ⟨t, ht, hdone.prev, hdone.stored, hdone.otherSlot⟩
  case own =>
    obtain ⟨t, ht, hdone⟩ := hexec slot s
    refine ⟨t, ht, fun slot' => ?_⟩
    by_cases heq : slot' = slot
    · subst heq
      have hstored := hdone.stored
      rwa [show chunkPixel s.dec (.index slot') = s.dec.cache.read slot' from rfl, hhash] at hstored
    · exact hdone.otherSlot slot' fun h' => heq (h'.trans hhash)

/-- Settles O19, by `pixelDiff_eq_wrapAdd` on the fields of the byte. -/
theorem diffChunk : Obligations.DiffChunk := by
  refine ⟨fun dr dg db s => ?exec, fun s rest b0 tl h htag => ?step⟩
  case exec =>
    rw [← pixelDiff_eq_wrapAdd]
    exact exec_chunkDone (.diff dr dg db) s rfl
  case step =>
    have hone : b0.toNat / 64 = 1 := htag
    rw [← toNat_diffRed, ← toNat_diffGreen, ← toNat_diffBlue, ← pixelDiff_eq_wrapAdd]
    exact step_atChunk_done h (decodeChunk_diff _ Config.params_legal b0 tl
      (Config.tagged_of_toNat_lt (by omega)) ((tagOf_eq_iff ..).mpr htag))

/-- Settles O20, by `pixelLuma_eq_wrapAdd` on the payload and the nibbles; a lone first byte is a chunk cut short. -/
theorem lumaChunk : Obligations.LumaChunk := by
  have htagged {b0 : Byte} (htag : b0.toNat / 64 = Config.params.tagLuma.toNat) : Config.params.tagged b0 = true := by
    have htwo : b0.toNat / 64 = 2 := htag
    exact Config.tagged_of_toNat_lt (by omega)
  refine ⟨fun dg drdg dbdg s => ?exec, fun s rest b0 b1 tl h htag => ?step, fun s rest b0 h htag => ?short⟩
  case exec =>
    rw [← pixelLuma_eq_wrapAdd]
    exact exec_chunkDone (.luma dg drdg dbdg) s rfl
  case step =>
    rw [← toNat_payloadOf, ← toNat_highNibble, ← toNat_lowNibble, ← pixelLuma_eq_wrapAdd]
    exact step_atChunk_done h
      (decodeChunk_luma _ Config.params_legal b0 b1 tl (htagged htag) ((tagOf_eq_iff ..).mpr htag))
  case short =>
    exact step_atChunk_truncated h (by
      rw [chunkLen_luma _ b0 (htagged htag) ((tagOf_eq_iff ..).mpr htag)]
      decide)

/-- Settles O21; below the cap a RUN byte is no sentinel. -/
theorem runChunk : Obligations.RunChunk := by
  refine ⟨fun n s => exec_chunkDone (.run n) s rfl, fun s rest b0 tl h htag hcap => ?step⟩
  have hthree : b0.toNat / 64 = 3 := htag
  have hbelow : b0.toNat % 64 < 62 := hcap
  rw [← toNat_payloadOf]
  exact step_atChunk_done h (decodeChunk_run _ Config.params_legal b0 tl
    (Config.tagged_of_toNat_lt (by omega)) ((tagOf_eq_iff ..).mpr htag))

end Sys2Proof.Machine.Decoder

/-! The byte-serial form of the decoder (42_decoder.md rule R111): the bytes of a chunk that is not whole only join the buffer, the
last byte of a chunk executes it, and so a walk over the chunks of a stream (`Walk`) is what its bytes do one by one. -/

namespace Sys2Proof

/-! ## Bytes that begin a chunk and do not end it -/

/-- R18: the bytes are fewer than the chunk that they begin. -/
def Unfinished (c : Params) (bs : List Byte) : Prop :=
  ∀ b0 more, bs = b0 :: more → bs.length < chunkLen c b0

theorem Unfinished.nil (c : Params) : Unfinished c [] := by
  rintro b0 more ⟨⟩

theorem Unfinished.of_append {c : Params} {bs cs : List Byte} (h : Unfinished c (bs ++ cs)) : Unfinished c bs := by
  rintro b0 more rfl
  have := h b0 (more ++ cs) rfl
  rw [List.length_append] at this
  omega

/-- R102: the bytes that the decoder calls truncated are those of an unfinished chunk. -/
theorem Unfinished.of_truncated {c : Params} (hc : c.legal = true) {bs : List Byte}
    (h : decodeChunk c bs = .bad .truncated) : Unfinished c bs := by
  rintro b0 more rfl
  by_contra hlen
  obtain ⟨i, hi, -⟩ := decodeChunk_takes_chunkLen c hc b0 more (Nat.le_of_not_lt hlen)
  cases h.symm.trans hi

/-- R51: a chunk that was read has the length its first byte asks for. -/
theorem len_of_decodeChunk {c : Params} (hc : c.legal = true) {b0 : Byte} {more rest : List Byte} {i : Instr}
    (h : decodeChunk c (b0 :: more) = .ok i rest) : i.len = chunkLen c b0 := by
  rcases Nat.lt_or_ge (more.length + 1) (chunkLen c b0) with hlen | hlen
  · cases h.symm.trans (decodeChunk_eq_truncated c hc b0 more hlen)
  · obtain ⟨j, hj, hlenj⟩ := decodeChunk_takes_chunkLen c hc b0 more hlen
    cases h.symm.trans hj
    exact hlenj

/-- R111: bytes with nothing left over are a whole chunk of the length that the first asks for. -/
theorem decodeChunk_whole {c : Params} (hc : c.legal = true) {b0 : Byte} {more : List Byte}
    (h : more.length + 1 = chunkLen c b0) : ∃ i, decodeChunk c (b0 :: more) = .ok i [] := by
  obtain ⟨i, hi, -⟩ := decodeChunk_takes_chunkLen c hc b0 more h.ge
  rw [List.drop_eq_nil_of_le (by omega)] at hi
  exact ⟨i, hi⟩

/-- No byte sequence is rejected for its tag (R60). -/
theorem decodeChunk_ne_unrecognizedTag {c : Params} (hc : c.legal = true) (bs : List Byte) :
    decodeChunk c bs ≠ .bad .unrecognizedTag := by
  cases bs with
  | nil => rintro ⟨⟩
  | cons b0 more =>
    rcases Nat.lt_or_ge (more.length + 1) (chunkLen c b0) with hlen | hlen
    · rw [decodeChunk_eq_truncated c hc b0 more hlen]
      rintro ⟨⟩
    · obtain ⟨i, hi, -⟩ := decodeChunk_takes_chunkLen c hc b0 more hlen
      rw [hi]
      rintro ⟨⟩

end Sys2Proof

namespace Sys2Proof.Machine

theorem chunkComplete_iff (c : Params) (b0 : Byte) (more : List Byte) :
    chunkComplete c (b0 :: more) = true ↔ more.length + 1 = chunkLen c b0 := decide_eq_true_iff

theorem chunkComplete_of_unfinished {c : Params} {bs : List Byte} (h : Unfinished c bs) : chunkComplete c bs = false := by
  cases bs with
  | nil => rfl
  | cons b0 more => exact decide_eq_false (h b0 more rfl).ne

/-- The last byte of a chunk makes it whole, and none before it does. -/
theorem unfinished_and_complete {c : Params} (hc : c.legal = true) {bs : List Byte} {b : Byte} {i : Instr}
    (h : decodeChunk c (bs ++ [b]) = .ok i []) : Unfinished c bs ∧ chunkComplete c (bs ++ [b]) = true := by
  have hlen : (bs ++ [b]).length = i.len := by
    rw [decodeChunk_bytes _ _ _ _ h, List.append_nil, encode_length]
  cases bs with
  | nil => exact ⟨.nil c, (chunkComplete_iff c b []).mpr (hlen.trans (len_of_decodeChunk hc h))⟩
  | cons b0 more =>
    have htotal := hlen.trans (len_of_decodeChunk hc h)
    refine ⟨?_, (chunkComplete_iff c b0 (more ++ [b])).mpr htotal⟩
    rintro _ _ ⟨⟩
    rw [List.length_append, List.length_singleton] at htotal
    omega

/-! ## One event -/

theorem step_decByte_partial (s : State) (b : Byte) (rest : List Event) (hp : s.dec.phase = .active)
    (hi : s.decIn = .serial) (h : chunkComplete Config.params (s.dec.buf ++ [b]) = false) :
    step (s.withEvents (.decByte b :: rest)) = .next ((s.withBuf (s.dec.buf ++ [b])).withEvents rest) := by
  rw [step_of_events _ _ rest rfl]
  exact decByte_partial _ b (s.withEvents rest) hp hi h

theorem step_decByte_complete (s : State) (b : Byte) (rest : List Event) (i : Instr) (hp : s.dec.phase = .active)
    (hi : s.decIn = .serial) (h : chunkComplete Config.params (s.dec.buf ++ [b]) = true)
    (hd : decodeChunk Config.params (s.dec.buf ++ [b]) = .ok i []) :
    step (s.withEvents (.decByte b :: rest)) = exec i ((s.withBuf []).withEvents rest) := by
  rw [step_of_events _ _ rest rfl]
  refine (decByte_complete _ b (s.withEvents rest) hp hi h).trans ?_
  simp only [State.withEvents_dec, hd]
  rfl

theorem step_decEnd_serial (s : State) (rest : List Event) (hp : s.dec.phase = .active) (hi : s.decIn = .serial)
    (hb : s.dec.buf = []) : step (s.withEvents (.decEnd :: rest)) = .next (s.decDone.withEvents rest) := by
  rw [step_of_events _ _ rest rfl]
  exact decEnd_serial (s.withEvents rest) hp hi hb

theorem step_decEnd_pending (s : State) (rest : List Event) (hp : s.dec.phase = .active) (hi : s.decIn = .serial)
    (hb : s.dec.buf ≠ []) :
    step (s.withEvents (.decEnd :: rest)) = .next ((s.decRaise .truncatedChunk s.dec.pos).withEvents rest) := by
  rw [step_of_events _ _ rest rfl]
  exact decEnd_pending (s.withEvents rest) hp hi hb

/-- R111: a byte that does not complete a chunk, and one that does. -/
theorem step_decByte_cases (s : State) (rest : List Event) (b b0 : Byte) (more : List Byte)
    (he : s.events = .decByte b :: rest) (hp : s.dec.phase = .active) (hi : s.decIn = .serial)
    (hb : s.dec.buf ++ [b] = b0 :: more) :
    (more.length + 1 ≠ chunkLen Config.params b0 → step s = .next ((s.withBuf (s.dec.buf ++ [b])).withEvents rest))
    ∧ (more.length + 1 = chunkLen Config.params b0 →
      ∃ i, decodeChunk Config.params (b0 :: more) = .ok i [] ∧ step s = exec i ((s.withBuf []).withEvents rest)) := by
  have hs : s = s.withEvents (.decByte b :: rest) := by
    rw [← he]
    rfl
  refine ⟨fun hlen => ?_, fun hlen => ?_⟩
  · rw [hs]
    refine step_decByte_partial s b rest hp hi ?_
    rw [hb]
    exact decide_eq_false hlen
  · obtain ⟨i, hd⟩ := decodeChunk_whole Config.params_legal hlen
    refine ⟨i, hd, ?_⟩
    rw [hs]
    refine step_decByte_complete s b rest i hp hi ?_ ?_
    · rw [hb, chunkComplete_iff]
      exact hlen
    · rw [hb, hd]

/-! ## Many bytes -/

/-- The bytes of an unfinished chunk only join the buffer. -/
theorem run_unfinished (bs : List Byte) (s : State) (rest : List Event) (hp : s.dec.phase = .active)
    (hi : s.decIn = .serial) (h : Unfinished Config.params (s.dec.buf ++ bs)) :
    core.run bs.length (s.withEvents (bs.map .decByte ++ rest)) = .next ((s.withBuf (s.dec.buf ++ bs)).withEvents rest) := by
  induction bs generalizing s with
  | nil =>
    rw [List.append_nil]
    rfl
  | cons b bs ih =>
    rw [List.append_cons] at h ⊢
    have hstep := step_decByte_partial s b (bs.map .decByte ++ rest) hp hi (chunkComplete_of_unfinished h.of_append)
    exact (run_succ_of_step _ _ _ hstep).trans (ih (s.withBuf (s.dec.buf ++ [b])) hp hi h)

/-- The bytes of one chunk, from an empty buffer, execute it. -/
theorem run_chunk (i : Instr) (s : State) (rest : List Event) (hp : s.dec.phase = .active) (hi : s.decIn = .serial)
    (hb : s.dec.buf = []) (hd : decodeChunk Config.params (encode Config.params i) = .ok i []) :
    core.run (encode Config.params i).length (s.withEvents ((encode Config.params i).map .decByte ++ rest))
      = .next ((s.finishChunk (chunkPixel s.dec i) (chunkCount i) i.len).withEvents rest) := by
  have hplace := decodeChunk_place _ _ _ _ hd
  obtain ⟨bs, b, hbytes⟩ : ∃ bs b, encode Config.params i = bs ++ [b] := by
    refine (List.eq_nil_or_concat' _).resolve_left fun hnil => ?_
    rw [hnil] at hd
    cases hd
  rw [hbytes] at hd ⊢
  obtain ⟨hUnfinished, hComplete⟩ := unfinished_and_complete Config.params_legal hd
  have hfirst := run_unfinished bs s (.decByte b :: rest) hp hi (by rwa [hb])
  rw [hb, List.nil_append] at hfirst
  have hlast := step_decByte_complete (s.withBuf bs) b rest i hp hi hComplete hd
  have hbuf : (s.withBuf bs).withBuf [] = s := by
    rw [← hb]
    rfl
  rw [hbuf, exec_chunk i _ hplace] at hlast
  rw [List.map_append, List.append_assoc, List.length_append]
  exact (run_add core bs.length 1 _ _ hfirst).trans (run_succ_of_step 0 _ _ hlast)

theorem State.walked_dec (s : State) (d : DecUnit) (out : List Pixel) : (s.walked d out).dec = d := rfl

/-- The bytes of a walk, from an empty buffer, lead where the walk leads. -/
theorem run_walk {d d' : DecUnit} {bytes : List Byte} {n : Nat} {out : List Pixel}
    (h : Walk Config.params d bytes n d' out) :
    ∀ (s : State) (rest : List Event), s.dec = d → d.phase = .active → s.decIn = .serial → d.buf = [] →
      core.run bytes.length (s.withEvents (bytes.map .decByte ++ rest)) = .next ((s.walked d' out).withEvents rest) := by
  induction h with
  | nil d =>
    rintro s rest rfl - - -
    simp only [State.walked, List.append_nil]
    rfl
  | @cons _ d' bytes more n out i hd _ ih =>
    rintro s rest rfl hp hi hb
    have hone := run_chunk i s (more.map .decByte ++ rest) hp hi hb
      (by rw [← List.append_nil (encode _ i)]; exact decodeChunk_append _ _ _ [] i hd)
    rw [decodeChunk_bytes _ _ _ _ hd, List.map_append, List.append_assoc, List.length_append]
    refine (run_add core _ _ _ _ hone).trans ((ih (s.finishChunk (chunkPixel s.dec i) (chunkCount i) i.len) rest
      rfl hp hi hb).trans ?_)
    simp only [State.walked, State.finishChunk, List.append_assoc]

/-! ## A whole byte-serial pass -/

section SerialPass

variable {d' : DecUnit} {pre tail : List Byte} {n : Nat} {out : List Pixel}

/-- `Start` of a byte-serial pass, and the bytes of a walk. -/
theorem run_serial_walk (s : State) (rest : List Event)
    (he : s.events = .decStart .serial :: (pre.map .decByte ++ rest))
    (h : Walk Config.params (DecUnit.start (Config.freeOffset s.draws)) pre n d' out) :
    core.run (pre.length + 1) s = .next (((s.decStart .serial).walked d' out).withEvents rest) :=
  (run_succ_of_step _ _ _ (step_of_events s _ _ he)).trans (run_walk h (s.decStart .serial) rest rfl rfl rfl rfl)

/-- A byte-serial pass over a stream that is all chunks. -/
theorem run_serial_whole (s : State) (rest : List Event)
    (he : s.events = .decStart .serial :: (pre.map .decByte ++ .decEnd :: rest))
    (h : Walk Config.params (DecUnit.start (Config.freeOffset s.draws)) pre n d' out) :
    core.run (pre.length + 2) s = .next (((s.decStart .serial).walked d' out).decDone.withEvents rest) := by
  obtain ⟨-, hbuf, -, hphase, -⟩ := h.facts
  have hend := step_decEnd_serial ((s.decStart .serial).walked d' out) rest hphase rfl hbuf
  exact (run_add core (pre.length + 1) 1 _ _ (run_serial_walk s _ he h)).trans (run_succ_of_step 0 _ _ hend)

/-- A byte-serial pass over a stream whose last chunk is truncated. -/
theorem run_serial_truncated (s : State) (rest : List Event)
    (he : s.events = .decStart .serial :: ((pre ++ tail).map .decByte ++ .decEnd :: rest))
    (h : Walk Config.params (DecUnit.start (Config.freeOffset s.draws)) pre n d' out)
    (ht : decodeChunk Config.params tail = .bad .truncated) :
    core.run ((pre ++ tail).length + 2) s
      = .next (((((s.decStart .serial).walked d' out).withBuf tail).decRaise .truncatedChunk d'.pos).withEvents rest) := by
  obtain ⟨-, hbuf, -, hphase, -⟩ := h.facts
  rw [DecUnit.start_buf] at hbuf
  rw [List.map_append, List.append_assoc] at he
  have hwalk := run_serial_walk s (tail.map .decByte ++ .decEnd :: rest) he h
  have htail := run_unfinished tail ((s.decStart .serial).walked d' out) (.decEnd :: rest) hphase rfl
    (by rw [State.walked_dec, hbuf]; exact .of_truncated Config.params_legal ht)
  have hend := step_decEnd_pending (((s.decStart .serial).walked d' out).withBuf tail) rest hphase rfl
    (by rintro rfl; cases ht)
  rw [State.walked_dec, hbuf] at htail
  rw [List.length_append, show pre.length + tail.length + 2 = (pre.length + 1) + (tail.length + 1) by omega]
  exact (run_add core _ _ _ _ hwalk).trans ((run_add core _ _ _ _ htail).trans (run_succ_of_step 0 _ _ hend))

end SerialPass

/-! ## The statement -/

/-- Settles O32: the two forms do the same on the chunks at the head of the input (`run_walk`, `decodePass_whole`), and what is
left is nothing or a truncated chunk, which stays in the buffer until `End`. -/
theorem byteSerialFormAgrees : Obligations.ByteSerialFormAgrees := by
  refine ⟨step_decByte_cases, fun s rest he hp hi => ⟨fun hb => ?pending, fun hb => ?empty⟩, fun input s rest he => ?pass⟩
  case pending => exact (step_of_events s _ rest he).trans (decEnd_pending (s.withEvents rest) hp hi hb)
  case empty => exact (step_of_events s _ rest he).trans (decEnd_serial (s.withEvents rest) hp hi hb)
  case pass =>
    obtain ⟨pre, tail, n, d', out, rfl, hwalk, htail⟩ :=
      Walk.exists Config.params input (DecUnit.start (Config.freeOffset s.draws))
    rcases htail with rfl | ht | ht
    · rw [List.append_nil] at he ⊢
      rw [decodePass_whole (s.withEvents rest) pre hwalk]
      exact ⟨_, run_serial_whole s rest he hwalk, rfl, rfl, rfl, rfl, rfl, rfl, rfl⟩
    · rw [decodePass_truncated (s.withEvents rest) pre tail hwalk ht]
      exact ⟨_, run_serial_truncated s rest he hwalk ht, rfl, rfl, rfl, rfl, rfl, rfl, rfl⟩
    · exact absurd ht (decodeChunk_ne_unrecognizedTag Config.params_legal tail)

end Sys2Proof.Machine

/-! The round trip of pixels (42_decoder.md rule R113): the decoder reads what was encoded, the chunk that the encoder picks for a
pixel is well formed and produces that pixel, and encoder and decoder keep in step but for the run that is pending. -/

namespace Sys2Proof

/-! ## Encodings of well-formed chunks -/

/-- The chunk decoder reads a well-formed chunk back. -/
theorem decodeChunk_encode {c : Params} (hc : c.legal = true) {i : Instr} (hp : i.place = .chunk) (hw : i.wf c = true)
    (rest : List Byte) : decodeChunk c (encode c i ++ rest) = .ok i rest := by
  cases i with
  | rgb r g b => exact decodeChunk_rgb c r g b rest
  | rgba r g b a => exact decodeChunk_rgba c hc r g b a rest
  | index slot =>
    refine (decodeChunk_index c _ rest hw (tagOf_append _ _)).trans ?_
    rw [payloadOf_append]
  | diff dr dg db =>
    refine (decodeChunk_diff c hc _ rest hw (tagOf_diff _ _ _ _)).trans ?_
    rw [diffRed_diff, diffGreen_diff, diffBlue_diff]
  | luma dg drdg dbdg =>
    refine (decodeChunk_luma c hc _ _ rest hw (tagOf_append _ _)).trans ?_
    rw [payloadOf_append, highNibble_append, lowNibble_append]
  | run n =>
    refine (decodeChunk_run c hc _ rest (Bool.and_eq_true_iff.mp hw).1 (tagOf_append _ _)).trans ?_
    rw [payloadOf_append]
  | header => cases hp
  | endMarker => cases hp

/-! ## R6: first bytes that the encoder can emit under a tag -/

theorem Params.emits_index (c : Params) (slot : BitVec 6) : c.emits (c.tagIndex ++ slot) = true := by
  have htag : BitVec.extractLsb' 6 2 (c.tagIndex ++ slot : BitVec 8) = c.tagIndex := tagOf_append _ _
  simp only [emits, htag, decide_true, Bool.true_or]

theorem Params.emits_luma (c : Params) (dg : BitVec 6) : c.emits (c.tagLuma ++ dg) = true := by
  have htag : BitVec.extractLsb' 6 2 (c.tagLuma ++ dg : BitVec 8) = c.tagLuma := tagOf_append _ _
  simp only [emits, htag, decide_true, Bool.or_true, Bool.true_or]

/-- The DIFF payload that R6 leaves out is that of three zero deltas. -/
theorem payloadOf_diff_eq (t dr dg db : BitVec 2) (h : payloadOf (t ++ dr ++ dg ++ db) = 0b101010#6) :
    dr = 2 ∧ dg = 2 ∧ db = 2 := by
  have hnum := congrArg BitVec.toNat h
  have := dr.isLt; have := dg.isLt; have := db.isLt
  rw [toNat_payloadOf, toNat_diff, show (0b101010#6).toNat = 42 from rfl] at hnum
  simp only [← BitVec.toNat_inj, show (2 : BitVec 2).toNat = 2 from rfl]
  omega

theorem Params.emits_diff (c : Params) (dr dg db : BitVec 2) (h : ¬(dr = 2 ∧ dg = 2 ∧ db = 2)) :
    c.emits (c.tagDiff ++ dr ++ dg ++ db) = true := by
  have htag : BitVec.extractLsb' 6 2 (c.tagDiff ++ dr ++ dg ++ db : BitVec 8) = c.tagDiff := tagOf_diff _ _ _ _
  have hpay : BitVec.extractLsb' 0 6 (c.tagDiff ++ dr ++ dg ++ db : BitVec 8) ≠ 0b101010#6 :=
    fun heq => h (payloadOf_diff_eq _ _ _ _ heq)
  simp only [emits, htag, hpay, ne_eq, not_false_iff, decide_true, Bool.and_self, Bool.or_true, Bool.true_or]

/-- R52: the RUN chunks that the encoder emits are well formed. -/
theorem Instr.run_wf {c : Params} (hc : c.legal = true) {n : BitVec 6} (h : n.toNat < c.maxRun) :
    (Instr.run n).wf c = true := by
  simp only [Instr.wf, c.tagged_of_emits hc _ (c.emits_run n h), h, decide_true, Bool.and_self]

end Sys2Proof

namespace Sys2Proof.Machine

/-! ## The chunk that the encoder picks -/

/-- A DIFF chunk of three zero deltas produces the previous pixel. -/
theorem pixelDiff_zero (d : DecUnit) : pixelDiff d 2 2 2 = d.prev := by
  simp [pixelDiff, diffDelta, addDelta]

theorem EncUnit.classify_place (u : EncUnit) (p : Pixel) : (u.classify p).place = .chunk := by
  unfold classify
  repeat' split
  all_goals rfl

theorem EncUnit.chunkCount_classify (u : EncUnit) (p : Pixel) : chunkCount (u.classify p) = 1 := by
  unfold classify
  repeat' split
  all_goals rfl

/-- A decoder with the encoder's `prev` and cache gets the pixel back. -/
theorem EncUnit.chunkPixel_classify (u : EncUnit) (d : DecUnit) (p : Pixel) (hprev : d.prev = u.prev)
    (hcache : d.cache = u.cache) : chunkPixel d (u.classify p) = p := by
  unfold classify
  rw [← hprev, ← hcache]
  split
  · assumption
  split
  · obtain ⟨dr, dg, db, hchunk, hpix⟩ := pixelDiff_diffChunk p d ‹_›
    rw [hchunk]
    exact hpix
  split
  · obtain ⟨dg, drdg, dbdg, hchunk, hpix⟩ := pixelLuma_lumaChunk p d ‹_›
    rw [hchunk]
    exact hpix
  split
  · rename_i ha
    simp only [chunkPixel, pixelRgb, ← ha]
  · rfl

/-- R73: the DIFF chunk of a pixel other than the previous one is well formed, since three zero deltas would give `prev`. -/
theorem diffChunk_wf {c : Params} (hc : c.legal = true) (p : Pixel) (d : DecUnit) (h : diffOk p d.prev = true)
    (hne : p ≠ d.prev) : (diffChunk p d.prev).wf c = true := by
  obtain ⟨dr, dg, db, hchunk, hpix⟩ := pixelDiff_diffChunk p d h
  rw [hchunk]
  refine c.tagged_of_emits hc _ (c.emits_diff dr dg db ?_)
  rintro ⟨rfl, rfl, rfl⟩
  exact hne (hpix.symm.trans (pixelDiff_zero d))

/-- R61: the chunk picked for a pixel that differs from `prev` is well formed. -/
theorem EncUnit.classify_wf {c : Params} (hc : c.legal = true) (u : EncUnit) (p : Pixel) (hne : p ≠ u.prev) :
    (u.classify p).wf c = true := by
  unfold classify
  split
  · exact c.tagged_of_emits hc _ (c.emits_index _)
  split
  · exact diffChunk_wf hc p { DecUnit.start 0 with prev := u.prev } ‹_› hne
  split
  · exact c.tagged_of_emits hc _ (c.emits_luma _)
  split
  · rfl
  · rfl

/-! ## Encoder and decoder in step -/

/-- One well-formed chunk is a walk. -/
theorem Walk.of_wf {c : Params} (hc : c.legal = true) {i : Instr} (d : DecUnit) (hp : i.place = .chunk)
    (hw : i.wf c = true) :
    Walk c d (encode c i) 1 (d.writeBack (chunkPixel d i) i.len) (List.replicate (chunkCount i) (chunkPixel d i)) :=
  .one d (by rw [← List.append_nil (encode c i)]; exact decodeChunk_encode hc hp hw [])

/-- R108: the RUN byte of a payload below the cap. -/
theorem Walk.run {c : Params} (hc : c.legal = true) (d : DecUnit) {r : BitVec 6} (h : r.toNat < c.maxRun) :
    Walk c d [c.tagRun ++ r] 1 (d.writeBack d.prev 1) (List.replicate (r.toNat + 1) d.prev) :=
  .of_wf hc d (i := .run r) rfl (Instr.run_wf hc h)

/-- The decoder, given what the encoder has emitted so far, has the encoder's `prev`, and its cache but for the write-back of
the pending run. -/
structure InStep (c : Params) (u : EncUnit) (d : DecUnit) : Prop where
  prev     : d.prev = u.prev
  noRun    : u.run = 0 → d.cache = u.cache
  pending  : u.run ≠ 0 → d.cache.write (pixelHash u.prev) u.prev = u.cache
  runBelow : u.run.toNat < c.maxRun

/-- With no run pending the two units have equal `prev` and cache. -/
theorem InStep.of_noRun {c : Params} (hc : c.legal = true) {u : EncUnit} {d : DecUnit} (hprev : d.prev = u.prev)
    (hcache : d.cache = u.cache) (hrun : u.run = 0) : InStep c u d where
  prev := hprev
  noRun _ := hcache
  pending h := absurd hrun h
  runBelow := by
    rw [hrun]
    exact (c.maxRun_bounds hc).1

/-- The write-back of `prev` brings the decoder's cache to what the encoder's is after a pixel equal to `prev`. -/
theorem InStep.write_prev {c : Params} {u : EncUnit} {d : DecUnit} (h : InStep c u d) :
    d.cache.write (pixelHash u.prev) u.prev = u.cache.write (pixelHash u.prev) u.prev := by
  by_cases hrun : u.run = 0
  · rw [h.noRun hrun]
  · rw [← h.pending hrun, Cache.write_write]

/-- R84: the bytes of a flush give the pending pixels, and leave no run pending. -/
theorem InStep.flush {c : Params} (hc : c.legal = true) {u : EncUnit} {d : DecUnit} (h : InStep c u d) :
    ∃ n d', Walk c d (u.flush c).2 n d' (List.replicate u.run.toNat u.prev) ∧ InStep c { u with run := 0 } d' := by
  by_cases hrun : u.run = 0
  · rw [EncUnit.flush_of_zero c u hrun, hrun]
    exact ⟨0, d, .nil d, .of_noRun hc h.prev (h.noRun hrun) rfl⟩
  · have hpos : u.run.toNat ≠ 0 := fun h0 => hrun (BitVec.eq_of_toNat_eq h0)
    have hlt := u.run.isLt
    have hpred : (u.run - 1).toNat + 1 = u.run.toNat := by
      rw [BitVec.toNat_sub, show (1 : BitVec 6).toNat = 1 from rfl]
      omega
    have hbelow := h.runBelow
    have hwalk := Walk.run hc d (r := u.run - 1) (by omega)
    rw [hpred, h.prev] at hwalk
    rw [EncUnit.flush_of_ne c u hrun]
    exact ⟨1, _, hwalk, .of_noRun hc rfl (h.pending hrun) rfl⟩

/-- R82: over one pixel. The pixels that the decoder has not output are those of the pending run. -/
theorem InStep.pix {c : Params} (hc : c.legal = true) {u : EncUnit} {d : DecUnit} (h : InStep c u d) (p : Pixel) :
    ∃ n d' out, Walk c d (u.pix c p).2 n d' out ∧ InStep c (u.pix c p).1 d'
      ∧ List.replicate u.run.toNat u.prev ++ [p]
        = out ++ List.replicate (u.pix c p).1.run.toNat (u.pix c p).1.prev := by
  obtain ⟨hcap1, hcap63⟩ := c.maxRun_bounds hc
  have hbelow := h.runBelow
  by_cases hp : p = u.prev
  · subst hp
    rcases Nat.lt_or_eq_of_le (Nat.succ_le_of_lt hbelow) with hlt | hcap
    · have hsucc : (u.run + 1).toNat = u.run.toNat + 1 := by
        rw [BitVec.toNat_add, show (1 : BitVec 6).toNat = 1 from rfl]
        omega
      rw [EncUnit.pix_run_lt c u hlt hcap63]
      refine ⟨0, d, [], .nil d, ⟨h.prev, fun h0 => ?_, fun _ => h.write_prev, hsucc ▸ hlt⟩, ?_⟩
      · rw [EncUnit.ran_run] at h0
        rw [h0] at hsucc
        cases hsucc
      · rw [EncUnit.ran_run, EncUnit.ran_prev, hsucc, List.replicate_succ', List.nil_append]
    · have hwalk := Walk.run hc d hbelow
      rw [h.prev] at hwalk
      rw [EncUnit.pix_run_cap c u hcap hcap63]
      exact ⟨1, _, _, hwalk, .of_noRun hc rfl h.write_prev rfl, by
        rw [List.replicate_succ']
        exact (List.append_nil _).symm⟩
  · obtain ⟨n, d₁, hflush, h₁⟩ := h.flush hc
    have hpix := u.chunkPixel_classify d₁ p h₁.prev (h₁.noRun rfl)
    have hchunk := Walk.of_wf hc d₁ (u.classify_place p) (u.classify_wf hc p hp)
    rw [hpix, u.chunkCount_classify] at hchunk
    rw [EncUnit.pix_of_ne c u p hp]
    refine ⟨_, _, _, hflush.append hchunk, .of_noRun hc rfl ?_ rfl, (List.append_nil _).symm⟩
    exact congrArg (Cache.write · (pixelHash p) p) (h₁.noRun rfl)

/-- Over any sequence of pixels. -/
theorem InStep.feed {c : Params} (hc : c.legal = true) (ps : List Pixel) {u : EncUnit} {d : DecUnit} (h : InStep c u d) :
    ∃ n d' out, Walk c d (u.feed c ps).2 n d' out ∧ InStep c (u.feed c ps).1 d'
      ∧ List.replicate u.run.toNat u.prev ++ ps
        = out ++ List.replicate (u.feed c ps).1.run.toNat (u.feed c ps).1.prev := by
  induction ps generalizing u d with
  | nil => exact ⟨0, d, [], .nil d, h, List.append_nil _⟩
  | cons p ps ih =>
    obtain ⟨n, d₁, out₁, hwalk₁, h₁, hout₁⟩ := h.pix hc p
    obtain ⟨m, d₂, out₂, hwalk₂, h₂, hout₂⟩ := ih h₁
    refine ⟨_, d₂, _, hwalk₁.append hwalk₂, h₂, ?_⟩
    rw [List.append_cons, hout₁, List.append_assoc, hout₂, List.append_assoc]
    rfl

/-! ## The statement -/

/-- The decoder's walk over an encoding outputs the pixels that were encoded. -/
theorem walk_encodePixels {c : Params} (hc : c.legal = true) (ps : List Pixel) (o : Nat) :
    ∃ n d', Walk c (DecUnit.start o) (encodePixels c ps) n d' ps := by
  have hstart : InStep c EncUnit.start (DecUnit.start o) := .of_noRun hc rfl rfl rfl
  obtain ⟨n, d₁, out, hwalk, h₁, hout⟩ := hstart.feed hc ps
  obtain ⟨m, d₂, hflush, -⟩ := h₁.flush hc
  have hall := hwalk.append hflush
  rw [← hout] at hall
  exact ⟨_, d₂, hall⟩

/-- R100: a stream that is all chunks decodes to what the walk outputs. -/
theorem decodeStream_of_walk {c : Params} {input : List Byte} {n : Nat} {d' : DecUnit} {out : List Pixel}
    (h : Walk c (DecUnit.start (Config.freeOffset 0)) input n d' out) : decodeStream c input = .pixels out := by
  rw [decodeStream, decodePass_whole State.reset input h]
  rfl

/-- Settles O43: the two units stay in step (`InStep`). The converse fails on an RGB chunk that repeats `prev`, which is encoded
as a RUN. -/
theorem decodeOfEncodedPixelsIsThePixels : Obligations.DecodeOfEncodedPixelsIsThePixels := by
  refine ⟨fun c hc ps => ?_, [0xFE, 0, 0, 0], [Config.prevReset], by decide, by decide⟩
  obtain ⟨n, d', hwalk⟩ := walk_encodePixels hc ps (Config.freeOffset 0)
  exact decodeStream_of_walk hwalk

end Sys2Proof.Machine

/-! The framing reader (43_framing.md): the end marker by its place and its flag (R124), and the two header bytes that
nothing reads (R126). -/

namespace Sys2Proof

/-- The number of the eight bytes at the place of the end marker. -/
theorem toNat_unbe32_append (b0 b1 b2 b3 b4 b5 b6 b7 : Byte) :
    (unbe32 b0 b1 b2 b3 ++ unbe32 b4 b5 b6 b7).toNat
      = (unbe32 b0 b1 b2 b3).toNat * 2 ^ 32 + (unbe32 b4 b5 b6 b7).toNat := by
  rw [BitVec.toNat_append, Nat.shiftLeft_eq, Nat.mul_comm, ← Nat.two_pow_add_eq_or_of_lt (BitVec.isLt _)]

/-- Eight bytes read as the marker's number are the marker's bytes. -/
theorem unbe32_append_eq_endMarker_iff (b0 b1 b2 b3 b4 b5 b6 b7 : Byte) :
    unbe32 b0 b1 b2 b3 ++ unbe32 b4 b5 b6 b7 = Config.endMarker
      ↔ [b0, b1, b2, b3, b4, b5, b6, b7] = [0, 0, 0, 0, 0, 0, 0, 1] := by
  simp only [← BitVec.toNat_inj, toNat_unbe32_append, toNat_unbe32, Config.endMarker, List.cons.injEq, and_true,
    BitVec.reduceToNat]
  omega

end Sys2Proof

namespace Sys2Proof.Machine

/-! ## The end marker -/

theorem endMarkerFlag_eq_toNat (k : BitVec 64) : endMarkerFlag k = decide (k.toNat = 1) :=
  decide_eq_decide.mpr BitVec.toNat_inj.symm

theorem endMarkerFlag_unbe32 (b0 b1 b2 b3 b4 b5 b6 b7 : Byte) :
    endMarkerFlag (unbe32 b0 b1 b2 b3 ++ unbe32 b4 b5 b6 b7)
      = decide ([b0, b1, b2, b3, b4, b5, b6, b7] = [0, 0, 0, 0, 0, 0, 0, 1]) :=
  decide_eq_decide.mpr (unbe32_append_eq_endMarker_iff ..)

/-- R124: the end marker is found by its position. -/
theorem markerBytes_append (hd tl : List Byte) (h : tl.length = 8) : markerBytes (hd ++ tl) = tl := by
  rw [markerBytes, List.length_append, h]
  exact List.drop_left

/-- R124: so is the chunk stream. -/
theorem chunkBytes_append (hd mid tl : List Byte) (hhd : hd.length = 14) (htl : tl.length = 8) :
    chunkBytes (hd ++ mid ++ tl) = mid := by
  have hlen : (hd ++ mid ++ tl).length - shortestStream = mid.length := by
    simp only [List.length_append, hhd, htl, shortestStream, Config.headerLen, Config.endMarkerLen]
    omega
  rw [chunkBytes, hlen, List.append_assoc, show Config.headerLen = hd.length from hhd.symm, List.drop_left,
    List.take_left]

/-- R124: the marker event where it is enabled runs the last eight bytes. -/
theorem step_frrMarker (s : State) (rest : List Event) (hd : List Byte) (b0 b1 b2 b3 b4 b5 b6 b7 : Byte)
    (he : s.events = .frrMarker :: rest) (hp : s.frr.phase = .marker)
    (hin : s.frrIn = hd ++ [b0, b1, b2, b3, b4, b5, b6, b7]) :
    step s = exec (.endMarker (unbe32 b0 b1 b2 b3 ++ unbe32 b4 b5 b6 b7)) (s.withEvents rest) := by
  have hread : decodeMarker (markerBytes s.frrIn)
      = .ok (.endMarker (unbe32 b0 b1 b2 b3 ++ unbe32 b4 b5 b6 b7)) [] := by
    rw [hin, markerBytes_append _ _ rfl]
    rfl
  rw [step_of_events s _ rest he]
  exact frrMarker_enabled (s.withEvents rest) _ [] hp hread

/-- Settles O53: the eight bytes at the marker's place, read as a number, are 1 exactly when they are the marker. -/
theorem endMarkerSetsItsFlag : Obligations.EndMarkerSetsItsFlag := by
  refine ⟨fun k s => ?_, fun s rest hd b0 b1 b2 b3 b4 b5 b6 b7 he hp hin => ?_, chunkBytes_append⟩
  · rw [← endMarkerFlag_eq_toNat]
    rfl
  · rw [step_frrMarker s rest hd b0 b1 b2 b3 b4 b5 b6 b7 he hp hin, ← endMarkerFlag_unbe32]
    rfl

/-! ## The header bytes

R126 as an equation: what the machine answers is, but for the two header bytes, the same with the two bytes erased before
the step. -/

@[simp] theorem State.withoutHeaderBytes_decIn (s : State) : s.withoutHeaderBytes.decIn = s.decIn := rfl

/-- An answer with the two header bytes of its next state put at zero. -/
def eraseHeaderBytes : Outcome → Outcome
  | .next t => .next t.withoutHeaderBytes
  | .fault f => .fault f
  | .refused r => .refused r

/-- An answer that erases to a next state is a next state. -/
theorem exists_next_of_eraseHeaderBytes {o : Outcome} {u : State} (h : eraseHeaderBytes o = .next u) :
    ∃ t, o = .next t ∧ u = t.withoutHeaderBytes := by
  cases o with
  | next t => exact ⟨t, rfl, (Host.Outcome.next.inj h).symm⟩
  | fault f => cases h
  | refused r => cases h

/-- A choice between two answers, made by a test that reads neither byte. -/
theorem eraseHeaderBytes_ite (p : Prop) [Decidable p] {a a' b b' : Outcome}
    (ha : eraseHeaderBytes a = eraseHeaderBytes a') (hb : eraseHeaderBytes b = eraseHeaderBytes b') :
    eraseHeaderBytes (if p then a else b) = eraseHeaderBytes (if p then a' else b') := by
  rw [apply_ite eraseHeaderBytes, apply_ite eraseHeaderBytes, ha, hb]

/-- The meaning of an instruction reads neither byte. -/
theorem eraseHeaderBytes_exec (i : Instr) (s : State) :
    eraseHeaderBytes (exec i s.withoutHeaderBytes) = eraseHeaderBytes (exec i s) := by
  cases i with
  | header m w h ch cs =>
    exact eraseHeaderBytes_ite _ rfl (eraseHeaderBytes_ite _ rfl (eraseHeaderBytes_ite _ rfl rfl))
  | _ => rfl

theorem eraseHeaderBytes_runDecoded (what : Decoded) (s : State) :
    eraseHeaderBytes (runDecoded what s.withoutHeaderBytes) = eraseHeaderBytes (runDecoded what s) := by
  cases what with
  | ok i rest => exact eraseHeaderBytes_exec i s
  | bad why => cases why <;> rfl

theorem eraseHeaderBytes_runFraming (what : Decoded) (s : State) :
    eraseHeaderBytes (runFraming what s.withoutHeaderBytes) = eraseHeaderBytes (runFraming what s) := by
  cases what with
  | ok i rest => exact eraseHeaderBytes_exec i s
  | bad why => rfl

theorem eraseHeaderBytes_decChunk (c : Params) (s : State) :
    eraseHeaderBytes (decChunk c s.withoutHeaderBytes) = eraseHeaderBytes (decChunk c s) := by
  simp only [decChunk, State.withoutHeaderBytes_decIn]
  refine eraseHeaderBytes_ite _ ?_ rfl
  cases s.decIn with
  | whole bytes => exact eraseHeaderBytes_ite _ (eraseHeaderBytes_runDecoded _ s) rfl
  | serial => rfl

theorem eraseHeaderBytes_decByte (c : Params) (b : Byte) (s : State) :
    eraseHeaderBytes (decByte c b s.withoutHeaderBytes) = eraseHeaderBytes (decByte c b s) := by
  simp only [decByte, State.withoutHeaderBytes_decIn]
  refine eraseHeaderBytes_ite _ ?_ rfl
  cases s.decIn with
  | whole bytes => rfl
  | serial => exact eraseHeaderBytes_ite _ (eraseHeaderBytes_runDecoded _ (s.withBuf [])) rfl

theorem eraseHeaderBytes_decEnd (s : State) :
    eraseHeaderBytes (decEnd s.withoutHeaderBytes) = eraseHeaderBytes (decEnd s) := by
  simp only [decEnd, State.withoutHeaderBytes_decIn]
  refine eraseHeaderBytes_ite _ ?_ rfl
  cases s.decIn with
  | whole bytes => exact eraseHeaderBytes_ite _ rfl rfl
  | serial => exact eraseHeaderBytes_ite _ rfl rfl

theorem eraseHeaderBytes_frrFinish (s : State) (r : DecodeResult) :
    eraseHeaderBytes (.next (s.withoutHeaderBytes.frrFinish r)) = eraseHeaderBytes (.next (s.frrFinish r)) := by
  cases r <;> rfl

/-- The reaction to an event reads neither byte: it tests and copies other registers only. -/
theorem eraseHeaderBytes_react (c : Params) (e : Event) (s : State) :
    eraseHeaderBytes (react c e s.withoutHeaderBytes) = eraseHeaderBytes (react c e s) := by
  cases e with
  | encStart => rfl
  | encPix p => exact eraseHeaderBytes_ite _ rfl rfl
  | encEnd => exact eraseHeaderBytes_ite _ rfl rfl
  | decStart input => rfl
  | decChunk => exact eraseHeaderBytes_decChunk c s
  | decByte b => exact eraseHeaderBytes_decByte c b s
  | decEnd => exact eraseHeaderBytes_decEnd s
  | frrStart bytes => exact eraseHeaderBytes_ite _ rfl rfl
  | frrHeader => exact eraseHeaderBytes_ite _ (eraseHeaderBytes_runFraming _ s) rfl
  | frrMarker => exact eraseHeaderBytes_ite _ (eraseHeaderBytes_runFraming _ s) rfl
  | frrDecode => exact eraseHeaderBytes_ite _ (eraseHeaderBytes_frrFinish s _) rfl
  | frwWrite w h ch cs ps =>
    exact eraseHeaderBytes_ite _ rfl (eraseHeaderBytes_ite _ rfl (eraseHeaderBytes_ite _ rfl rfl))

theorem eraseHeaderBytes_step (s : State) :
    eraseHeaderBytes (step s.withoutHeaderBytes) = eraseHeaderBytes (step s) := by
  cases he : s.events with
  | nil => simp only [step, takeEvent, State.withoutHeaderBytes, he]
  | cons e rest =>
    rw [step_of_events s e rest he, step_of_events s.withoutHeaderBytes e rest he]
    exact eraseHeaderBytes_react _ e (s.withEvents rest)

/-- Settles O57: both states take the step of the one state that they are with the two bytes erased
(`eraseHeaderBytes_step`). -/
theorem headerBytesHaveNoEffect : Obligations.HeaderBytesHaveNoEffect := by
  intro s s' t hs ht
  have hstep : eraseHeaderBytes (step s') = .next t.withoutHeaderBytes := by
    rw [← eraseHeaderBytes_step, ← hs, eraseHeaderBytes_step, ht]
    rfl
  exact exists_next_of_eraseHeaderBytes hstep

end Sys2Proof.Machine

/-! Errors and phases (60_exceptions.md): what raising `TruncatedChunk` changes (R144), and that `DEC` outside `Active` and `FRR`
outside its reading phases, so in `Faulted` too, answer no event of theirs but `Start` (R149, R161). -/

namespace Sys2Proof.Machine

/-! ## Events without a step -/

/-- R149, R161: outside `Active` every event of `DEC` but `Start` is refused. -/
theorem react_dec_not_active (c : Params) (e : Event) (s : State) (hp : s.dec.phase ≠ .active) (ha : e.agent = .dec) :
    (∃ input, e = .decStart input) ∨ react c e s = .refused .decNotActive := by
  cases e with
  | decStart input => exact .inl ⟨input, rfl⟩
  | decChunk => exact .inr (if_neg hp)
  | decByte b => exact .inr (if_neg hp)
  | decEnd => exact .inr (if_neg hp)
  | _ => cases ha

/-- R149, R161: where no part of a read is next, every event of `FRR` but `Start` is refused. -/
theorem react_frr_not_reading (c : Params) (e : Event) (s : State) (hh : s.frr.phase ≠ .header)
    (hm : s.frr.phase ≠ .marker) (hd : s.frr.phase ≠ .decode) (ha : e.agent = .frr) :
    (∃ bytes, e = .frrStart bytes) ∨ react c e s = .refused .frrNotNext := by
  cases e with
  | frrStart bytes => exact .inl ⟨bytes, rfl⟩
  | frrHeader => exact .inr (if_neg hh)
  | frrMarker => exact .inr (if_neg hm)
  | frrDecode => exact .inr (if_neg hd)
  | _ => cases ha

/-! ## `Start`, as a step of the machine -/

/-- R101, R149: `Start` of `DEC` has a step in every phase. -/
theorem step_decStart (s : State) (input : DecInput) (rest : List Event) (he : s.events = .decStart input :: rest) :
    step s = .next ((s.withEvents rest).decStart input) := step_of_events s _ rest he

/-- R123, R149: `Start` of `FRR` has a step in every phase, but not on a stream too short for a header and an end marker. -/
theorem step_frrStart_cases (s : State) (bytes : List Byte) (rest : List Event)
    (he : s.events = .frrStart bytes :: rest) :
    step s = .next ((s.withEvents rest).frrStart bytes) ∨ step s = .refused .shortStream := by
  rw [step_of_events s _ rest he]
  by_cases hshort : bytes.length < shortestStream
  · exact .inr (if_pos hshort)
  · exact .inl (if_neg hshort)

/-! ## The statements -/

/-- Settles O24: both raising steps are `decRaise` with the event taken, and a chunk of length 1 is always there whole. -/
theorem truncatedChunkHasNoOtherEffect : Obligations.TruncatedChunkHasNoOtherEffect := by
  refine ⟨fun s rest b0 tl h hlen => step_atChunk_truncated h hlen, fun s rest he hp hi hb => ?pending,
    fun s rest b0 tl h hone => ?one⟩
  case pending =>
    rw [step_of_events s _ rest he]
    exact decEnd_pending (s.withEvents rest) hp hi hb
  case one =>
    obtain ⟨i, hd, -⟩ := decodeChunk_takes_chunkLen _ Config.params_legal b0 tl (by omega)
    obtain ⟨t, ht, hdone⟩ := step_atChunk_done h hd
    obtain ⟨-, hactive, -⟩ := h
    exact ⟨t, ht, hdone.err, hdone.phase.trans hactive⟩

/-- Settles O25: `Faulted` is neither `Active` nor a phase of a read, and `Start` resets the unit. -/
theorem faultedUnitHasOnlyStart : Obligations.FaultedUnitHasOnlyStart := by
  refine ⟨fun s e rest he hp ha => ?dec, fun s input rest he => ⟨_, step_decStart s input rest he⟩,
    fun s e rest he hp ha => ?frr⟩
  case dec =>
    have hnot : (s.withEvents rest).dec.phase ≠ .active := by simp [hp]
    rcases react_dec_not_active Config.params e _ hnot ha with ⟨input, rfl⟩ | hrefused
    · exact .inl ⟨input, _, rfl, step_decStart s input rest he, rfl, rfl, rfl, rfl, rfl, Cache.read_nil⟩
    · exact .inr ⟨_, (step_of_events s e rest he).trans hrefused⟩
  case frr =>
    have hreact := react_frr_not_reading Config.params e (s.withEvents rest) (by simp [hp]) (by simp [hp])
      (by simp [hp]) ha
    rcases hreact with ⟨bytes, rfl⟩ | hrefused
    · rcases step_frrStart_cases s bytes rest he with hnext | hshort
      · exact .inl ⟨bytes, _, rfl, hnext, rfl, rfl, rfl, rfl⟩
      · exact .inr ⟨_, hshort⟩
    · exact .inr ⟨_, (step_of_events s e rest he).trans hrefused⟩

end Sys2Proof.Machine

/-! Reset and what comes before it (70_reset_and_hazards.md section 1): `ENC` outside `Active` answers no event of its own but
`Start` (R161), and `Start` as a step, with what it sets and leaves unchanged (R160). -/

namespace Sys2Proof.Machine

/-! ## `ENC` outside `Active` -/

/-- R14, R161: outside `Active` every event of `ENC` but `Start` is refused. -/
theorem react_enc_not_active (c : Params) (e : Event) (s : State) (hp : s.enc.phase ≠ .active) (ha : e.agent = .enc) :
    e = .encStart ∨ react c e s = .refused .encIdle := by
  cases e with
  | encStart => exact .inl rfl
  | encPix p => exact .inr (if_neg hp)
  | encEnd => exact .inr (if_neg hp)
  | _ => cases ha

/-! ## `Start`, as a step of the machine -/

/-- R81: `Start` of `ENC` has a step in every phase. -/
theorem step_encStart (s : State) (rest : List Event) (he : s.events = .encStart :: rest) :
    step s = .next (s.withEvents rest).encStart := step_of_events s _ rest he

/-- R123: `Start` of `FRR` has a step in every phase, on a stream that can hold a header and an end marker. -/
theorem step_frrStart (s : State) (bytes : List Byte) (rest : List Event) (he : s.events = .frrStart bytes :: rest)
    (hlen : shortestStream ≤ bytes.length) : step s = .next ((s.withEvents rest).frrStart bytes) :=
  (step_of_events s _ rest he).trans (if_neg (Nat.not_lt.mpr hlen))

/-! ## The statements -/

/-- Settles O26: `Idle` is not `Active`, outside which a unit refuses all but `Start`, and `Start` asks for no phase. -/
theorem idleUnitRefusesAllButStart : Obligations.IdleUnitRefusesAllButStart := by
  refine ⟨fun s e rest he hp ha hne => ?enc, fun s e rest he hp ha hne => ?dec,
    fun s rest he => ⟨_, step_encStart s rest he, rfl⟩, fun s input rest he => ⟨_, step_decStart s input rest he, rfl⟩⟩
  case enc =>
    have hnot : (s.withEvents rest).enc.phase ≠ .active := by simp [hp]
    have hrefused := (react_enc_not_active Config.params e _ hnot ha).resolve_left hne
    exact ⟨_, (step_of_events s e rest he).trans hrefused⟩
  case dec =>
    have hnot : (s.withEvents rest).dec.phase ≠ .active := by simp [hp]
    have hrefused := (react_dec_not_active Config.params e _ hnot ha).resolve_left (not_exists.mpr hne)
    exact ⟨_, (step_of_events s e rest he).trans hrefused⟩

/-- Settles O28: the step is the unit's `Start` with the event taken; an empty cache reads as the reset value in every slot. -/
theorem startResetsItsUnit : Obligations.StartResetsItsUnit := by
  refine ⟨fun s rest he => ?enc, fun s input rest he => ?dec, fun s bytes rest he hlen => ?frr⟩
  case enc => exact ⟨_, step_encStart s rest he, rfl, Cache.read_nil, rfl, rfl, rfl, rfl, rfl⟩
  case dec =>
    exact ⟨_, step_decStart s input rest he, rfl, Cache.read_nil, rfl, rfl, rfl, rfl, rfl, rfl, rfl, rfl⟩
  case frr => exact ⟨_, step_frrStart s bytes rest he hlen, rfl, rfl, rfl, rfl, rfl, rfl, rfl⟩

end Sys2Proof.Machine

/-! Encodings (30_encoding.md, 43_framing.md section 1): the framing records and their bytes, the first-byte map, and what R6 leaves
of the two sentinels' places. -/

namespace Sys2Proof

/-! ## The framing records and their bytes -/

/-- A 64-bit word is its two halves put together. -/
theorem append_halves (k : BitVec 64) : k.extractLsb' 32 32 ++ k.extractLsb' 0 32 = k := by
  rw [BitVec.extractLsb'_append_extractLsb'_eq_extractLsb' (by rfl), BitVec.extractLsb'_eq_self]

/-- R120: the header decoder reads every header back, its fields legal or not. -/
theorem decodeHeader_encode (c : Params) (m w h : BitVec 32) (ch cs : Byte) (rest : List Byte) :
    decodeHeader (encode c (.header m w h ch cs) ++ rest) = .ok (.header m w h ch cs) rest := by
  simp only [encode, be32, List.cons_append, List.nil_append, decodeHeader, unbe32_be32]

/-- R120: the marker decoder reads every eight bytes back. -/
theorem decodeMarker_encode (c : Params) (k : BitVec 64) (rest : List Byte) :
    decodeMarker (encode c (.endMarker k) ++ rest) = .ok (.endMarker k) rest := by
  simp only [encode, be32, List.cons_append, List.nil_append, decodeMarker, unbe32_be32, append_halves]

/-- R120: what the header decoder answers is the head of the bytes. -/
theorem decodeHeader_bytes (c : Params) {bs rest : List Byte} {i : Instr} (h : decodeHeader bs = .ok i rest) :
    i.place = .header ∧ encode c i ++ rest = bs := by
  unfold decodeHeader at h
  split at h <;> cases h
  exact ⟨rfl, by simp only [encode, be32_unbe32, List.cons_append, List.nil_append]⟩

/-- R120: what the marker decoder answers is the head of the bytes. -/
theorem decodeMarker_bytes (c : Params) {bs rest : List Byte} {i : Instr} (h : decodeMarker bs = .ok i rest) :
    i.place = .marker ∧ encode c i ++ rest = bs := by
  unfold decodeMarker at h
  split at h <;> cases h
  refine ⟨rfl, ?_⟩
  simp only [encode, BitVec.extractLsb'_append_eq_left, BitVec.extractLsb'_append_eq_right, be32_unbe32,
    List.cons_append, List.nil_append]

/-- Settles O2: a chunk is read back by `decodeChunk_encode`, a framing record whatever it holds. -/
theorem decodeOfEncodeIsTheInstruction : Obligations.DecodeOfEncodeIsTheInstruction := by
  intro c hc i hw rest
  cases i with
  | header m w h ch cs => exact decodeHeader_encode c m w h ch cs rest
  | endMarker k => exact decodeMarker_encode c k rest
  | _ => exact decodeChunk_encode hc rfl hw rest

/-- Settles O3, place by place. -/
theorem encodeOfDecodedIsTheBytesRead : Obligations.EncodeOfDecodedIsTheBytesRead := by
  intro c place bs i rest h
  cases place with
  | header => exact decodeHeader_bytes c h
  | chunk => exact ⟨decodeChunk_place c bs i rest h, (decodeChunk_bytes c bs i rest h).symm⟩
  | marker => exact decodeMarker_bytes c h

/-- Settles O9: `be32` is injective, `unbe32` being its inverse on both sides. -/
theorem bigEndianWords : Obligations.BigEndianWords := by
  intro v
  refine ⟨?_, fun b0 b1 b2 b3 => ⟨fun h => ?_, fun h => ?_⟩⟩
  · have := v.isLt
    simp only [be32, List.map_cons, List.map_nil, BitVec.extractLsb'_toNat, Nat.shiftRight_eq_div_pow, List.cons.injEq,
      pow_zero, Nat.div_one, and_true]
    omega
  · simp only [be32, List.cons.injEq, and_true] at h
    obtain ⟨rfl, rfl, rfl, rfl⟩ := h
    exact unbe32_be32 v
  · rw [← h, be32_unbe32]

/-- Settles O1: the decoder is run on the words. -/
theorem specWordsDecodeToTheirInstructions : Obligations.SpecWordsDecodeToTheirInstructions := by
  unfold Obligations.SpecWordsDecodeToTheirInstructions
  decide

/-! ## The first-byte map -/

theorem eq_ofNat_of_toNat_eq {n k : Nat} {x : BitVec n} (h : x.toNat = k) : x = BitVec.ofNat n k := by
  rw [← h, BitVec.ofNat_toNat, BitVec.setWidth_eq]

/-- Settles O4: below the sentinels the tag is the byte's quarter, and the fields are its quotients and remainders. -/
theorem firstByteSelectsOneKind : Obligations.FirstByteSelectsOneKind := by
  intro b0 d1 d2 d3 d4 rest
  have hlt := b0.isLt
  have hlegal := Config.params_legal
  have htag (t : BitVec 2) (h : b0.toNat / 64 = t.toNat) : tagOf b0 = t := (tagOf_eq_iff b0 t).mpr h
  have hpayload (k : Nat) (h : b0.toNat % 64 = k) : payloadOf b0 = BitVec.ofNat 6 k :=
    eq_ofNat_of_toNat_eq ((toNat_payloadOf b0).trans h)
  split
  case isTrue h =>
    rw [decodeChunk_index _ b0 _ (Config.tagged_of_toNat_lt (by omega)) (htag 0 (show _ = 0 by omega)),
      hpayload b0.toNat (by omega)]
  split
  case isTrue h =>
    rw [decodeChunk_diff _ hlegal b0 _ (Config.tagged_of_toNat_lt (by omega)) (htag 1 (show _ = 1 by omega)),
      eq_ofNat_of_toNat_eq (toNat_diffRed b0), eq_ofNat_of_toNat_eq (toNat_diffGreen b0),
      eq_ofNat_of_toNat_eq (toNat_diffBlue b0)]
  split
  case isTrue h =>
    rw [decodeChunk_luma _ hlegal b0 d1 _ (Config.tagged_of_toNat_lt (by omega)) (htag 2 (show _ = 2 by omega)),
      hpayload (b0.toNat - 0x80) (by omega), eq_ofNat_of_toNat_eq (toNat_highNibble d1),
      eq_ofNat_of_toNat_eq (toNat_lowNibble d1)]
  split
  case isTrue h =>
    rw [decodeChunk_run _ hlegal b0 _ (Config.tagged_of_toNat_lt (by omega)) (htag 3 (show _ = 3 by omega)),
      hpayload (b0.toNat - 0xC0) (by omega)]
  split
  case isTrue h =>
    obtain rfl : b0 = Config.params.opRgb := BitVec.eq_of_toNat_eq h
    exact decodeChunk_rgb _ d1 d2 d3 _
  case isFalse h =>
    obtain rfl : b0 = Config.params.opRgba := BitVec.eq_of_toNat_eq (show b0.toNat = 255 by omega)
    exact decodeChunk_rgba _ hlegal d1 d2 d3 d4 rest

/-! ## The places of the sentinels -/

/-- R6: a byte that the encoder cannot emit under a tag, with a cap of 62. -/
theorem Params.free_places (c : Params) (hc : c.legal = true) (hcap : c.maxRun = 62) (b : Byte)
    (hb : c.emits b = false) :
    b = c.tagRun ++ 62#6 ∨ b = c.tagRun ++ 63#6 ∨ b = c.tagDiff ++ 0b101010#6 := by
  rcases c.not_emits hc b hb with h | ⟨htag, hpayload⟩
  · exact .inr (.inr h)
  · have hlt := (payloadOf b).isLt
    rw [← append_tagOf_payloadOf b, htag]
    rcases (show (payloadOf b).toNat = 62 ∨ (payloadOf b).toNat = 63 by omega) with h | h
    · exact .inl (by rw [eq_ofNat_of_toNat_eq h])
    · exact .inr (.inl (by rw [eq_ofNat_of_toNat_eq h]))

/-- Settles O7: R6 excludes both sentinels from the bytes that the encoder emits under a tag. -/
theorem sentinelsHaveThreeFreePlaces : Obligations.SentinelsHaveThreeFreePlaces := by
  intro c hc hcap b hb
  obtain ⟨-, -, hrgb, hrgba, -⟩ := (c.legal_iff).mp hc
  rcases hb with rfl | rfl
  · exact c.free_places hc hcap _ hrgb
  · exact c.free_places hc hcap _ hrgba

end Sys2Proof

namespace Sys2Proof.Machine

/-! ## What the encoder emits -/

/-- A pending run is one more than the payload it is written as. -/
theorem toNat_run_pred {r : BitVec 6} (h : r ≠ 0) : (r - 1).toNat + 1 = r.toNat := by
  have hpos : r.toNat ≠ 0 := fun h0 => h (BitVec.eq_of_toNat_eq h0)
  have := r.isLt
  rw [BitVec.toNat_sub, show (1 : BitVec 6).toNat = 1 from rfl]
  omega

/-- Settles O8: a RUN's payload is one less than the run, so it is below the cap. -/
theorem encoderEmitsWellFormedChunks : Obligations.EncoderEmitsWellFormedChunks := by
  intro c hc u
  refine ⟨u.classify_wf hc, fun hrun hcap => Instr.run_wf hc ?_⟩
  have := toNat_run_pred hrun
  omega

end Sys2Proof.Machine

/-! Whole passes of the encoder (41_encoder.md section 5): runs split at the cap, the source's forward scan, the bounds of the
output, and the events of a pass. -/

namespace Sys2Proof.Machine

/-! ## A stretch of pixels equal to `prev` -/

variable {c : Params} {u : EncUnit}

/-- R13: a cap fits the 6 bits of the run counter, as every number below it does. -/
theorem ofNat_run_ne_zero {j : Nat} (hcap : c.maxRun ≤ 63) (hj : j + 1 < c.maxRun) : BitVec.ofNat 6 (j + 1) ≠ 0 := by
  intro h
  have hnum := congrArg BitVec.toNat h
  rw [BitVec.toNat_ofNat, show (0 : BitVec 6).toNat = 0 from rfl] at hnum
  omega

theorem ofNat_succ_sub_one (j : Nat) : BitVec.ofNat 6 (j + 1) - 1 = BitVec.ofNat 6 j := by
  rw [BitVec.ofNat_add, show BitVec.ofNat 6 1 = 1 from rfl, BitVec.add_sub_cancel]

/-- R84: the flush of a run below the cap. -/
theorem EncUnit.flush_ran (hcap : c.maxRun ≤ 63) {j : Nat} (hj : j + 1 < c.maxRun) :
    ((u.ran (BitVec.ofNat 6 (j + 1))).flush c).2 = [c.tagRun ++ BitVec.ofNat 6 j] := by
  rw [flush_of_ne c _ (ofNat_run_ne_zero hcap hj), ran_run, ofNat_succ_sub_one]

/-- All the bytes of a sequence from `u` on: those of its pixels and those of `End`. -/
def EncUnit.finish (c : Params) (u : EncUnit) (ps : List Pixel) : List Byte :=
  (u.feed c ps).2 ++ ((u.feed c ps).1.stop c).2

theorem encodePixels_eq_finish (c : Params) (ps : List Pixel) : encodePixels c ps = EncUnit.start.finish c ps := rfl

theorem EncUnit.finish_nil : u.finish c [] = (u.flush c).2 := rfl

theorem EncUnit.finish_append (ps qs : List Pixel) :
    u.finish c (ps ++ qs) = (u.feed c ps).2 ++ (u.feed c ps).1.finish c qs := by
  simp only [finish, feed_append, List.append_assoc]

/-- R84: a sequence that does not begin with `prev` begins with the flush of the pending run. -/
theorem EncUnit.finish_eq_flush_append {qs : List Pixel} (hqs : ∀ q tl, qs = q :: tl → q ≠ u.prev) :
    u.finish c qs = (u.flush c).2 ++ ({ u with run := 0 } : EncUnit).finish c qs := feed_flush c u qs hqs

/-- R82: from no pending run, a pixel that differs from `prev` is one chunk. -/
theorem EncUnit.finish_cons_of_ne (hrun : u.run = 0) {p : Pixel} (hp : p ≠ u.prev) (ps : List Pixel) :
    u.finish c (p :: ps) = encode c (u.classify p) ++ (u.update p).finish c ps := by
  have hpix : u.pix c p = (u.update p, encode c (u.classify p)) := by
    rw [pix_of_ne c u p hp, flush_of_zero c u hrun, List.nil_append, ← hrun]
  simp only [finish, feed, hpix, List.append_assoc]

/-- R83: from no pending run, as many pixels equal to `prev` as the cap are one full RUN chunk. -/
theorem EncUnit.finish_full_run (hc : c.legal = true) (hrun : u.run = 0) (qs : List Pixel) :
    u.finish c (List.replicate c.maxRun u.prev ++ qs)
      = [c.tagRun ++ BitVec.ofNat 6 (c.maxRun - 1)] ++ (u.ran 0).finish c qs := by
  rw [finish_append, feed_run_cap c u (c.maxRun_bounds hc) hrun]

/-- R84: a shorter stretch, at the end of which no pixel equals `prev`, is one RUN chunk of its length. -/
theorem EncUnit.finish_short_run (hc : c.legal = true) (hrun : u.run = 0) {j : Nat} (hj : j + 1 < c.maxRun)
    {qs : List Pixel} (hqs : ∀ q tl, qs = q :: tl → q ≠ u.prev) :
    u.finish c (List.replicate (j + 1) u.prev ++ qs)
      = [c.tagRun ++ BitVec.ofNat 6 j] ++ (u.ran 0).finish c qs := by
  obtain ⟨-, hcap⟩ := c.maxRun_bounds hc
  have hflush := finish_eq_flush_append (c := c) (u := u.ran (BitVec.ofNat 6 (j + 1))) hqs
  rw [flush_ran hcap hj] at hflush
  rw [finish_append, feed_run_zero c u hcap j hrun hj]
  exact hflush

/-- R92: full runs are taken off until fewer pixels than the cap are left. -/
theorem EncUnit.finish_replicate (hc : c.legal = true) (hrun : u.run = 0) (k : Nat) :
    u.finish c (List.replicate k u.prev)
      = List.replicate (k / c.maxRun) (c.tagRun ++ BitVec.ofNat 6 (c.maxRun - 1))
        ++ if k % c.maxRun = 0 then [] else [c.tagRun ++ BitVec.ofNat 6 (k % c.maxRun - 1)] := by
  obtain ⟨hcap1, hcap⟩ := c.maxRun_bounds hc
  induction k using Nat.strong_induction_on generalizing u with
  | _ k ih =>
    rcases Nat.lt_or_ge k c.maxRun with hlt | hge
    · rw [Nat.div_eq_of_lt hlt, Nat.mod_eq_of_lt hlt]
      cases k with
      | zero =>
        rw [List.replicate_zero, finish_nil, flush_of_zero c u hrun]
        rfl
      | succ j =>
        have hchunk := finish_short_run (qs := []) hc hrun hlt (by rintro _ _ ⟨⟩)
        rw [List.append_nil, finish_nil, flush_of_zero c (u.ran 0) rfl] at hchunk
        rw [hchunk, if_neg (Nat.succ_ne_zero j)]
        rfl
    · obtain ⟨m, rfl⟩ := Nat.exists_eq_add_of_le hge
      have hrest := ih m (by omega) (u := u.ran 0) rfl
      rw [ran_prev] at hrest
      rw [← List.replicate_append_replicate, finish_full_run hc hrun, hrest, Nat.add_div_left _ hcap1, Nat.add_mod_left,
        List.replicate_succ]
      rfl

/-- Settles O40, by `EncUnit.finish_replicate`. -/
theorem longRunsAreSplitAtTheCap : Obligations.LongRunsAreSplitAtTheCap :=
  fun _ hc _ k hrun => EncUnit.finish_replicate hc hrun k

/-! ## The forward scan -/

/-- What the scan takes as one run: pixels equal to `prev`, at most the cap, and either that many or as far as they go. -/
theorem scan_run_split (prev : Pixel) (ps : List Pixel) (cap : Nat) (n : Nat)
    (hn : n = ((ps.takeWhile (· = prev)).take cap).length) :
    ps = List.replicate n prev ++ ps.drop n ∧ n ≤ cap
      ∧ (n < cap → ∀ q tl, ps.drop n = q :: tl → q ≠ prev) := by
  subst hn
  induction ps generalizing cap with
  | nil => simp
  | cons p ps ih =>
    cases cap with
    | zero => simp
    | succ cap =>
      by_cases hp : p = prev
      · obtain ⟨hsplit, hle, hend⟩ := ih cap
        simp only [hp, List.takeWhile_cons, decide_true, if_true, List.take_succ_cons, List.length_cons,
          List.replicate_succ, List.cons_append, List.drop_succ_cons, List.cons.injEq, true_and]
        exact ⟨hsplit, by omega, fun hlt => hend (by omega)⟩
      · simp [hp]

/-- R92: from no pending run, the scan gives the bytes that the run counter gives. -/
theorem EncUnit.finish_eq_scanFrom (hc : c.legal = true) (fuel : Nat) (u : EncUnit) (ps : List Pixel)
    (hfuel : ps.length ≤ fuel) (hrun : u.run = 0) : u.finish c ps = scanFrom c fuel u ps := by
  induction fuel generalizing u ps with
  | zero =>
    obtain rfl := List.length_eq_zero_iff.mp (Nat.le_zero.mp hfuel)
    rw [finish_nil, flush_of_zero c u hrun, scanFrom]
  | succ fuel ih =>
    cases ps with
    | nil => rw [finish_nil, flush_of_zero c u hrun, scanFrom]
    | cons p ps =>
      rw [List.length_cons] at hfuel
      simp only [scanFrom]
      split
      next hp =>
        subst hp
        obtain ⟨hcap1, -⟩ := c.maxRun_bounds hc
        generalize hn : ((ps.takeWhile (· = u.prev)).take (c.maxRun - 1)).length = n
        obtain ⟨hsplit, hle, hend⟩ := scan_run_split u.prev ps (c.maxRun - 1) n hn.symm
        have hupdate : u.update u.prev = u.ran 0 := by
          rw [← hrun]
          rfl
        rw [show u.prev :: ps = List.replicate (n + 1) u.prev ++ ps.drop n by
            rw [List.replicate_succ, List.cons_append, ← hsplit],
          hupdate, ← ih (u.ran 0) (ps.drop n) (by rw [List.length_drop]; omega) rfl]
        rcases Nat.lt_or_ge (n + 1) c.maxRun with hlt | hge
        · exact finish_short_run hc hrun hlt (hend (by omega))
        · obtain rfl : n = c.maxRun - 1 := by omega
          rw [Nat.sub_add_cancel hcap1]
          exact finish_full_run hc hrun _
      next hp =>
        rw [finish_cons_of_ne hrun hp, ih (u.update p) ps (by omega) hrun]

/-- Settles O39: both begin with no pending run, and the scan takes at most one chunk a pixel. -/
theorem runCounterEqualsForwardScan : Obligations.RunCounterEqualsForwardScan :=
  fun _ hc ps => EncUnit.finish_eq_scanFrom hc ps.length EncUnit.start ps le_rfl rfl

/-! ## The bounds of the output -/

/-- How many bytes a flush will emit. -/
def EncUnit.owed (u : EncUnit) : Nat := if u.run = 0 then 0 else 1

theorem EncUnit.owed_le_one (u : EncUnit) : u.owed ≤ 1 := by
  unfold owed
  split <;> omega

theorem EncUnit.flush_length (c : Params) (u : EncUnit) : (u.flush c).2.length = u.owed := by
  rw [flush_bytes, owed]
  split <;> rfl

/-- R83, whatever the counter and the cap: the pixel joins the run, or the run is written out. -/
theorem EncUnit.pix_prev_cases (c : Params) (u : EncUnit) :
    u.pix c u.prev = (u.ran (u.run + 1), [])
      ∨ (u.run + 1).toNat = c.maxRun ∧ u.pix c u.prev = ((u.ran (u.run + 1)).flush c) := by
  simp only [pix, if_true, absorb]
  split
  · exact .inr ⟨‹_›, rfl⟩
  · exact .inl rfl

/-- R82: at most 5 bytes a pixel, a pending run that is still to be written counting as one. -/
theorem EncUnit.pix_length_add_owed (c : Params) (u : EncUnit) (p : Pixel) :
    (u.pix c p).2.length + (u.pix c p).1.owed ≤ u.owed + 5 := by
  by_cases hp : p = u.prev
  · subst hp
    rcases u.pix_prev_cases c with h | ⟨-, h⟩
    · have := (u.ran (u.run + 1)).owed_le_one
      simp only [h, List.length_nil]
      omega
    · have := (u.ran (u.run + 1)).owed_le_one
      have := ((u.ran (u.run + 1)).flush c).1.owed_le_one
      rw [h, flush_length]
      omega
  · have := u.classify_length c p
    have howed : (({ u with run := 0 } : EncUnit).update p).owed = 0 := rfl
    rw [pix_of_ne c u p hp, howed, List.length_append, flush_length]
    omega

theorem EncUnit.feed_length_add_owed (c : Params) (u : EncUnit) (ps : List Pixel) :
    (u.feed c ps).2.length + (u.feed c ps).1.owed ≤ u.owed + 5 * ps.length := by
  induction ps generalizing u with
  | nil => simp [feed]
  | cons p ps ih =>
    have := u.pix_length_add_owed c p
    have := ih (u.pix c p).1
    simp only [feed, List.length_append, List.length_cons]
    omega

theorem toNat_run_succ {r : BitVec 6} (h : r.toNat < 63) : (r + 1).toNat = r.toNat + 1 := by
  rw [BitVec.toNat_add, show (1 : BitVec 6).toNat = 1 from rfl]
  omega

/-- R13: the run stays below the cap. -/
theorem EncUnit.pix_run_below (hc : c.legal = true) (hrun : u.run.toNat < c.maxRun) (p : Pixel) :
    (u.pix c p).1.run.toNat < c.maxRun := by
  obtain ⟨hcap1, hcap⟩ := c.maxRun_bounds hc
  by_cases hp : p = u.prev
  · subst hp
    rcases Nat.lt_or_eq_of_le (Nat.succ_le_of_lt hrun) with hlt | heq
    · rw [pix_run_lt c u hlt hcap, ran_run, toNat_run_succ (by omega)]
      exact hlt
    · rw [pix_run_cap c u heq hcap]
      exact hcap1
  · rw [pix_of_ne c u p hp]
    exact hcap1

/-- A pixel is paid for by a byte for each `maxRun` pixels, the pending run being still to be paid. -/
theorem EncUnit.pix_pays (hc : c.legal = true) (hrun : u.run.toNat < c.maxRun) (p : Pixel) :
    u.run.toNat + 1 ≤ c.maxRun * (u.pix c p).2.length + (u.pix c p).1.run.toNat := by
  obtain ⟨hcap1, hcap⟩ := c.maxRun_bounds hc
  by_cases hp : p = u.prev
  · subst hp
    rcases Nat.lt_or_eq_of_le (Nat.succ_le_of_lt hrun) with hlt | heq
    · rw [pix_run_lt c u hlt hcap, ran_run, toNat_run_succ (by omega)]
      exact Nat.le_add_left ..
    · rw [pix_run_cap c u heq hcap, List.length_singleton]
      omega
  · have hone : 1 ≤ (u.pix c p).2.length := by
      have := u.classify_length c p
      rw [pix_of_ne c u p hp, List.length_append]
      omega
    have := Nat.mul_le_mul_left c.maxRun hone
    omega

theorem EncUnit.feed_pays (hc : c.legal = true) (ps : List Pixel) (hrun : u.run.toNat < c.maxRun) :
    (u.feed c ps).1.run.toNat < c.maxRun
      ∧ u.run.toNat + ps.length ≤ c.maxRun * (u.feed c ps).2.length + (u.feed c ps).1.run.toNat := by
  induction ps generalizing u with
  | nil => exact ⟨hrun, by simp [feed]⟩
  | cons p ps ih =>
    obtain ⟨hbelow, hpays⟩ := ih (pix_run_below hc hrun p)
    have := pix_pays hc hrun p
    refine ⟨hbelow, ?_⟩
    simp only [feed, List.length_append, List.length_cons, Nat.mul_add]
    omega

/-- `encode(P)` has a byte for each `maxRun` pixels. -/
theorem length_le_mul_encodePixels (hc : c.legal = true) (ps : List Pixel) :
    ps.length ≤ c.maxRun * (encodePixels c ps).length := by
  have hstart : EncUnit.start.run.toNat = 0 := rfl
  obtain ⟨hbelow, hpays⟩ := EncUnit.feed_pays (u := EncUnit.start) hc ps (c.maxRun_bounds hc).1
  have howed : (EncUnit.start.feed c ps).1.run.toNat ≤ c.maxRun * (EncUnit.start.feed c ps).1.owed := by
    unfold EncUnit.owed
    split
    next h => simp [h]
    next h => omega
  rw [encodePixels_eq_finish, EncUnit.finish, List.length_append, Nat.mul_add]
  change _ ≤ _ + c.maxRun * ((EncUnit.start.feed c ps).1.flush c).2.length
  rw [EncUnit.flush_length]
  omega

theorem encodePixels_length_le (c : Params) (ps : List Pixel) : (encodePixels c ps).length ≤ 5 * ps.length := by
  have hstart : EncUnit.start.owed = 0 := rfl
  have := EncUnit.start.feed_length_add_owed c ps
  rw [encodePixels_eq_finish, EncUnit.finish, List.length_append]
  change _ + ((EncUnit.start.feed c ps).1.flush c).2.length ≤ _
  rw [EncUnit.flush_length]
  omega

/-- Settles O41: the bounds of one event add up over a pass, and the least is met by O40. -/
theorem encodedSizeIsBounded : Obligations.EncodedSizeIsBounded := by
  refine ⟨fun c u p => ⟨?pix, ?stop⟩, fun ps => ⟨encodePixels_length_le _ ps, ?least⟩, fun k => ?met⟩
  case pix =>
    have := u.pix_length_add_owed c p
    have := u.owed_le_one
    omega
  case stop => exact (u.flush_length c).trans_le u.owed_le_one
  case least =>
    have : ps.length ≤ 62 * _ := length_le_mul_encodePixels Config.params_legal ps
    omega
  case met =>
    have hsplit := congrArg List.length (EncUnit.finish_replicate (u := EncUnit.start) Config.params_legal rfl k)
    have hcap : Config.params.maxRun = 62 := rfl
    rw [List.length_append, List.length_replicate, hcap] at hsplit
    refine Eq.trans hsplit ?_
    split
    next h => rw [List.length_nil]; omega
    next h => rw [List.length_singleton]; omega

/-! ## The events of a pass -/

/-- One `Pix` event a pixel. -/
theorem run_encPix (ps : List Pixel) (s : State) (rest : List Event) (hp : s.enc.phase = .active) :
    core.run ps.length (s.withEvents (ps.map .encPix ++ rest))
      = .next ((s.withEnc (s.enc.feed Config.params ps)).withEvents rest) := by
  induction ps generalizing s with
  | nil =>
    simp only [EncUnit.feed, State.withEnc, State.emit, List.append_nil]
    rfl
  | cons p ps ih =>
    have hstep := step_encPix (s.withEvents ((p :: ps).map .encPix ++ rest)) p (ps.map .encPix ++ rest) rfl hp
    refine (run_succ_of_step _ _ _ hstep).trans ((ih (s.withEnc (s.enc.pix Config.params p)) ?_).trans ?_)
    · exact (EncUnit.pix_regs Config.params s.enc p).2.2.trans hp
    · simp only [EncUnit.feed, State.withEnc, State.emit, List.append_assoc]

/-- Settles O38: `Start`, the pixels one by one (`run_encPix`), and the flush. -/
theorem encodePassEmitsEncode : Obligations.EncodePassEmitsEncode := by
  intro ps s rest he
  have hfeed := run_encPix ps s.encStart (.encEnd :: rest) rfl
  have hend := step_encEnd ((s.encStart.withEnc (EncUnit.start.feed Config.params ps)).withEvents (.encEnd :: rest)) rest
    rfl (EncUnit.feed_phase Config.params EncUnit.start ps)
  refine ⟨_, (run_succ_of_step _ _ _ (step_encStart s _ he)).trans
    ((run_add core ps.length 1 _ _ hfeed).trans (run_succ_of_step 0 _ _ hend)), ?out, ?run, ?phase, rfl, rfl, rfl⟩
  case out => exact List.append_assoc ..
  case run => exact congrArg EncUnit.run (EncUnit.flush_unit ..)
  case phase => rfl

end Sys2Proof.Machine

/-! Whole passes of the decoder (42_decoder.md): the two results that `decode` can have, the `Chunk` events that reach them, and the
decoder in lockstep with the encoder (10_state.md section 7). -/

namespace Sys2Proof.Machine

/-! ## The results of `decode` -/

/-- R100, R102: a stream whose last chunk is cut short decodes to `TruncatedChunk` at that chunk's first byte. -/
theorem decodeStream_of_truncated {c : Params} {pre tail : List Byte} {n : Nat} {d' : DecUnit} {out : List Pixel}
    (h : Walk c (DecUnit.start (Config.freeOffset 0)) pre n d' out) (ht : decodeChunk c tail = .bad .truncated) :
    decodeStream c (pre ++ tail) = .error .truncatedChunk pre.length := by
  have hpos : d'.pos = pre.length := h.facts.1.trans (Nat.zero_add _)
  rw [decodeStream, decodePass_truncated State.reset pre tail h ht, ← hpos]
  rfl

/-- A stream is all chunks, whose pixels `decode` answers, or its last chunk is cut short. -/
theorem decodeStream_cases {c : Params} (hc : c.legal = true) (input : List Byte) :
    (∃ n d' out, Walk c (DecUnit.start (Config.freeOffset 0)) input n d' out ∧ decodeStream c input = .pixels out)
    ∨ ∃ pre tail n d' out, input = pre ++ tail ∧ Walk c (DecUnit.start (Config.freeOffset 0)) pre n d' out
        ∧ decodeChunk c tail = .bad .truncated ∧ decodeStream c input = .error .truncatedChunk pre.length := by
  obtain ⟨pre, tail, n, d', out, rfl, hwalk, htail⟩ := Walk.exists c input (DecUnit.start (Config.freeOffset 0))
  rcases htail with rfl | ht | ht
  · rw [List.append_nil]
    exact .inl ⟨n, d', out, hwalk, decodeStream_of_walk hwalk⟩
  · exact .inr ⟨pre, tail, n, d', out, rfl, hwalk, ht, decodeStream_of_truncated hwalk ht⟩
  · exact absurd ht (decodeChunk_ne_unrecognizedTag hc tail)

/-- A chunk that is cut short has a first byte. -/
theorem length_pos_of_truncated {c : Params} {tail : List Byte} (h : decodeChunk c tail = .bad .truncated) :
    0 < tail.length := by
  refine List.length_pos_iff.mpr ?_
  rintro rfl
  cases h

/-- Settles O35: no pixels are no steps, and no bytes are no chunks. -/
theorem emptyInputsGiveEmptyOutputs : Obligations.EmptyInputsGiveEmptyOutputs :=
  fun _ => ⟨rfl, decodeStream_of_walk (.nil _)⟩

/-- Settles O33: the error stands at the first byte of the chunk that is cut short. -/
theorem decodeFailsOnlyByTruncation : Obligations.DecodeFailsOnlyByTruncation := by
  intro c hc input k off h
  rcases decodeStream_cases hc input with ⟨_, _, _, -, hpixels⟩ | ⟨pre, tail, _, _, _, rfl, -, ht, herror⟩
  · cases h.symm.trans hpixels
  · cases h.symm.trans herror
    have := length_pos_of_truncated ht
    rw [List.length_append]
    exact ⟨rfl, by omega⟩

/-! ## An end marker left on the stream -/

/-- INDEX chunks decode from every state, to a pixel each. -/
theorem Walk.indices {c : Params} (hc : c.legal = true) (slots : List (BitVec 6)) (d : DecUnit) :
    ∃ d' out, Walk c d (slots.map (c.tagIndex ++ ·)) slots.length d' out ∧ out.length = slots.length := by
  induction slots generalizing d with
  | nil => exact ⟨d, [], .nil d, rfl⟩
  | cons slot slots ih =>
    obtain ⟨d', out, hwalk, hlen⟩ := ih (d.writeBack (chunkPixel d (.index slot)) 1)
    have hwf : (Instr.index slot).wf c = true := c.tagged_of_emits hc _ (c.emits_index slot)
    refine ⟨d', _, .cons (decodeChunk_encode hc rfl hwf _) hwalk, ?_⟩
    rw [List.length_append, List.length_replicate, hlen, List.length_cons, Nat.add_comm]
    rfl

/-- Settles O34: under the tag values of R5 the marker's bytes are INDEX chunks, seven of slot 0 and one of slot 1. -/
theorem endMarkerLeftOnDecodesAsEightPixels : Obligations.EndMarkerLeftOnDecodesAsEightPixels := by
  intro input q h
  rcases decodeStream_cases Config.params_legal input with ⟨n, d', out, hwalk, hpixels⟩ | ⟨_, _, _, _, _, -, -, -, herror⟩
  · cases h.symm.trans hpixels
    obtain ⟨d'', extra, hmarker, hlen⟩ := Walk.indices Config.params_legal [0, 0, 0, 0, 0, 0, 0, 1] d'
    exact ⟨extra, hlen, decodeStream_of_walk (hwalk.append hmarker)⟩
  · cases h.symm.trans herror

/-! ## The events of a chunk-level pass -/

theorem step_decChunk (s : State) (rest : List Event) :
    step (s.withEvents (.decChunk :: rest)) = decChunk Config.params (s.withEvents rest) :=
  step_of_events _ .decChunk rest rfl

/-- `Chunk` events over the chunks at the head of what is left of the stream. -/
theorem run_decChunk_walk {d d' : DecUnit} {pre : List Byte} {n : Nat} {out : List Pixel}
    (h : Walk Config.params d pre n d' out) :
    ∀ (s : State) (input tail : List Byte) (rest : List Event), s.dec = d → d.phase = .active → s.decIn = .whole input →
      input.drop d.pos = pre ++ tail →
      core.run n (s.withEvents (List.replicate n .decChunk ++ rest)) = .next ((s.walked d' out).withEvents rest) := by
  induction h with
  | nil d =>
    rintro s input tail rest rfl - - -
    simp only [State.walked, List.append_nil]
    rfl
  | @cons _ d' bytes more n out i hd _ ih =>
    rintro s input tail rest rfl hp hi hdrop
    have hhead : decodeChunk Config.params (input.drop s.dec.pos) = .ok i (more ++ tail) := by
      rw [hdrop, decodeChunk_bytes _ _ _ _ hd, List.append_assoc]
      exact decodeChunk_append _ _ _ _ _ hd
    have hstep := (step_decChunk s (List.replicate n .decChunk ++ rest)).trans (decChunk_ok _ input _ i hp hi hhead)
    refine (run_succ_of_step _ _ _ hstep).trans ((ih (s.walked (s.dec.writeBack (chunkPixel s.dec i) i.len)
      (List.replicate (chunkCount i) (chunkPixel s.dec i))) input tail rest rfl hp hi
      (drop_writeBack _ input bytes more tail i _ hd hdrop)).trans ?_)
    simp only [State.walked, List.append_assoc]

section ChunkPass

variable {d' : DecUnit} {pre tail : List Byte} {n : Nat} {out : List Pixel}

/-- `Start` of a chunk-level pass, and the `Chunk` events over the chunks at the head of the stream. -/
theorem run_decStart_walk (s : State) (rest : List Event)
    (he : s.events = .decStart (.whole (pre ++ tail)) :: (List.replicate n .decChunk ++ rest))
    (h : Walk Config.params (DecUnit.start (Config.freeOffset s.draws)) pre n d' out) :
    core.run (n + 1) s = .next (((s.decStart (.whole (pre ++ tail))).walked d' out).withEvents rest) :=
  (run_succ_of_step _ _ _ (step_decStart s _ _ he)).trans
    (run_decChunk_walk h (s.decStart (.whole (pre ++ tail))) (pre ++ tail) tail rest rfl rfl rfl rfl)

/-- R101: a pass over a stream that is all chunks ends in `Done` with all of it read. -/
theorem run_decStart_whole (s : State) (rest : List Event)
    (he : s.events = .decStart (.whole pre) :: (List.replicate n .decChunk ++ .decEnd :: rest))
    (h : Walk Config.params (DecUnit.start (Config.freeOffset s.draws)) pre n d' out) :
    core.run (n + 2) s = .next (((s.decStart (.whole pre)).walked d' out).decDone.withEvents rest) := by
  obtain ⟨hpos, -, -, hphase, -⟩ := h.facts
  rw [← List.append_nil pre] at he
  have hwalk := run_decStart_walk s _ he h
  rw [List.append_nil] at hwalk
  have hend := (step_of_events (((s.decStart (.whole pre)).walked d' out).withEvents (.decEnd :: rest)) _ _ rfl).trans
    (decEnd_whole _ pre hphase rfl (hpos.trans (Nat.zero_add _)))
  exact (run_add core (n + 1) 1 _ _ hwalk).trans (run_succ_of_step 0 _ _ hend)

/-- R102: one `Chunk` more, at a chunk that is cut short, ends the pass in `Faulted`. -/
theorem run_decStart_truncated (s : State) (rest : List Event)
    (he : s.events = .decStart (.whole (pre ++ tail)) :: (List.replicate (n + 1) .decChunk ++ rest))
    (h : Walk Config.params (DecUnit.start (Config.freeOffset s.draws)) pre n d' out)
    (ht : decodeChunk Config.params tail = .bad .truncated) :
    core.run (n + 2) s = .next ((((s.decStart (.whole (pre ++ tail))).walked d' out).decRaise .truncatedChunk
      d'.pos).withEvents rest) := by
  obtain ⟨hpos, -, -, hphase, -⟩ := h.facts
  rw [List.replicate_succ', List.append_assoc] at he
  have hdrop : (pre ++ tail).drop d'.pos = tail := by
    rw [hpos.trans (Nat.zero_add _), List.drop_left]
  have hraise := (step_decChunk ((s.decStart (.whole (pre ++ tail))).walked d' out) rest).trans
    (decChunk_truncated _ (pre ++ tail) hphase rfl ((congrArg _ hdrop).trans ht))
  exact (run_add core (n + 1) 1 _ _ (run_decStart_walk s _ he h)).trans (run_succ_of_step 0 _ _ hraise)

end ChunkPass

/-- Settles O31: as many `Chunk` events as the stream has whole chunks, and one more for a chunk that is cut short. -/
theorem decodePassReachesItsResult : Obligations.DecodePassReachesItsResult := by
  intro input
  rcases decodeStream_cases Config.params_legal input with
    ⟨n, d', out, hwalk, hpixels⟩ | ⟨pre, tail, n, d', out, rfl, hwalk, ht, herror⟩
  · obtain ⟨hpos, -, -, -, hn⟩ := hwalk.facts
    refine ⟨n, hn, fun s rest => ⟨fun q hq he => ?_, fun k off hk => nomatch hk.symm.trans hpixels⟩⟩
    cases hq.symm.trans hpixels
    have hrun := run_decStart_whole s rest he (hwalk.withErr ⟨.none, Config.freeOffset s.draws⟩)
    exact ⟨_, hrun, rfl, hpos.trans (Nat.zero_add _), rfl, rfl, rfl⟩
  · obtain ⟨hpos, -, -, -, hn⟩ := hwalk.facts
    have htail := length_pos_of_truncated ht
    refine ⟨n + 1, by rw [List.length_append]; omega,
      fun s rest => ⟨fun q hq => (nomatch hq.symm.trans herror), fun k off hk he => ?_⟩⟩
    cases hk.symm.trans herror
    have hrun := run_decStart_truncated s rest he (hwalk.withErr ⟨.none, Config.freeOffset s.draws⟩) ht
    have hoff : d'.pos = pre.length := hpos.trans (Nat.zero_add _)
    exact ⟨_, hrun, rfl, congrArg _ hoff, hoff, rfl⟩

/-! ## Lockstep -/

/-- R25: after at least one chunk `prev` stands in the cache at its own slot. -/
theorem Walk.nil_or_prevCached {c : Params} {d d' : DecUnit} {bytes : List Byte} {n : Nat} {out : List Pixel}
    (h : Walk c d bytes n d' out) : (d' = d ∧ out = []) ∨ d'.cache.read (pixelHash d'.prev) = d'.prev := by
  induction h with
  | nil d => exact .inl ⟨rfl, rfl⟩
  | cons _ _ ih =>
    refine .inr ?_
    rcases ih with ⟨rfl, -⟩ | hcached
    · exact Cache.read_write_same ..
    · exact hcached

/-- R26: the caches differ at most in the slot of `prev`, while a run is pending, and only if the decoder's does not hold `prev`
there. -/
theorem InStep.cache_differs {c : Params} {u : EncUnit} {d : DecUnit} (h : InStep c u d) {slot : BitVec 6}
    (hne : d.cache.read slot ≠ u.cache.read slot) : slot = pixelHash d.prev ∧ d.cache.read (pixelHash d.prev) ≠ d.prev := by
  have hrun : u.run ≠ 0 := fun h0 => hne (by rw [h.noRun h0])
  rw [← h.pending hrun, ← h.prev] at hne
  have hslot : slot = pixelHash d.prev := by
    by_contra hother
    exact hne (Cache.read_write_other _ _ _ _ hother).symm
  subst hslot
  rw [Cache.read_write_same] at hne
  exact ⟨rfl, hne⟩

/-- Settles O44: the decoder has walked over what was emitted in step with the encoder (`InStep.feed`); where it has walked over
no chunk all the pixels are pending, and `prev` is the reset value, whose slot is 53. -/
theorem encoderAndDecoderInLockstep : Obligations.EncoderAndDecoderInLockstep := by
  intro c hc ps u t k
  have hstart : InStep c EncUnit.start (DecUnit.start (Config.freeOffset 0)) := .of_noRun hc rfl rfl rfl
  obtain ⟨n, d', out, hwalk, hstep, hout⟩ := hstart.feed hc ps
  have hpass : t = _ := decodePass_whole State.reset _ hwalk
  have hps : ps = out ++ List.replicate k u.prev := hout
  have hlen : ps.length = out.length + k := by simpa using congrArg List.length hps
  have hdone : ps.length - k = out.length := by omega
  rw [hpass, hdone]
  refine ⟨rfl, by omega, ?taken, ?dropped, hstep.prev, fun hk => hstep.noRun (BitVec.eq_of_toNat_eq hk), fun slot hne => ?_⟩
  case taken => exact ((congrArg (List.take out.length) hps).trans List.take_left).symm
  case dropped => exact (congrArg (List.drop out.length) hps).trans List.drop_left
  obtain ⟨hslot, hmissing⟩ := hstep.cache_differs hne
  rcases hwalk.nil_or_prevCached with ⟨rfl, rfl⟩ | hcached
  · have h53 : pixelHash Config.prevReset = 53 := by decide
    exact ⟨hslot.trans h53, hlen.trans (Nat.zero_add k)⟩
  · exact absurd hcached hmissing

end Sys2Proof.Machine

/-! What a step can do, agent by agent: the events of `ENC` as a function of its registers (`encAfter`), those of `DEC` as a relation
on its registers and input (`DecMove`), and the frame of each agent (20_memory.md section 1). -/

namespace Sys2Proof.Machine

variable {c : Params} {s t : State} {e : Event}

/-! ## ENC -/

/-- What an event of `ENC` does: the unit after it, and the bytes emitted. The events of other units leave `ENC` alone. -/
def encAfter (c : Params) (u : EncUnit) : Event → EncUnit × List Byte
  | .encStart => (EncUnit.start, [])
  | .encPix p => u.pix c p
  | .encEnd => u.stop c
  | _ => (u, [])

/-- Whether an event of `ENC` has a step depends on its phase alone, and so does what it does on its registers. -/
theorem react_enc (ha : e.agent = .enc) (hp : s.enc.phase = .active ∨ e = .encStart) :
    react c e s = .next (s.withEnc (encAfter c s.enc e)) := by
  cases e with
  | encStart => simp only [react, encAfter, State.withEnc, State.emit, List.append_nil, State.encStart]
  | encPix p => exact encPix_enabled c p s (hp.resolve_right nofun)
  | encEnd => exact encEnd_enabled c s (hp.resolve_right nofun)
  | _ => cases ha

theorem Effect.enc_active (h : Effect c s t e) (ha : e.agent = .enc) : s.enc.phase = .active ∨ e = .encStart := by
  cases e with
  | encStart => exact .inr rfl
  | encPix p => exact .inl h.1
  | encEnd => exact .inl h.1
  | _ => cases ha

/-- An event of `ENC` changes `ENC` and its output. -/
theorem Effect.of_enc (h : Effect c s t e) (ha : e.agent = .enc) : t = s.withEnc (encAfter c s.enc e) := by
  cases e with
  | encStart =>
    rw [show t = s.encStart from h]
    simp only [encAfter, State.withEnc, State.emit, List.append_nil, State.encStart]
  | encPix p => exact h.2
  | encEnd => exact h.2
  | _ => cases ha

/-! ## DEC -/

/-- `DEC` after an error at the chunk it stands at (R148). -/
def DecUnit.cutShort (d : DecUnit) : DecUnit := { d with err := ⟨.truncatedChunk, d.pos⟩, phase := .faulted }

/-- What the events of `DEC` do to its registers and input, and the pixels they output. -/
inductive DecMove (c : Params) (d : DecUnit) (input : DecInput) (draws : Nat) :
    Event → DecUnit → DecInput → List Pixel → Prop
  /-- R23. -/
  | start (input' : DecInput) :
      DecMove c d input draws (.decStart input') (DecUnit.start (Config.freeOffset draws)) input' []
  /-- R102: a chunk that is there whole. -/
  | chunk {bytes rest : List Byte} {i : Instr} : d.phase = .active → input = .whole bytes →
      decodeChunk c (bytes.drop d.pos) = .ok i rest →
      DecMove c d input draws .decChunk (d.writeBack (chunkPixel d i) i.len) input
        (List.replicate (chunkCount i) (chunkPixel d i))
  /-- R102: a chunk that is cut short. -/
  | chunkCut {bytes : List Byte} : d.phase = .active → input = .whole bytes →
      decodeChunk c (bytes.drop d.pos) = .bad .truncated → DecMove c d input draws .decChunk d.cutShort input []
  /-- R111: the last byte of a chunk. -/
  | lastByte {b : Byte} {i : Instr} : d.phase = .active → input = .serial →
      chunkComplete c (d.buf ++ [b]) = true → decodeChunk c (d.buf ++ [b]) = .ok i [] →
      DecMove c d input draws (.decByte b) (({ d with buf := [] } : DecUnit).writeBack (chunkPixel d i) i.len) input
        (List.replicate (chunkCount i) (chunkPixel d i))
  /-- R111: a byte that leaves the chunk unfinished. -/
  | moreBytes {b : Byte} : d.phase = .active → input = .serial → chunkComplete c (d.buf ++ [b]) = false →
      DecMove c d input draws (.decByte b) { d with buf := d.buf ++ [b] } input []
  /-- R101: `End` at the end of the stream. -/
  | doneWhole {bytes : List Byte} : d.phase = .active → input = .whole bytes → d.pos = bytes.length →
      DecMove c d input draws .decEnd { d with phase := .done } input []
  /-- R111: `End` with no bytes of a chunk pending. -/
  | doneSerial : d.phase = .active → input = .serial → d.buf = [] →
      DecMove c d input draws .decEnd { d with phase := .done } input []
  /-- R111: `End` with bytes of a chunk pending. -/
  | endCut : d.phase = .active → input = .serial → d.buf ≠ [] → DecMove c d input draws .decEnd d.cutShort input []

/-- The pixel of a chunk does not depend on the buffer. -/
theorem chunkPixel_buf (d : DecUnit) (buf : List Byte) (i : Instr) : chunkPixel { d with buf := buf } i = chunkPixel d i := by
  cases i <;> rfl

/-- R111: a byte that makes the chunk whole leaves nothing over. -/
theorem decodeChunk_of_complete (hc : c.legal = true) {bs : List Byte} (h : chunkComplete c bs = true) :
    ∃ i, decodeChunk c bs = .ok i [] := by
  cases bs with
  | nil => cases h
  | cons b0 more => exact decodeChunk_whole hc ((chunkComplete_iff c b0 more).mp h)

/-- An event of `DEC` that has a step makes one of the moves, and changes `DEC`, its input, its output and the draws. -/
theorem Effect.decMove (hc : c.legal = true) (h : Effect c s t e) (ha : e.agent = .dec) :
    ∃ d' input' out draws', DecMove c s.dec s.decIn s.draws e d' input' out
      ∧ t = { s with dec := d', decIn := input', decOut := s.decOut ++ out, draws := draws' } := by
  cases e with
  | decStart input =>
    refine ⟨_, _, _, s.draws + 1, .start input, ?_⟩
    rw [show t = s.decStart input from h, List.append_nil]
    rfl
  | decChunk =>
    obtain ⟨hp, bytes, hi, -, hrun⟩ := h
    rcases runDecoded_cases _ _ _ _ hrun with ⟨i, rest, hd, -, rfl⟩ | ⟨hd, rfl⟩ | ⟨hd, -⟩
    · exact ⟨_, _, _, s.draws, .chunk hp hi hd, rfl⟩
    · exact ⟨_, _, _, s.draws, .chunkCut hp hi hd, by rw [List.append_nil]; rfl⟩
    · exact absurd hd (decodeChunk_ne_unrecognizedTag hc _)
  | decByte b =>
    obtain ⟨hp, hi, ⟨hcomplete, hrun⟩ | ⟨hpartial, rfl⟩⟩ := h
    · obtain ⟨i, hd⟩ := decodeChunk_of_complete hc hcomplete
      refine ⟨_, _, _, s.draws, .lastByte hp hi hcomplete hd, ?_⟩
      rw [hd, runDecoded, exec_chunk i _ (decodeChunk_place _ _ _ _ hd)] at hrun
      rw [← Host.Outcome.next.inj hrun, ← chunkPixel_buf s.dec [] i]
      rfl
    · exact ⟨_, _, _, s.draws, .moreBytes hp hi hpartial, by rw [List.append_nil]; rfl⟩
  | decEnd =>
    obtain ⟨hp, ⟨bytes, hi, hpos, rfl⟩ | ⟨hi, hb, rfl⟩ | ⟨hi, hb, rfl⟩⟩ := h
    · exact ⟨_, _, _, s.draws, .doneWhole hp hi hpos, by rw [List.append_nil]; rfl⟩
    · exact ⟨_, _, _, s.draws, .doneSerial hp hi hb, by rw [List.append_nil]; rfl⟩
    · exact ⟨_, _, _, s.draws, .endCut hp hi hb, by rw [List.append_nil]; rfl⟩
  | _ => cases ha

/-- Every move is one that the event's step makes. -/
theorem DecMove.react {d' : DecUnit} {input' : DecInput} {out : List Pixel}
    (h : DecMove c s.dec s.decIn s.draws e d' input' out) :
    ∃ t, react c e s = .next t ∧ t.dec = d' ∧ t.decOut = s.decOut ++ out := by
  cases h with
  | start input' => exact ⟨_, rfl, rfl, (List.append_nil _).symm⟩
  | chunk hp hi hd => exact ⟨_, decChunk_ok s _ _ _ hp hi hd, rfl, rfl⟩
  | chunkCut hp hi hd => exact ⟨_, decChunk_truncated s _ hp hi hd, rfl, (List.append_nil _).symm⟩
  | @lastByte b i hp hi hcomplete hd =>
    have hexec := exec_chunk i (s.withBuf []) (decodeChunk_place _ _ _ _ hd)
    rw [← chunkPixel_buf s.dec [] i]
    exact ⟨_, (decByte_complete c b s hp hi hcomplete).trans ((congrArg (runDecoded · _) hd).trans hexec), rfl, rfl⟩
  | moreBytes hp hi hpartial => exact ⟨_, decByte_partial c _ s hp hi hpartial, rfl, (List.append_nil _).symm⟩
  | doneWhole hp hi hpos => exact ⟨_, decEnd_whole s _ hp hi hpos, rfl, (List.append_nil _).symm⟩
  | doneSerial hp hi hb => exact ⟨_, decEnd_serial s hp hi hb, rfl, (List.append_nil _).symm⟩
  | endCut hp hi hb => exact ⟨_, decEnd_pending s hp hi hb, rfl, (List.append_nil _).symm⟩

/-! ## FRR and FRW -/

/-- An event of `FRR` changes `FRR`, its input, its results and the draws. -/
theorem Effect.of_frr (h : Effect c s t e) (ha : e.agent = .frr) :
    ∃ f bytes out draws', t = { s with frr := f, frrIn := bytes, frrOut := s.frrOut ++ out, draws := draws' } := by
  cases e with
  | frrStart bytes =>
    obtain ⟨-, rfl⟩ := h
    exact ⟨_, _, [], _, by rw [List.append_nil]; rfl⟩
  | frrHeader =>
    obtain ⟨-, m, w, ht, ch, cs, rest, -, hexec⟩ := h
    obtain ⟨f, rfl⟩ := execHeader_frame _ _ _ _ _ _ _ hexec
    exact ⟨f, s.frrIn, [], s.draws, by rw [List.append_nil]⟩
  | frrMarker =>
    obtain ⟨-, k, rest, -, rfl⟩ := h
    exact ⟨_, s.frrIn, [], s.draws, by rw [List.append_nil]; rfl⟩
  | frrDecode =>
    obtain ⟨-, rfl⟩ := h
    obtain ⟨f, o, hfinish⟩ := frrFinish_frame s (decodeStream c (chunkBytes s.frrIn))
    exact ⟨f, s.frrIn, [o], s.draws, hfinish⟩
  | _ => cases ha

/-- A write changes the written streams. -/
theorem Effect.of_frw (h : Effect c s t e) (ha : e.agent = .frw) : ∃ out, t = { s with frwOut := s.frwOut ++ out } := by
  cases e with
  | frwWrite w ht ch cs ps =>
    obtain ⟨-, -, -, rfl⟩ := h
    exact ⟨_, rfl⟩
  | _ => cases ha

/-! ## The frame of every agent -/

/-- What a step of the agent `a` from `s` to `t` leaves alone: the registers, inputs and outputs of the other agents. -/
structure Frame (a : Agent) (s t : State) : Prop where
  enc : a ≠ .enc → t.enc = s.enc ∧ t.encOut = s.encOut
  dec : a ≠ .dec → t.dec = s.dec ∧ t.decIn = s.decIn ∧ t.decOut = s.decOut
  frr : a ≠ .frr → t.frr = s.frr ∧ t.frrIn = s.frrIn ∧ t.frrOut = s.frrOut
  frw : a ≠ .frw → t.frwOut = s.frwOut

theorem Effect.frame (hc : c.legal = true) (h : Effect c s t e) : Frame e.agent s t := by
  cases ha : e.agent with
  | enc =>
    rw [h.of_enc ha]
    exact ⟨fun hne => absurd rfl hne, fun _ => ⟨rfl, rfl, rfl⟩, fun _ => ⟨rfl, rfl, rfl⟩, fun _ => rfl⟩
  | dec =>
    obtain ⟨_, _, _, _, -, rfl⟩ := h.decMove hc ha
    exact ⟨fun _ => ⟨rfl, rfl⟩, fun hne => absurd rfl hne, fun _ => ⟨rfl, rfl, rfl⟩, fun _ => rfl⟩
  | frr =>
    obtain ⟨_, _, _, _, rfl⟩ := h.of_frr ha
    exact ⟨fun _ => ⟨rfl, rfl⟩, fun _ => ⟨rfl, rfl, rfl⟩, fun hne => absurd rfl hne, fun _ => rfl⟩
  | frw =>
    obtain ⟨_, rfl⟩ := h.of_frw ha
    exact ⟨fun _ => ⟨rfl, rfl⟩, fun _ => ⟨rfl, rfl, rfl⟩, fun _ => ⟨rfl, rfl, rfl⟩, fun hne => absurd rfl hne⟩

/-! ## What follows for `DEC` from its moves -/

section Moves

variable {d d' : DecUnit} {input input' : DecInput} {draws : Nat} {out : List Pixel}

/-- R101, R111: only `Start` has a step outside `Active`. -/
theorem DecMove.start_or_active (h : DecMove c d input draws e d' input' out) :
    (∃ i, e = .decStart i) ∨ d.phase = .active := by
  cases h with
  | start => exact .inl ⟨_, rfl⟩
  | _ => exact .inr ‹_›

/-- R19, R145: the error register is cleared, left alone, or set to `TruncatedChunk`. -/
theorem DecMove.errKind (h : DecMove c d input draws e d' input' out) :
    d'.err.kind = .none ∨ d'.err = d.err ∨ d'.err.kind = .truncatedChunk := by
  cases h with
  | start => exact .inl rfl
  | chunkCut => exact .inr (.inr rfl)
  | endCut => exact .inr (.inr rfl)
  | _ => exact .inr (.inl rfl)

/-- R109: the cache is emptied, left alone, or written at the slot of the pixel that is stored. -/
theorem DecMove.cache (h : DecMove c d input draws e d' input' out) :
    d'.cache = [] ∨ d'.cache = d.cache ∨ ∃ px, d'.cache = d.cache.write (pixelHash px) px := by
  cases h with
  | start => exact .inl rfl
  | chunk => exact .inr (.inr ⟨_, rfl⟩)
  | lastByte => exact .inr (.inr ⟨_, rfl⟩)
  | _ => exact .inr (.inl rfl)

/-- R17: the position goes to 0 at `Start`, forward by the length of a chunk that is executed, and stays otherwise. -/
theorem DecMove.pos (h : DecMove c d input draws e d' input' out) :
    (∃ i, e = .decStart i ∧ d'.pos = 0) ∨ d'.pos = d.pos
      ∨ ((e = .decChunk ∨ ∃ b, e = .decByte b) ∧ ∃ i : Instr, i.place = .chunk ∧ d'.pos = d.pos + i.len) := by
  cases h with
  | start => exact .inl ⟨_, rfl, rfl⟩
  | chunk _ _ hd => exact .inr (.inr ⟨.inl rfl, _, decodeChunk_place _ _ _ _ hd, rfl⟩)
  | lastByte _ _ _ hd => exact .inr (.inr ⟨.inr ⟨_, rfl⟩, _, decodeChunk_place _ _ _ _ hd, rfl⟩)
  | _ => exact .inr (.inl rfl)

end Moves

/-! ## The statements -/

/-- R51: the lengths of the chunks. -/
theorem Instr.len_of_chunk {i : Instr} (h : i.place = .chunk) : i.len = 1 ∨ i.len = 2 ∨ i.len = 4 ∨ i.len = 5 := by
  cases i <;> simp_all [Instr.len, Instr.place]

/-- Settles O51, by `DecMove.pos`. -/
theorem positionMovesByChunkLengths : Obligations.PositionMovesByChunkLengths := by
  intro s t e rest he h
  have heffect := step_effect s t e rest he h
  by_cases ha : e.agent = .dec
  · obtain ⟨d', _, _, _, hmove, rfl⟩ := heffect.decMove Config.params_legal ha
    rcases hmove.pos with hstart | hstay | ⟨hevent, i, hplace, hpos⟩
    · exact .inl hstart
    · exact .inr (.inl hstay)
    · refine .inr (.inr ⟨hevent, ?_⟩)
      rcases Instr.len_of_chunk hplace with hlen | hlen | hlen | hlen <;> rw [hlen] at hpos
      · exact .inl hpos
      · exact .inr (.inl hpos)
      · exact .inr (.inr (.inl hpos))
      · exact .inr (.inr (.inr hpos))
  · obtain ⟨hdec, -⟩ := (heffect.frame Config.params_legal).dec ha
    exact .inr (.inl (congrArg DecUnit.pos hdec))

/-- Settles O6: with four tags the decoder never rejects a byte for its tag, so no move of `DEC` raises that kind. -/
theorem unrecognizedTagIsNeverRaised : Obligations.UnrecognizedTagIsNeverRaised := by
  refine ⟨fun c hc bs => decodeChunk_ne_unrecognizedTag hc bs, fun s t h hs => ?_⟩
  obtain ⟨e, rest, he, hreact⟩ := step_cases s t h
  have heffect := react_effect _ _ _ _ hreact
  by_cases ha : e.agent = .dec
  · obtain ⟨d', _, _, _, hmove, rfl⟩ := heffect.decMove Config.params_legal ha
    rcases hmove.errKind with hnone | hsame | htruncated
    · exact fun h => nomatch hnone.symm.trans h
    · exact fun h => hs ((congrArg ErrReg.kind hsame).symm.trans h)
    · exact fun h => nomatch htruncated.symm.trans h
  · obtain ⟨hdec, -⟩ := (heffect.frame Config.params_legal).dec ha
    rw [hdec]
    exact hs

/-- The events of `FRR` but `Start` have a step only in a phase of a read. -/
theorem Effect.frr_reading (h : Effect c s t e) (ha : e.agent = .frr) :
    (∃ bytes, e = .frrStart bytes) ∨ s.frr.phase = .header ∨ s.frr.phase = .marker ∨ s.frr.phase = .decode := by
  cases e with
  | frrStart bytes => exact .inl ⟨bytes, rfl⟩
  | frrHeader => exact .inr (.inl h.1)
  | frrMarker => exact .inr (.inr (.inl h.1))
  | frrDecode => exact .inr (.inr (.inr h.1))
  | _ => cases ha

/-- Settles O30: a faulted unit is neither active nor reading, so no event of its own but `Start` has a step. -/
theorem errorsAreSticky : Obligations.ErrorsAreSticky := by
  intro s t e rest he h
  have heffect := step_effect s t e rest he h
  refine ⟨fun hfault hnot => ?dec, fun hfault hnot => ?frr⟩
  case dec =>
    refine ((heffect.frame Config.params_legal).dec fun ha => ?_).1
    obtain ⟨_, _, _, _, hmove, -⟩ := heffect.decMove Config.params_legal ha
    rcases hmove.start_or_active with ⟨input, rfl⟩ | hactive
    · exact hnot input rfl
    · cases hfault.symm.trans hactive
  case frr =>
    refine ((heffect.frame Config.params_legal).frr fun ha => ?_).1
    rcases heffect.frr_reading ha with ⟨bytes, rfl⟩ | hp | hp | hp
    · exact hnot bytes rfl
    all_goals cases hfault.symm.trans hp

/-- Settles O58: `Idle` is neither active nor a phase of a read. -/
theorem nothingRunsBeforeAStart : Obligations.NothingRunsBeforeAStart := by
  refine ⟨⟨rfl, rfl, rfl⟩, fun s t e rest henc hdec hfrr he h => ?_⟩
  have heffect := step_effect s t e rest he h
  cases ha : e.agent with
  | enc =>
    rcases heffect.enc_active ha with hp | rfl
    · cases henc.symm.trans hp
    · exact .inl rfl
  | dec =>
    obtain ⟨_, _, _, _, hmove, -⟩ := heffect.decMove Config.params_legal ha
    rcases hmove.start_or_active with hstart | hp
    · exact .inr (.inl hstart)
    · cases hdec.symm.trans hp
  | frr =>
    rcases heffect.frr_reading ha with hstart | hp | hp | hp
    · exact .inr (.inr (.inl hstart))
    all_goals cases hfrr.symm.trans hp
  | frw => exact .inr (.inr (.inr rfl))

/-- Settles O27: each condition is part of the event's `Effect`. -/
theorem eventsStepOnlyWhereEnabled : Obligations.EventsStepOnlyWhereEnabled := by
  intro s t e rest he h
  have heffect := step_effect s t e rest he h
  refine ⟨?enc, ?chunk, ?byte, ?decEnd, ?header, ?marker, ?decode⟩
  case enc => rintro (rfl | ⟨p, rfl⟩) <;> exact heffect.1
  case chunk =>
    rintro rfl
    obtain ⟨hp, bytes, hi, hlt, -⟩ := heffect
    exact ⟨hp, bytes, hi, hlt⟩
  case byte =>
    rintro ⟨b, rfl⟩
    obtain ⟨hp, hi, -⟩ := heffect
    exact ⟨hp, hi⟩
  case decEnd =>
    rintro rfl
    obtain ⟨hp, hend⟩ := heffect
    refine ⟨hp, fun bytes hi => ?_⟩
    rcases hend with ⟨bytes', hi', hpos, -⟩ | ⟨hi', -⟩ | ⟨hi', -⟩ <;> cases hi.symm.trans hi'
    exact hpos
  case header => rintro rfl; exact heffect.1
  case marker => rintro rfl; exact heffect.1
  case decode => rintro rfl; exact heffect.1

/-- Settles O50: each agent appends to its own output (`Effect.of_enc` and the like), `ENC` at most 6 bytes (`encAfter`). -/
theorem outputsOnlyGrow : Obligations.OutputsOnlyGrow := by
  intro s t h
  obtain ⟨e, rest, -, hreact⟩ := step_cases s t h
  have heffect := react_effect _ _ _ _ hreact
  have hsame {α : Type} (l : List α) : ∃ out, l = l ++ out := ⟨[], (List.append_nil l).symm⟩
  have hsameEnc : ∃ out, s.encOut = s.encOut ++ out ∧ out.length ≤ 6 := ⟨[], (List.append_nil _).symm, Nat.zero_le 6⟩
  cases ha : e.agent with
  | enc =>
    have hlen : (encAfter Config.params s.enc e).2.length ≤ 6 := by
      obtain ⟨hbounds, -⟩ := encodedSizeIsBounded
      cases e with
      | encPix p => exact (hbounds _ s.enc p).1
      | encEnd => exact (hbounds _ s.enc s.enc.prev).2.trans (by decide)
      | _ => exact Nat.zero_le 6
    rw [heffect.of_enc ha]
    exact ⟨⟨_, rfl, hlen⟩, hsame _, hsame _, hsame _⟩
  | dec =>
    obtain ⟨_, _, out, _, -, rfl⟩ := heffect.decMove Config.params_legal ha
    exact ⟨hsameEnc, ⟨out, rfl⟩, hsame _, hsame _⟩
  | frr =>
    obtain ⟨_, _, out, _, rfl⟩ := heffect.of_frr ha
    exact ⟨hsameEnc, hsame _, ⟨out, rfl⟩, hsame _⟩
  | frw =>
    obtain ⟨out, rfl⟩ := heffect.of_frw ha
    exact ⟨hsameEnc, hsame _, hsame _, ⟨out, rfl⟩⟩

/-- Settles O49: the frames, and that `encAfter` and `DecMove` speak of a unit's own registers and input only. -/
theorem unitsShareNoState : Obligations.UnitsShareNoState := by
  refine ⟨fun s t e rest he h => ?frame, fun s s' t e rest rest' he he' h => ⟨fun ha hs => ?enc, fun ha hs hi hn => ?dec⟩⟩
  case frame =>
    obtain ⟨henc, hdec, hfrr, hfrw⟩ := (step_effect s t e rest he h).frame Config.params_legal
    exact ⟨henc, hdec, hfrr, hfrw⟩
  case enc =>
    have heffect := step_effect s t e rest he h
    have hactive : (s'.withEvents rest').enc.phase = .active ∨ e = .encStart := by
      rw [State.withEvents_enc, ← hs]
      exact heffect.enc_active ha
    have hreact := react_enc (c := Config.params) ha hactive
    rw [State.withEvents_enc, ← hs] at hreact
    rw [heffect.of_enc ha]
    exact ⟨_, _, (step_of_events s' e rest' he').trans hreact, rfl, rfl, rfl⟩
  case dec =>
    obtain ⟨d', input', out, _, hmove, rfl⟩ := (step_effect s t e rest he h).decMove Config.params_legal ha
    have hmove' : DecMove Config.params (s'.withEvents rest').dec (s'.withEvents rest').decIn (s'.withEvents rest').draws e
        d' input' out := by
      rw [State.withEvents_dec, State.withEvents_decIn, State.withEvents_draws, ← hs, ← hi, ← hn]
      exact hmove
    obtain ⟨t', ht', hdec, hout⟩ := hmove'.react
    exact ⟨t', out, (step_of_events s' e rest' he').trans ht', hdec, rfl, hout⟩

/-- Settles O23: where the event is enabled and its bytes are read, its unit calls `exec`. -/
theorem stepRunsTheDecodedInstruction : Obligations.StepRunsTheDecodedInstruction := by
  refine ⟨fun s rest bytes i tl hat hd => ?chunk, fun s rest b b0 more i tl he hp hi hb hlen hd => ?byte,
    fun s rest i tl he hp hd => ?header, fun s rest i tl he hp hd => ?marker⟩
  case chunk =>
    cases bytes with
    | nil => cases hd
    | cons b0 tl' => rw [step_atChunk hat, hd, runDecoded]
  case byte =>
    obtain ⟨i', hd', hstep⟩ := (step_decByte_cases s rest b b0 more he hp hi hb).2 hlen
    cases hd.symm.trans hd'
    exact hstep
  case header => exact (step_of_events s _ rest he).trans (frrHeader_enabled (s.withEvents rest) i tl hp hd)
  case marker => exact (step_of_events s _ rest he).trans (frrMarker_enabled (s.withEvents rest) i tl hp hd)

end Sys2Proof.Machine

/-! The invariant (10_state.md section 7): what the caches hold, where `prev` stands, and the invariant of each unit, which every
event keeps; and what the classifier never picks (30_encoding.md section 5). -/

namespace Sys2Proof.Machine

variable {c : Params} {s t : State} {e : Event}

/-! ## The caches -/

/-- R90: the cache of `ENC` is emptied, left alone, or written at the slot of the pixel that is stored. -/
theorem encAfter_cache (c : Params) (u : EncUnit) (e : Event) :
    (encAfter c u e).1.cache = [] ∨ (encAfter c u e).1.cache = u.cache
      ∨ ∃ px, (encAfter c u e).1.cache = u.cache.write (pixelHash px) px := by
  cases e with
  | encStart => exact .inl rfl
  | encPix p => exact .inr (.inr ⟨p, (u.pix_regs c p).1⟩)
  | encEnd => exact .inr (.inl (congrArg (EncUnit.cache ·.1) (u.stop_eq c)))
  | _ => exact .inr (.inl rfl)

/-- R24: the three things that an event can do to a cache keep it hashed. -/
theorem CacheHashed.of_change {m m' : Cache} (h : CacheHashed m)
    (hm : m' = [] ∨ m' = m ∨ ∃ px, m' = m.write (pixelHash px) px) : CacheHashed m' := by
  rcases hm with rfl | rfl | ⟨px, rfl⟩
  · exact .nil
  · exact h
  · exact .write m px h

/-- Settles O45: a cache is only ever emptied or written at the slot of the pixel that is stored. -/
theorem cacheSlotsHoldTheirHash : Obligations.CacheSlotsHoldTheirHash := by
  intro s t henc hdec h
  obtain ⟨e, rest, -, hreact⟩ := step_cases s t h
  have heffect := react_effect _ _ _ _ hreact
  have hframe := heffect.frame Config.params_legal
  constructor
  · by_cases ha : e.agent = .enc
    · rw [heffect.of_enc ha]
      exact henc.of_change (encAfter_cache ..)
    · obtain ⟨hsame, -⟩ := hframe.enc ha
      rw [hsame]
      exact henc
  · by_cases ha : e.agent = .dec
    · obtain ⟨_, _, _, _, hmove, rfl⟩ := heffect.decMove Config.params_legal ha
      exact hdec.of_change hmove.cache
    · obtain ⟨hsame, -⟩ := hframe.dec ha
      rw [hsame]
      exact hdec

/-- Settles O46: both units store a pixel at its own slot when it becomes `prev`; at the start of a pass they have stored none. -/
theorem previousPixelIsCached : Obligations.PreviousPixelIsCached := by
  refine ⟨fun c u p => ?pix, fun i s t hp h => ?chunk, by decide, rfl, by decide, fun c u hwf hread => ?run⟩
  case pix =>
    obtain ⟨hcache, hprev, -⟩ := u.pix_regs c p
    exact ⟨hprev, by rw [hcache, Cache.read_write_same]⟩
  case chunk =>
    rw [exec_chunk i s hp] at h
    cases h
    exact Cache.read_write_same ..
  case run => exact (u.pix_regs c u.prev).1.trans (Cache.write_of_read _ _ _ hwf hread)

/-! ## The invariant of `ENC` -/

theorem EncInv.start : EncInv EncUnit.start where
  cacheWf := rfl
  hashed := .nil
  runBelow := by decide
  prevCached := .inr ⟨rfl, rfl, rfl⟩
  idleFlushed := nofun

theorem EncInv.pix {u : EncUnit} (h : EncInv u) (hp : u.phase = .active) (p : Pixel) :
    EncInv (u.pix Config.params p).1 := by
  obtain ⟨hcache, hprev, hphase⟩ := u.pix_regs Config.params p
  refine ⟨?cacheWf, ?hashed, u.pix_run_below Config.params_legal h.runBelow p, ?prevCached, ?idleFlushed⟩
  case cacheWf => rw [hcache]; exact Cache.write_wf _ _ _ h.cacheWf
  case hashed => rw [hcache]; exact .write _ p h.hashed
  case prevCached => exact .inl (by rw [hcache, hprev, Cache.read_write_same])
  case idleFlushed => exact fun hidle => nomatch (hphase.trans hp).symm.trans hidle

theorem EncInv.stop {u : EncUnit} (h : EncInv u) : EncInv (u.stop Config.params).1 := by
  rw [u.stop_eq]
  refine ⟨h.cacheWf, h.hashed, (Config.params.maxRun_bounds Config.params_legal).1, ?_, fun _ => rfl⟩
  exact h.prevCached.imp_right fun ⟨hprev, hcache, _⟩ => ⟨hprev, hcache, rfl⟩

theorem EncInv.encAfter {u : EncUnit} (h : EncInv u) (hp : u.phase = .active ∨ e = .encStart) :
    EncInv (encAfter Config.params u e).1 := by
  cases e with
  | encStart => exact .start
  | encPix p => exact h.pix (hp.resolve_right nofun) p
  | encEnd => exact h.stop
  | _ => exact h

/-! ## The invariant of `DEC` -/

section Decoder

variable {d d' : DecUnit} {input input' : DecInput}

theorem DecInv.start (o : Nat) (input : DecInput) : DecInv (DecUnit.start o) input where
  cacheWf := rfl
  hashed := .nil
  prevCached := .inr ⟨rfl, rfl, rfl⟩
  bufPartial := nofun
  posInside _ _ := ⟨Nat.zero_le _, rfl⟩
  errKind := .inl rfl
  faultedIff := ⟨nofun, fun h => absurd rfl h⟩
  doneRead := nofun

/-- An active unit holds no error. -/
theorem DecInv.no_error (h : DecInv d input) (hp : d.phase = .active) : d.err.kind = .none := by
  by_contra herr
  cases hp.symm.trans (h.faultedIff.mpr herr)

/-- R109: a chunk that is executed, the buffer emptied, inside the stream. -/
theorem DecInv.writeBack (h : DecInv d input) (hp : d.phase = .active) (px : Pixel) (len : Nat)
    (hpos : ∀ bytes, input = .whole bytes → d.pos + len ≤ bytes.length) :
    DecInv (({ d with buf := [] } : DecUnit).writeBack px len) input where
  cacheWf := Cache.write_wf _ _ _ h.cacheWf
  hashed := .write _ px h.hashed
  prevCached := .inl (Cache.read_write_same ..)
  bufPartial := nofun
  posInside bytes hi := ⟨hpos bytes hi, rfl⟩
  errKind := h.errKind
  faultedIff := h.faultedIff
  doneRead hdone := nomatch hp.symm.trans hdone

/-- R18, R111: in the byte-serial form, bytes that do not make a chunk whole. -/
theorem DecInv.withBuf (h : DecInv d .serial) (hp : d.phase = .active) {buf : List Byte}
    (hpartial : Unfinished Config.params buf) : DecInv { d with buf := buf } .serial where
  cacheWf := h.cacheWf
  hashed := h.hashed
  prevCached := h.prevCached
  bufPartial := hpartial
  posInside := nofun
  errKind := h.errKind
  faultedIff := h.faultedIff
  doneRead hdone := nomatch hp.symm.trans hdone

/-- R148. -/
theorem DecInv.cutShort (h : DecInv d input) : DecInv d.cutShort input where
  cacheWf := h.cacheWf
  hashed := h.hashed
  prevCached := h.prevCached
  bufPartial := h.bufPartial
  posInside := h.posInside
  errKind := .inr rfl
  faultedIff := ⟨fun _ => nofun, fun _ => rfl⟩
  doneRead := nofun

/-- R175: `End` where all of the stream has been read. -/
theorem DecInv.done (h : DecInv d input) (hp : d.phase = .active) (hbuf : d.buf = [])
    (hread : ∀ bytes, input = .whole bytes → d.pos = bytes.length) : DecInv { d with phase := .done } input where
  cacheWf := h.cacheWf
  hashed := h.hashed
  prevCached := h.prevCached
  bufPartial := h.bufPartial
  posInside := h.posInside
  errKind := h.errKind
  faultedIff := ⟨nofun, fun herr => absurd (h.no_error hp) herr⟩
  doneRead _ := ⟨hbuf, hread⟩

theorem one_le_chunkLen (c : Params) (b0 : Byte) : 1 ≤ chunkLen c b0 := by
  unfold chunkLen
  split_ifs <;> omega

/-- R18, R111: a byte joins a buffer that was part of a chunk, and the chunk is still not whole. -/
theorem unfinished_append_byte {bs : List Byte} (h : Unfinished c bs) {b : Byte}
    (hpartial : chunkComplete c (bs ++ [b]) = false) : Unfinished c (bs ++ [b]) := by
  intro b0 more heq
  have hne : (bs ++ [b]).length ≠ chunkLen c b0 := by
    rw [heq] at hpartial ⊢
    exact of_decide_eq_false hpartial
  refine Nat.lt_of_le_of_ne ?_ hne
  cases bs with
  | nil => exact one_le_chunkLen c b0
  | cons b1 more' =>
    obtain ⟨rfl, -⟩ := List.cons.inj heq
    rw [List.length_append]
    exact h b1 more' rfl

/-- Every move of `DEC` keeps its invariant. -/
theorem DecInv.move {draws : Nat} {out : List Pixel} (h : DecInv d input)
    (hmove : DecMove Config.params d input draws e d' input' out) : DecInv d' input' := by
  cases hmove with
  | start => exact .start _ _
  | @chunk bytes rest i hp hi hd =>
    subst hi
    obtain ⟨hle, hbuf⟩ := h.posInside bytes rfl
    have hlen : d.pos + i.len ≤ bytes.length := by
      have := congrArg List.length (decodeChunk_bytes _ _ _ _ hd)
      rw [List.length_drop, List.length_append, encode_length] at this
      omega
    have hinv := h.writeBack hp (chunkPixel d i) i.len (by rintro _ ⟨⟩; exact hlen)
    rwa [← hbuf] at hinv
  | chunkCut => exact h.cutShort
  | lastByte hp hi =>
    subst hi
    exact h.writeBack hp _ _ nofun
  | moreBytes hp hi hpartial =>
    subst hi
    exact h.withBuf hp (unfinished_append_byte h.bufPartial hpartial)
  | @doneWhole bytes hp hi hpos =>
    subst hi
    exact h.done hp (h.posInside bytes rfl).2 (by rintro _ ⟨⟩; exact hpos)
  | doneSerial hp hi hbuf =>
    subst hi
    exact h.done hp hbuf nofun
  | endCut => exact h.cutShort

end Decoder

/-! ## The invariant of `FRR` -/

/-- Outside `Faulted` the reader holds no error. -/
theorem FrrInv.no_error {f : FrrUnit} {bytes : List Byte} (h : FrrInv f bytes) (hp : f.phase ≠ .faulted) :
    f.err.kind = .none := by
  by_contra herr
  exact hp (h.faultedIff.mpr herr)

/-- R141 to R143: a header that raises an error. -/
theorem FrrInv.raise (f : FrrUnit) (bytes : List Byte) {k : ErrKind} (o : Nat)
    (hk : k = .invalidMagic ∨ k = .unsupportedChannelCount ∨ k = .unsupportedColorspace) :
    FrrInv { f with err := ⟨k, o⟩, phase := .faulted } bytes where
  errKind := .inr hk
  faultedIff := ⟨fun _ => by rcases hk with rfl | rfl | rfl <;> nofun, fun _ => rfl⟩
  streamLong := nofun
  latched := nofun

/-- R21, R123: once the header is read, only that it latched legal bytes and that the stream is long enough matter. -/
theorem FrrInv.of_latched {f : FrrUnit} {bytes : List Byte} (hp : f.phase ≠ .faulted) (herr : f.err.kind = .none)
    (hlong : shortestStream ≤ bytes.length) (hch : Config.channelsLegal f.channels = true)
    (hcs : Config.colorspaceLegal f.colorspace = true) : FrrInv f bytes where
  errKind := .inl herr
  faultedIff := ⟨fun h => absurd h hp, fun h => absurd herr h⟩
  streamLong _ := hlong
  latched _ := ⟨hch, hcs⟩

/-- Every event of `FRR` keeps its invariant. -/
theorem FrrInv.effect (h : FrrInv s.frr s.frrIn) (heffect : Effect c s t e) (ha : e.agent = .frr) :
    FrrInv t.frr t.frrIn := by
  cases e with
  | frrStart bytes =>
    obtain ⟨hlong, rfl⟩ := heffect
    exact ⟨.inl rfl, ⟨nofun, fun h => absurd rfl h⟩, fun _ => hlong, nofun⟩
  | frrHeader =>
    obtain ⟨hp, m, w, ht, ch, cs, rest, -, hexec⟩ := heffect
    rcases execHeader_cases _ _ _ _ _ _ _ hexec with ⟨-, rfl⟩ | ⟨-, -, rfl⟩ | ⟨-, -, -, rfl⟩ | ⟨-, hch, hcs, rfl⟩
    · exact .raise s.frr _ 0 (.inl rfl)
    · exact .raise (s.latchSize w ht).frr _ 12 (.inr (.inl rfl))
    · exact .raise ((s.latchSize w ht).latchChannels ch).frr _ 13 (.inr (.inr rfl))
    · exact .of_latched nofun (h.no_error (by rw [hp]; nofun)) (h.streamLong (.inl hp)) hch hcs
  | frrMarker =>
    obtain ⟨hp, k, rest, -, rfl⟩ := heffect
    obtain ⟨hch, hcs⟩ := h.latched (.inl hp)
    exact .of_latched nofun (h.no_error (by rw [hp]; nofun)) (h.streamLong (.inr (.inl hp))) hch hcs
  | frrDecode =>
    obtain ⟨hp, rfl⟩ := heffect
    obtain ⟨hch, hcs⟩ := h.latched (.inr (.inl hp))
    have herr := h.no_error (by rw [hp]; nofun)
    have hlong := h.streamLong (.inr (.inr hp))
    cases decodeStream c (chunkBytes s.frrIn) with
    | pixels q => exact .of_latched nofun herr hlong hch hcs
    | error k o => exact .of_latched nofun herr hlong hch hcs
  | _ => cases ha

/-! ## The statements -/

/-- Settles O47: an event keeps the invariant of its own unit and leaves the other units as they were. -/
theorem everyStepKeepsTheInvariant : Obligations.EveryStepKeepsTheInvariant := by
  intro s t hinv h
  obtain ⟨e, rest, -, hreact⟩ := step_cases s t h
  have heffect := react_effect _ _ _ _ hreact
  have hframe := heffect.frame Config.params_legal
  refine ⟨?enc, ?dec, ?frr⟩
  case enc =>
    by_cases ha : e.agent = .enc
    · rw [heffect.of_enc ha]
      exact hinv.enc.encAfter (heffect.enc_active ha)
    · obtain ⟨henc, -⟩ := hframe.enc ha
      rw [henc]
      exact hinv.enc
  case dec =>
    by_cases ha : e.agent = .dec
    · obtain ⟨_, _, _, _, hmove, rfl⟩ := heffect.decMove Config.params_legal ha
      exact hinv.dec.move hmove
    · obtain ⟨hdec, hdecIn, -⟩ := hframe.dec ha
      rw [hdec, hdecIn]
      exact hinv.dec
  case frr =>
    by_cases ha : e.agent = .frr
    · exact FrrInv.effect (s := s.withEvents rest) hinv.frr heffect ha
    · obtain ⟨hfrr, hfrrIn, -⟩ := hframe.frr ha
      rw [hfrr, hfrrIn]
      exact hinv.frr

/-- Settles O48: at reset the units hold the values of `Start`, no run, no buffer and no error. -/
theorem resetMeetsTheInvariant : Obligations.ResetMeetsTheInvariant where
  enc := { EncInv.start with idleFlushed := fun _ => rfl }
  dec := { DecInv.start 0 (.whole []) with faultedIff := ⟨nofun, fun h => absurd rfl h⟩, doneRead := nofun }
  frr := ⟨.inl rfl, ⟨nofun, fun h => absurd rfl h⟩, nofun, nofun⟩

/-- Settles O29, by the definition of `State.reset`. -/
theorem resetHoldsTheStartValues : Obligations.ResetHoldsTheStartValues :=
  ⟨rfl, rfl, fun slot => ⟨Cache.read_nil slot, Cache.read_nil slot⟩, rfl, rfl, rfl, rfl, rfl, rfl, rfl, rfl, rfl, rfl⟩

/-! ## What the classifier never picks -/

/-- R82: the class of a pixel, with what the tests before it answered. -/
theorem EncUnit.classify_cases (u : EncUnit) (p : Pixel) :
    (u.cache.read (pixelHash p) = p ∧ u.classify p = .index (pixelHash p))
    ∨ u.cache.read (pixelHash p) ≠ p ∧
      ((diffOk p u.prev = true ∧ u.classify p = diffChunk p u.prev)
      ∨ diffOk p u.prev = false ∧
        ((lumaOk p u.prev = true ∧ u.classify p = lumaChunk p u.prev)
        ∨ lumaOk p u.prev = false ∧
          ((p.a = u.prev.a ∧ u.classify p = .rgb p.r p.g p.b)
          ∨ p.a ≠ u.prev.a ∧ u.classify p = .rgba p.r p.g p.b p.a))) := by
  unfold classify
  split
  · exact .inl ⟨‹_›, rfl⟩
  split
  · exact .inr ⟨‹_›, .inl ⟨‹_›, rfl⟩⟩
  have hdiff := eq_false_of_ne_true ‹_›
  split
  · exact .inr ⟨‹_›, .inr ⟨hdiff, .inl ⟨‹_›, rfl⟩⟩⟩
  have hluma := eq_false_of_ne_true ‹_›
  split
  · exact .inr ⟨‹_›, .inr ⟨hdiff, .inr ⟨hluma, .inl ⟨‹_›, rfl⟩⟩⟩⟩
  · exact .inr ⟨‹_›, .inr ⟨hdiff, .inr ⟨hluma, .inr ⟨‹_›, rfl⟩⟩⟩⟩

/-- A DIFF with three zero deltas produces `prev`, and the chunk that is picked produces the pixel. -/
theorem EncUnit.classify_ne_diff_zero (u : EncUnit) {p : Pixel} (hp : p ≠ u.prev) : u.classify p ≠ .diff 2 2 2 := by
  intro h
  have hpix := u.chunkPixel_classify { DecUnit.start 0 with prev := u.prev, cache := u.cache } p rfl rfl
  rw [h] at hpix
  exact hp (hpix.symm.trans (pixelDiff_zero _))

/-- Settles O42: of the classes of `EncUnit.classify_cases` a given chunk leaves one. -/
theorem encoderNeverPicksNonCanonicalChunks : Obligations.EncoderNeverPicksNonCanonicalChunks := by
  intro u p hp
  refine ⟨u.classify_ne_diff_zero hp, ?_⟩
  rcases u.classify_cases p with ⟨hread, h⟩ | ⟨hmiss, ⟨-, h⟩ | ⟨hdiff, ⟨-, h⟩ | ⟨hluma, ⟨ha, h⟩ | ⟨ha, h⟩⟩⟩⟩ <;> rw [h]
  case inl =>
    refine ⟨?_, fun h => absurd rfl (h _), nofun, nofun, nofun, nofun⟩
    rintro slot ⟨⟩
    refine ⟨rfl, hread, fun hreset => ?_⟩
    rw [hread] at hreset
    subst hreset
    exact ⟨by decide, rfl⟩
  case inr.inl => exact ⟨nofun, fun _ => hmiss, nofun, nofun, nofun, nofun⟩
  case inr.inr.inl => exact ⟨nofun, fun _ => hmiss, fun _ _ _ _ => hdiff, nofun, nofun, nofun⟩
  case inr.inr.inr.inl =>
    refine ⟨nofun, fun _ => hmiss, nofun, ?_, nofun, nofun⟩
    rintro r g b ⟨⟩
    exact ⟨hdiff, hluma, by rw [← ha]⟩
  case inr.inr.inr.inr =>
    refine ⟨nofun, fun _ => hmiss, nofun, nofun, ?_, nofun⟩
    rintro r g b a ⟨⟩
    exact ⟨ha, rfl⟩

end Sys2Proof.Machine

/-! The hash in other widths and the LUMA quantizer (40_helpers.md sections 1 and 4), and framed streams (43_framing.md): the header's
checks, the end of a read, the writer, and that the reader reads what the writer wrote. -/

namespace Sys2Proof.Machine

/-! ## The hash -/

/-- A red below 64 that brings the hash to a slot: 43 is the inverse of 3 modulo 64. -/
def redForSlot (g b a : Byte) (slot : BitVec 6) : Byte :=
  BitVec.ofNat 8 (43 * (slot.toNat + 64 - (5 * g.toNat + 7 * b.toNat + 11 * a.toNat) % 64) % 64)

theorem toNat_redForSlot (g b a : Byte) (slot : BitVec 6) : (redForSlot g b a slot).toNat
    = 43 * (slot.toNat + 64 - (5 * g.toNat + 7 * b.toNat + 11 * a.toNat) % 64) % 64 := by
  rw [redForSlot, BitVec.toNat_ofNat]
  omega

theorem pixelHash_redForSlot (g b a : Byte) (slot : BitVec 6) : pixelHash ⟨redForSlot g b a slot, g, b, a⟩ = slot := by
  apply BitVec.eq_of_toNat_eq
  have := slot.isLt
  simp only [toNat_pixelHash, toNat_redForSlot]
  omega

/-- Settles O11: 64 divides every greater power of two, 256 among them. -/
theorem hashAgreesInEveryWidth : Obligations.HashAgreesInEveryWidth := by
  refine ⟨fun p k hk => ?wide, fun p => ?wrapped, fun g b a slot => ⟨redForSlot g b a slot, ?_, pixelHash_redForSlot g b a slot⟩⟩
  case wide => exact (toNat_pixelHash p).trans (Nat.mod_mod_of_dvd _ (pow_dvd_pow 2 hk)).symm
  case wrapped =>
    apply BitVec.eq_of_toNat_eq
    simp only [toNat_pixelHash, BitVec.toNat_setWidth, BitVec.toNat_add, BitVec.toNat_mul, BitVec.reduceToNat]
    omega
  rw [toNat_redForSlot]
  exact Nat.mod_lt _ (by decide)

/-! ## LUMA -/

/-- R74: for a green delta of LUMA, the difference of two deltas is in the range of a term exactly if it is so after wrapping
around. -/
theorem lumaTerm_wrap_iff (x y : Byte) (hy : -32 ≤ y.toInt ∧ y.toInt ≤ 31) :
    (-8 ≤ x.toInt - y.toInt ∧ x.toInt - y.toInt ≤ 7) ↔ (-8 ≤ delta x y ∧ delta x y ≤ 7) := by
  have hx1 : -128 ≤ x.toInt := BitVec.le_toInt x
  have hx2 : x.toInt < 128 := BitVec.toInt_lt
  have hd1 := neg_128_le_delta x y
  have hd2 := delta_le_127 x y
  have hwrap : (256 : Int) ∣ delta x y - (x.toInt - y.toInt) := by
    rw [delta, BitVec.toInt_sub]
    exact Int.dvd_bmod_sub_self
  omega

/-- Settles O14: a term that the wrap-around brings into the range was there before. -/
theorem lumaQuantizer : Obligations.LumaQuantizer := by
  intro p q
  refine ⟨lumaOk_iff p q, ?wrapped, fun h c => ⟨_, _, rfl, ?_, ?_⟩⟩
  case wrapped =>
    rw [lumaOk_iff]
    refine and_congr_right fun _ => and_congr_right fun hg => ?_
    exact and_congr (lumaTerm_wrap_iff _ _ hg) (lumaTerm_wrap_iff _ _ hg)
  all_goals obtain ⟨-, hg, hr, hb⟩ := (lumaOk_iff p q).mp h
  · rw [toNat_tag_payload]
    push_cast
    rw [toNat_ofInt_of_lt (by omega) (by omega)]
  · rw [toNat_nibbles]
    push_cast
    rw [toNat_ofInt_of_lt (by omega) (by omega), toNat_ofInt_of_lt (by omega) (by omega)]

/-! ## The header -/

theorem Config.channelsLegal_iff (b : Byte) : Config.channelsLegal b = true ↔ b = 3 ∨ b = 4 := by
  simp only [Config.channelsLegal, Bool.or_eq_true, decide_eq_true_eq]

theorem Config.colorspaceLegal_iff (b : Byte) : Config.colorspaceLegal b = true ↔ b = 0 ∨ b = 1 := by
  simp only [Config.colorspaceLegal, Bool.or_eq_true, decide_eq_true_eq]

theorem Config.channelsLegal_eq_false {b : Byte} (h3 : b ≠ 3) (h4 : b ≠ 4) : Config.channelsLegal b = false :=
  eq_false_of_ne_true fun h => ((channelsLegal_iff b).mp h).elim h3 h4

theorem Config.colorspaceLegal_eq_false {b : Byte} (h0 : b ≠ 0) (h1 : b ≠ 1) : Config.colorspaceLegal b = false :=
  eq_false_of_ne_true fun h => ((colorspaceLegal_iff b).mp h).elim h0 h1

/-- R123: the header event where it is enabled runs the header that was read. -/
theorem step_frrHeader (s : State) (rest : List Event) {i : Instr} {tl : List Byte} (he : s.events = .frrHeader :: rest)
    (hp : s.frr.phase = .header) (hd : decodeHeader s.frrIn = .ok i tl) : step s = exec i (s.withEvents rest) :=
  (step_of_events s _ rest he).trans (frrHeader_enabled (s.withEvents rest) i tl hp hd)

/-- Settles O52: the four outcomes of the header, and the sizes that `unbe32` reads. -/
theorem headerIsCheckedInOffsetOrder : Obligations.HeaderIsCheckedInOffsetOrder := by
  refine ⟨fun m w h ch cs s => ⟨?legal, execHeader_magic m w h ch cs s, ?channels, ?colorspace⟩,
    fun s rest m0 m1 m2 m3 w0 w1 w2 w3 h0 h1 h2 h3 ch cs tl he hp hin =>
      ⟨_, _, _, step_frrHeader s rest he hp (by rw [hin]; rfl), toNat_unbe32 .., toNat_unbe32 .., toNat_unbe32 ..⟩,
    fun s rest bytes he => ⟨fun hlen => ?short, fun hlen => ⟨_, step_frrStart s bytes rest he hlen, rfl, rfl⟩⟩⟩
  case legal =>
    rintro rfl hch hcs
    exact execHeader_legal w h ch cs s ((Config.channelsLegal_iff ch).mpr hch) ((Config.colorspaceLegal_iff cs).mpr hcs)
  case channels =>
    rintro rfl h3 h4
    exact execHeader_channels w h ch cs s (Config.channelsLegal_eq_false h3 h4)
  case colorspace =>
    rintro rfl hch h0 h1
    exact execHeader_colorspace w h ch cs s ((Config.channelsLegal_iff ch).mpr hch) (Config.colorspaceLegal_eq_false h0 h1)
  case short => exact (step_of_events s _ rest he).trans (if_pos hlen)

/-! ## The end of a read -/

/-- R125: the decode event where it is enabled. -/
theorem step_frrDecode (s : State) (rest : List Event) (he : s.events = .frrDecode :: rest) (hp : s.frr.phase = .decode) :
    step s = .next ((s.withEvents rest).frrFinish (decodeStream Config.params (chunkBytes s.frrIn))) :=
  (step_of_events s _ rest he).trans (if_pos hp)

/-- Settles O54, by the two results that `decode` can have. -/
theorem readEndsWithPixelsOrTheDecodersError : Obligations.ReadEndsWithPixelsOrTheDecodersError := by
  intro s rest he hp
  refine ⟨fun q hq => ?_, fun k off hk => ?_⟩
  · rw [step_frrDecode s rest he hp, hq]
    rfl
  · rw [step_frrDecode s rest he hp, hk]
    rfl

/-! ## The writer -/

theorem countFlag_iff (w h : BitVec 32) (ps : List Pixel) :
    countFlag w h ps = true ↔ ps.length = w.toNat * h.toNat := decide_eq_true_iff

/-- R122: the bytes of the end marker. -/
theorem encode_endMarker (c : Params) : encode c (.endMarker Config.endMarker) = [0, 0, 0, 0, 0, 0, 0, 1] := rfl

theorem persisted_length (c : Params) (w h : BitVec 32) (ch cs : Byte) (ps : List Pixel) :
    (persisted c w h ch cs ps).length = 22 + (encodePixels c ps).length := by
  simp only [persisted, List.length_append, encode_length, Instr.len]
  omega

/-- R121, R155: where a precondition fails the writer has no step. -/
theorem frwWrite_refused (c : Params) (w h : BitVec 32) (ch cs : Byte) (ps : List Pixel) (s : State)
    (hpre : ¬(Config.channelsLegal ch = true ∧ Config.colorspaceLegal cs = true ∧ countFlag w h ps = true)) :
    ∃ r, frwWrite c w h ch cs ps s = .refused r := by
  cases hwrite : frwWrite c w h ch cs ps s with
  | next t =>
    obtain ⟨hch, hcs, hn, -⟩ := react_effect c (.frwWrite w h ch cs ps) s t hwrite
    exact absurd ⟨hch, hcs, hn⟩ hpre
  | fault f => cases f
  | refused r => exact ⟨r, rfl⟩

/-- Settles O55: the file is `persisted`, whose two records have 14 and 8 bytes. -/
theorem writerComposesThePersistedStream : Obligations.WriterComposesThePersistedStream := by
  intro s rest w h ch cs ps he
  refine ⟨fun hch hcs hn => ⟨persisted Config.params w h ch cs ps, ?step, ?bytes, persisted_length ..⟩, fun hpre => ?refused⟩
  case step =>
    exact (step_of_events s _ rest he).trans (frwWrite_enabled _ w h ch cs ps (s.withEvents rest)
      ((Config.channelsLegal_iff ch).mpr hch) ((Config.colorspaceLegal_iff cs).mpr hcs) ((countFlag_iff w h ps).mpr hn))
  case bytes => rw [persisted, encode_endMarker, encode]
  case refused =>
    rw [step_of_events s _ rest he]
    refine frwWrite_refused _ w h ch cs ps (s.withEvents rest) ?_
    rwa [Config.channelsLegal_iff, Config.colorspaceLegal_iff, countFlag_iff]

/-! ## What the writer writes, the reader reads -/

/-- R123: the header event, on a header that passes every check. -/
theorem step_header_legal (s : State) (rest : List Event) {tl : List Byte} {w h : BitVec 32} {ch cs : Byte}
    (hp : s.frr.phase = .header) (hd : decodeHeader s.frrIn = .ok (.header Config.params.magic w h ch cs) tl)
    (hch : Config.channelsLegal ch = true) (hcs : Config.colorspaceLegal cs = true) :
    step (s.withEvents (.frrHeader :: rest))
      = .next ((((s.latchSize w h).latchChannels ch).latchColorspace cs).withEvents rest) :=
  (step_frrHeader (s.withEvents (.frrHeader :: rest)) rest rfl hp hd).trans
    (execHeader_legal w h ch cs (s.withEvents rest) hch hcs)

/-- R124: the marker event, whatever the eight bytes are. -/
theorem step_marker_read (s : State) (rest : List Event) {tl : List Byte} {k : BitVec 64} (hp : s.frr.phase = .marker)
    (hd : decodeMarker (markerBytes s.frrIn) = .ok (.endMarker k) tl) :
    step (s.withEvents (.frrMarker :: rest)) = .next ((s.latchMarker (endMarkerFlag k)).withEvents rest) :=
  (step_of_events _ .frrMarker rest rfl).trans (frrMarker_enabled (s.withEvents rest) _ tl hp hd)

/-- R125: the decode event, on a chunk stream that decodes to pixels. -/
theorem step_decode_pixels (s : State) (rest : List Event) {q : List Pixel} (hp : s.frr.phase = .decode)
    (hd : decodeStream Config.params (chunkBytes s.frrIn) = .pixels q) :
    step (s.withEvents (.frrDecode :: rest)) = .next ((s.frrFinish (.pixels q)).withEvents rest) := by
  rw [step_frrDecode (s.withEvents (.frrDecode :: rest)) rest rfl hp, State.withEvents_frrIn, hd]
  rfl

/-- R123 to R125: the four events of a read that raises no error. -/
theorem run_read (s : State) (rest : List Event) {file tl tl' : List Byte} {w h : BitVec 32} {ch cs : Byte} {k : BitVec 64}
    {q : List Pixel} (he : s.events = .frrStart file :: .frrHeader :: .frrMarker :: .frrDecode :: rest)
    (hlen : shortestStream ≤ file.length) (hheader : decodeHeader file = .ok (.header Config.params.magic w h ch cs) tl)
    (hch : Config.channelsLegal ch = true) (hcs : Config.colorspaceLegal cs = true)
    (hmarker : decodeMarker (markerBytes file) = .ok (.endMarker k) tl')
    (hdecode : decodeStream Config.params (chunkBytes file) = .pixels q) :
    core.run 4 s = .next ((((((s.frrStart file).latchSize w h).latchChannels ch).latchColorspace cs).latchMarker
      (endMarkerFlag k)).frrFinish (.pixels q) |>.withEvents rest) := by
  have hstep1 := step_frrStart s file _ he hlen
  have hstep2 := step_header_legal (s.frrStart file) (.frrMarker :: .frrDecode :: rest) rfl hheader hch hcs
  have hstep3 := step_marker_read ((((s.frrStart file).latchSize w h).latchChannels ch).latchColorspace cs)
    (.frrDecode :: rest) rfl hmarker
  have hstep4 := step_decode_pixels (((((s.frrStart file).latchSize w h).latchChannels ch).latchColorspace cs).latchMarker
    (endMarkerFlag k)) rest rfl hdecode
  exact (run_succ_of_step 3 _ _ hstep1).trans ((run_succ_of_step 2 _ _ hstep2).trans
    ((run_succ_of_step 1 _ _ hstep3).trans (run_succ_of_step 0 _ _ hstep4)))

/-- Settles O56: the reader finds the header at the head of the stream, the marker at its last 8 bytes and `encode(P)` between,
which decodes to the pixels (O43). -/
theorem framedRoundTrip : Obligations.FramedRoundTrip := by
  intro s rest w h ch cs ps hch hcs hn he
  obtain ⟨hround, -⟩ := decodeOfEncodedPixelsIsThePixels
  have hlen : shortestStream ≤ (persisted Config.params w h ch cs ps).length := by
    rw [persisted_length]
    exact Nat.le_add_right ..
  have hheader : decodeHeader (persisted Config.params w h ch cs ps) = .ok (.header Config.params.magic w h ch cs)
      (encodePixels Config.params ps ++ encode Config.params (.endMarker Config.endMarker)) := by
    rw [persisted, List.append_assoc, decodeHeader_encode]
  have hmarker : decodeMarker (markerBytes (persisted Config.params w h ch cs ps)) = .ok (.endMarker Config.endMarker) [] := by
    rw [persisted, markerBytes_append _ _ rfl, ← List.append_nil (encode _ (.endMarker _)), decodeMarker_encode]
  have hdecode : decodeStream Config.params (chunkBytes (persisted Config.params w h ch cs ps)) = .pixels ps := by
    rw [persisted, chunkBytes_append _ _ _ rfl rfl]
    exact hround _ Config.params_legal ps
  have hread := run_read s rest he hlen hheader ((Config.channelsLegal_iff ch).mpr hch)
    ((Config.colorspaceLegal_iff cs).mpr hcs) hmarker hdecode
  exact ⟨_, hread, rfl, rfl, rfl, (countFlag_iff w h ps).mpr hn, rfl, rfl, rfl, rfl, rfl⟩

end Sys2Proof.Machine
